-- ==== Sys2Proof/Word.lean ====
section
/-! DEFINITION. The word types of I2CSEQ: bytes on the bus and 32-bit host registers (00_scope.md R7 REG_WIDTH, R8). -/

namespace Sys2Proof

/-- One byte: a data byte, a register address, a byte offset in the register window. -/
abbrev Byte := BitVec 8

/-- One host register or one host data word: 32 bits (R7 REG_WIDTH). -/
abbrev Word := BitVec 32

end Sys2Proof
end

