-- ==== Sys2Proof/Agents.lean ====
section
/-! DEFINITION. The vocabulary of the agents around the block (00_scope.md R6): the bus flags, actions and history of
10_state.md R31, R33, R34, the input pins of R35, a host access as it reaches the port, and a turn (which agent steps next,
with what it brings). The functions over these types stand in Machine/Ports.lean. -/

namespace Sys2Proof

/-- The bus flags SEQ samples (10_state.md R33); each is 1 when its condition holds. -/
inductive Flag where
  | bbusy
  | txrdy
  | rxrdy
  | sclLow
  | startPend
  deriving DecidableEq, Repr, Inhabited

/-- The bus actions of 10_state.md R34, in the order of their codes 1 to 9. -/
inductive BusAction where
  | cfgBus
  | clrTxrdy
  | setSla (a : BitVec 7)
  | setDir (d : BitVec 1)
  | genStart
  | writeDr (b : Byte)
  | genStop
  | genNackStop
  | readDr (b : Byte)
  deriving DecidableEq, Repr, Inhabited

/-- One entry of the bus history (10_state.md R31): an action (`READ_DR(v)` is the action a receive read appends) or a sample. -/
inductive BusEvent where
  | act (a : BusAction)
  | sample (f : Flag) (v : Bool)
  deriving DecidableEq, Repr, Inhabited

/-- The pins the bus peripheral drives during one SEQ step (10_state.md R35): the five flags and the receive data.
They are the BUS oracle's answers for that step (R31): nothing constrains them. -/
structure BusPins where
  bbusy     : Bool
  txrdy     : Bool
  rxrdy     : Bool
  sclLow    : Bool
  startPend : Bool
  rxdata    : Byte
  deriving DecidableEq, Repr, Inhabited

/-- The two encoded forms the host drives the block with (30_encoding.md R70). -/
inductive Form where
  | hop
  | cmd
  deriving DecidableEq, Repr, Inhabited

/-- An encoded host operation (30_encoding.md R70): a 9-bit HOP with the 32-bit data word on `h_wdata` (a read ignores it),
or a CMD word, which is the data word of a write to CMD (HOP = 0x100). -/
inductive HostWord where
  | hop (h : BitVec 9) (w : Word)
  | cmd (w : Word)
  deriving DecidableEq, Repr, Inhabited

/-- One host access as it is asked for: the encoded operation and its width in bytes (`MemRead(off, n)`, `MemWrite(off, n, v)`
of 00_scope.md R9); only `n = 4` is defined (20_memory.md R55). -/
structure HostAccess where
  word  : HostWord
  width : Nat
  deriving DecidableEq, Repr, Inhabited

/-- One turn: the agent that takes the next atomic step (00_scope.md R6, R10) and what it brings to it. `reset` is the
port `rst_n` (70_reset_and_hazards.md R260). -/
inductive Turn where
  | host (a : HostAccess)
  | seq (p : BusPins)
  | timer
  | tb
  | reset
  deriving DecidableEq, Repr, Inhabited

end Sys2Proof
end

