-- ==== Sys2Proof/Syntax.lean ====
section
/-! DEFINITION. The instruction set: one constructor per row of spec/opcode_table.json, in the table's order
(30_encoding.md R71, R72). -/

namespace Sys2Proof

/-- The host operations of I2CSEQ. The first eight are the CMD rows (the data word of a write to CMD, R70 form 2): `ign` is
`w[31:4]`, which the hardware ignores. The others are the HOP rows: `w` is the data word of a write, `off` the byte offset of
a reserved or refused access, and `data` of a refused access is the data word of a write (`none` for a read). -/
inductive Instr where
  | init (ign : BitVec 28)
  | start (ign : BitVec 28)
  | write (ign : BitVec 28)
  | readBurst (ign : BitVec 28)
  | readByte (ign : BitVec 28)
  | cmdRsvd0 (ign : BitVec 28)
  | cmdRsvd67 (opc : BitVec 4) (ign : BitVec 28)
  | cmdRsvd8F (opc : BitVec 4) (ign : BitVec 28)
  | rdCmd
  | wrCmd (w : Word)
  | rdStatus
  | wrStatus (w : Word)
  | rdSla
  | wrSla (w : Word)
  | rdRega
  | wrRega (w : Word)
  | rdLen
  | wrLen (w : Word)
  | rdTick
  | wrTick (w : Word)
  | rdBuf (i : BitVec 5)
  | wrBuf (i : BitVec 5) (w : Word)
  | rdRsvd18 (off : Byte)
  | rdRsvd20 (off : Byte)
  | rdRsvd40 (off : Byte)
  | wrRsvd18 (off : Byte) (w : Word)
  | wrRsvd20 (off : Byte) (w : Word)
  | wrRsvd40 (off : Byte) (w : Word)
  | hostfaultOffOdd (data : Option Word) (off : Byte)
  | hostfaultOff2 (data : Option Word) (off : Byte)
  deriving DecidableEq, Repr

end Sys2Proof
end

