-- ==== Sys2Proof/WellFormed.lean ====
section
/-! DEFINITION. Which terms of Instr the encodings of 30_encoding.md R71, R72 can spell: the opcode and offset ranges of the
reserved and the refused rows (spec/opcode_table.json). Every other operand is bounded by its type. -/

namespace Sys2Proof

/-- A word-aligned offset in `lo .. hi` (both included). -/
def offsetIn (lo hi off : Byte) : Bool :=
  lo ≤ off && off ≤ hi && off.extractLsb' 0 2 == 0#2

/-- The well-formedness check of an instruction. -/
def WellFormed : Instr → Bool
  | .init _ | .start _ | .write _ | .readBurst _ | .readByte _ | .cmdRsvd0 _ => true
  | .cmdRsvd67 opc _ => opc == 0x6#4 || opc == 0x7#4
  | .cmdRsvd8F opc _ => 0x8#4 ≤ opc
  | .rdCmd | .wrCmd _ | .rdStatus | .wrStatus _ | .rdSla | .wrSla _ | .rdRega | .wrRega _ => true
  | .rdLen | .wrLen _ | .rdTick | .wrTick _ | .rdBuf _ | .wrBuf _ _ => true
  | .rdRsvd18 off | .wrRsvd18 off _ => offsetIn 0x18#8 0x1C#8 off
  | .rdRsvd20 off | .wrRsvd20 off _ => offsetIn 0x20#8 0x3C#8 off
  | .rdRsvd40 off | .wrRsvd40 off _ => offsetIn 0x40#8 0x7C#8 off
  | .hostfaultOffOdd _ off => off.extractLsb' 0 1 == 1#1
  | .hostfaultOff2 _ off => off.extractLsb' 0 2 == 2#2

end Sys2Proof
end

