-- ==== Sys2Proof/Decode.lean ====
section
/-! DEFINITION. The decoder of host operations (30_encoding.md R70 to R77), total on every encoded form and on any bytes, and
after it the encoder. The bytes of an encoded form are laid out little-endian (20_memory.md R53); that a HOP occupies
two bytes is the model's (log 4). -/

namespace Sys2Proof

/-- Why bytes are no encoded host operation. -/
inductive DecodeError where
  /-- fewer bytes than the form needs -/
  | tooFewBytes
  /-- bits 15:9 of the two bytes that hold a 9-bit HOP are not zero -/
  | hopAboveNineBits
  deriving DecidableEq, Repr

/-- The OPC map (30_encoding.md R71, R75); `w[31:4]` is ignored. -/
def decodeCmd (w : Word) : Instr :=
  let opc := w.extractLsb' 0 4
  let ign := w.extractLsb' 4 28
  if opc = 0x0#4 then .cmdRsvd0 ign
  else if opc = 0x1#4 then .init ign
  else if opc = 0x2#4 then .start ign
  else if opc = 0x3#4 then .write ign
  else if opc = 0x4#4 then .readBurst ign
  else if opc = 0x5#4 then .readByte ign
  else if opc < 0x8#4 then .cmdRsvd67 opc ign
  else .cmdRsvd8F opc ign

/-- The read half of the HOP map at a word-aligned offset below 0x80 (30_encoding.md R72). -/
def decodeLowRead (off : Byte) : Instr :=
  if off = 0x00#8 then .rdCmd
  else if off = 0x04#8 then .rdStatus
  else if off = 0x08#8 then .rdSla
  else if off = 0x0C#8 then .rdRega
  else if off = 0x10#8 then .rdLen
  else if off = 0x14#8 then .rdTick
  else if off < 0x20#8 then .rdRsvd18 off
  else if off < 0x40#8 then .rdRsvd20 off
  else .rdRsvd40 off

/-- The write half of the HOP map at a word-aligned offset below 0x80 (30_encoding.md R72). -/
def decodeLowWrite (off : Byte) (w : Word) : Instr :=
  if off = 0x00#8 then .wrCmd w
  else if off = 0x04#8 then .wrStatus w
  else if off = 0x08#8 then .wrSla w
  else if off = 0x0C#8 then .wrRega w
  else if off = 0x10#8 then .wrLen w
  else if off = 0x14#8 then .wrTick w
  else if off < 0x20#8 then .wrRsvd18 off w
  else if off < 0x40#8 then .wrRsvd20 off w
  else .wrRsvd40 off w

/-- The HOP map (30_encoding.md R72): `HOP[8]` is the direction, `HOP[7:0]` the offset. A read ignores the data word. -/
def decodeHop (h : BitVec 9) (w : Word) : Instr :=
  let off := h.extractLsb' 0 8
  let isWrite := h.extractLsb' 8 1 = 1#1
  if off.extractLsb' 0 1 = 1#1 then .hostfaultOffOdd (if isWrite then some w else none) off
  else if off.extractLsb' 0 2 = 2#2 then .hostfaultOff2 (if isWrite then some w else none) off
  else if off.extractLsb' 7 1 = 1#1 then
    if isWrite then .wrBuf (off.extractLsb' 2 5) w else .rdBuf (off.extractLsb' 2 5)
  else if isWrite then decodeLowWrite off w
  else decodeLowRead off

/-- Decoding of an encoded host operation: every form decodes (30_encoding.md R71, R72). -/
def decode : HostWord → Instr
  | .hop h w => decodeHop h w
  | .cmd w => decodeCmd w

/-- The 32-bit word at the front of a list of bytes, lowest byte first (20_memory.md R53). -/
def wordOfBytes : List Byte → Option (Word × List Byte)
  | b0 :: b1 :: b2 :: b3 :: rest => some (b3 ++ b2 ++ b1 ++ b0, rest)
  | _ => none

/-- The bytes of a 32-bit word, lowest byte first (20_memory.md R53). -/
def bytesOfWord (w : Word) : List Byte :=
  [w.extractLsb' 0 8, w.extractLsb' 8 8, w.extractLsb' 16 8, w.extractLsb' 24 8]

/-- The encoded host operation at the front of a list of bytes, with the bytes after it: a HOP is two bytes and, for a write,
four bytes of data word follow (30_encoding.md R70); a CMD word is four bytes. -/
def hostWordOfBytes : Form → List Byte → Except DecodeError (HostWord × List Byte)
  | .cmd, bs =>
    match wordOfBytes bs with
    | some (w, rest) => .ok (.cmd w, rest)
    | none => .error .tooFewBytes
  | .hop, b0 :: b1 :: bs =>
    if b1 = 0#8 then .ok (.hop (0#1 ++ b0) 0#32, bs)
    else if b1 = 1#8 then
      match wordOfBytes bs with
      | some (w, rest) => .ok (.hop (1#1 ++ b0) w, rest)
      | none => .error .tooFewBytes
    else .error .hopAboveNineBits
  | .hop, _ => .error .tooFewBytes

/-- The decoder on bytes: total, and every rejection has a name. -/
def decodeBytes (f : Form) (bs : List Byte) : Except DecodeError (Instr × List Byte) :=
  match hostWordOfBytes f bs with
  | .ok (h, rest) => .ok (decode h, rest)
  | .error e => .error e

/-- A CMD word with the given opcode (30_encoding.md R70 form 2). -/
def cmdWord (opc : BitVec 4) (ign : BitVec 28) : Word := ign ++ opc

/-- The HOP of a read at an offset (30_encoding.md R70). -/
def hopRead (off : Byte) : HostWord := .hop (0#1 ++ off) 0#32

/-- The HOP of a write at an offset, with its data word (30_encoding.md R70). -/
def hopWrite (off : Byte) (w : Word) : HostWord := .hop (1#1 ++ off) w

/-- A refused access as it was asked for: a write where it carries a data word, else a read. -/
def hopRefused (data : Option Word) (off : Byte) : HostWord :=
  match data with
  | some w => hopWrite off w
  | none => hopRead off

/-- The encoding of each instruction, from 30_encoding.md R71 and R72. -/
def encode : Instr → HostWord
  | .init ign => .cmd (cmdWord 0x1#4 ign)
  | .start ign => .cmd (cmdWord 0x2#4 ign)
  | .write ign => .cmd (cmdWord 0x3#4 ign)
  | .readBurst ign => .cmd (cmdWord 0x4#4 ign)
  | .readByte ign => .cmd (cmdWord 0x5#4 ign)
  | .cmdRsvd0 ign => .cmd (cmdWord 0x0#4 ign)
  | .cmdRsvd67 opc ign => .cmd (cmdWord opc ign)
  | .cmdRsvd8F opc ign => .cmd (cmdWord opc ign)
  | .rdCmd => hopRead 0x00#8
  | .wrCmd w => hopWrite 0x00#8 w
  | .rdStatus => hopRead 0x04#8
  | .wrStatus w => hopWrite 0x04#8 w
  | .rdSla => hopRead 0x08#8
  | .wrSla w => hopWrite 0x08#8 w
  | .rdRega => hopRead 0x0C#8
  | .wrRega w => hopWrite 0x0C#8 w
  | .rdLen => hopRead 0x10#8
  | .wrLen w => hopWrite 0x10#8 w
  | .rdTick => hopRead 0x14#8
  | .wrTick w => hopWrite 0x14#8 w
  | .rdBuf i => hopRead (1#1 ++ i ++ 0#2)
  | .wrBuf i w => hopWrite (1#1 ++ i ++ 0#2) w
  | .rdRsvd18 off => hopRead off
  | .rdRsvd20 off => hopRead off
  | .rdRsvd40 off => hopRead off
  | .wrRsvd18 off w => hopWrite off w
  | .wrRsvd20 off w => hopWrite off w
  | .wrRsvd40 off w => hopWrite off w
  | .hostfaultOffOdd data off => hopRefused data off
  | .hostfaultOff2 data off => hopRefused data off

/-- The form an encoded host operation has. -/
def HostWord.form : HostWord → Form
  | .hop _ _ => .hop
  | .cmd _ => .cmd

/-- The bytes of an encoded host operation, as `hostWordOfBytes` reads them. -/
def HostWord.bytes : HostWord → List Byte
  | .hop h w =>
    if h.extractLsb' 8 1 = 1#1 then h.extractLsb' 0 8 :: 1#8 :: bytesOfWord w
    else [h.extractLsb' 0 8, 0#8]
  | .cmd w => bytesOfWord w

/-- The number that a row's mask and match speak of: the HOP, or the CMD word (spec/opcode_table.json "format"). -/
def HostWord.key : HostWord → Word
  | .hop h _ => h.setWidth 32
  | .cmd w => w

/-- The mask and the match of each instruction's row of spec/opcode_table.json. -/
def opcodeRow : Instr → Word × Word
  | .init _ => (0xF#32, 0x1#32)
  | .start _ => (0xF#32, 0x2#32)
  | .write _ => (0xF#32, 0x3#32)
  | .readBurst _ => (0xF#32, 0x4#32)
  | .readByte _ => (0xF#32, 0x5#32)
  | .cmdRsvd0 _ => (0xF#32, 0x0#32)
  | .cmdRsvd67 _ _ => (0xE#32, 0x6#32)
  | .cmdRsvd8F _ _ => (0x8#32, 0x8#32)
  | .rdCmd => (0x1FF#32, 0x000#32)
  | .wrCmd _ => (0x1FF#32, 0x100#32)
  | .rdStatus => (0x1FF#32, 0x004#32)
  | .wrStatus _ => (0x1FF#32, 0x104#32)
  | .rdSla => (0x1FF#32, 0x008#32)
  | .wrSla _ => (0x1FF#32, 0x108#32)
  | .rdRega => (0x1FF#32, 0x00C#32)
  | .wrRega _ => (0x1FF#32, 0x10C#32)
  | .rdLen => (0x1FF#32, 0x010#32)
  | .wrLen _ => (0x1FF#32, 0x110#32)
  | .rdTick => (0x1FF#32, 0x014#32)
  | .wrTick _ => (0x1FF#32, 0x114#32)
  | .rdBuf _ => (0x183#32, 0x080#32)
  | .wrBuf _ _ => (0x183#32, 0x180#32)
  | .rdRsvd18 _ => (0x1FB#32, 0x018#32)
  | .rdRsvd20 _ => (0x1E3#32, 0x020#32)
  | .rdRsvd40 _ => (0x1C3#32, 0x040#32)
  | .wrRsvd18 _ _ => (0x1FB#32, 0x118#32)
  | .wrRsvd20 _ _ => (0x1E3#32, 0x120#32)
  | .wrRsvd40 _ _ => (0x1C3#32, 0x140#32)
  | .hostfaultOffOdd _ _ => (0x001#32, 0x001#32)
  | .hostfaultOff2 _ _ => (0x003#32, 0x002#32)

/-- Which form a table word of `nbits` bits is: a CMD row's opcode lies in one byte (or the whole 32-bit word is
given); every other length is a HOP, its data word above it (log 4). -/
def formOfTableBits (nbits : Nat) : Form :=
  if nbits ≤ 8 ∨ nbits = 32 then .cmd else .hop

/-- The bytes of a table word: its low `nbits` bits, lowest byte first, with zeros above, six bytes in all (a HOP and a
data word). -/
def tableBytes (nbits w : Nat) : List Byte :=
  (List.range 6).map fun k => BitVec.ofNat 8 (w % 2 ^ nbits / 2 ^ (8 * k))

/-- The encoded operation that a table word stands for. -/
def tableHostWord (nbits w : Nat) : Option HostWord :=
  match hostWordOfBytes (formOfTableBits nbits) (tableBytes nbits w) with
  | .ok (h, _) => some h
  | .error _ => none

/-- The instruction the decoder reads from a table word (host's fixed name). -/
def decodeTableWord (nbits w : Nat) : Option Instr :=
  match decodeBytes (formOfTableBits nbits) (tableBytes nbits w) with
  | .ok (i, _) => some i
  | .error _ => none

end Sys2Proof
end

