-- ==== Sys2Proof/Config.lean ====
section
/-! DEFINITION. The implementation parameters of 00_scope.md R7: the fixed ones as numbers, the OPEN ones as constants
without a body, and the free choice of the environment (R6, 10_state.md R31). -/

namespace Sys2Proof.Config

/-- T_BUSY, the bus-busy wait budget in ticks (R7). -/
def tBusy : Nat := 50

/-- T_START, the budget of the start-condition and register-address waits (R7). -/
def tStart : Nat := 50

/-- T_WSCL, the budget of the clock-settle wait in WRITE (R7). -/
def tWscl : Nat := 10

/-- T_DATA, the budget of every payload-phase wait and of the clock-settle wait of both reads (R7). -/
def tData : Nat := 100

/-- RETRY_MAX, the start attempts of one WRITE, READ_BURST or READ_BYTE (R7). -/
def retryMax : Nat := 5

/-- BUF_DEPTH, the bytes of the transaction buffer (R7). -/
def bufDepth : Nat := 32

/-- WINDOW, the bytes of the register window (R7). -/
def window : Nat := 0x100

/-- BUS_RATE in hertz (R7); what CFG_BUS configures (41_bus_controller.md R123). No rule computes with it. -/
def busRateHz : Nat := 400000

/-- TICK_PERIOD, nominal, in microseconds (R7, 70_reset_and_hazards.md R275). No rule depends on it. -/
def tickPeriodNominalUs : Nat := 1000

/-- The free part of RETRY_DELAY: OPEN in the spec (R7, 92_eei_decisions.md D13). -/
opaque retryDelayBeyondOne : Nat

/-- RETRY_DELAY, the SEQ steps of the delay between READ_BYTE start attempts: OPEN, at least 1 (R7, D13). -/
def retryDelay : Nat := retryDelayBeyondOne + 1

/-- I2C_DIVISOR: OPEN (R7, D34); CFG_BUS carries no argument, so no step reads it. -/
opaque i2cDivisor : Nat

/-- BLOCK_BASE, the address of the window on the host bus: OPEN (R7, D28). -/
opaque blockBase : Nat

/-- The free choice of the environment where State lists no turn: which agent steps, which access the host makes, what
the bus answers (R6: "any enabled agent may step next"; 10_state.md R31: the oracle "may see the whole bus history and a
free choice"). It is applied to a counter, to the bus history and to the last word the host read. DESIGN CHOICE (log 2). -/
opaque freeTurn : Nat → List BusEvent → Word → Turn

end Sys2Proof.Config
end

