-- ==== Sys2Proof/Machine/State.lean ====
section
/-! DEFINITION. The state of I2CSEQ (10_state.md R20 to R32), its reset (R37), and the reasons a step can stop. -/

namespace Sys2Proof.Machine

/-- The phases of the sequencer, exactly those of 10_state.md R32: `a…` are action phases, `w…` are waits. -/
inductive Phase where
  | idle
  | aInit
  | aBegin
  | wBusy
  | aStart
  | wSb
  | aRegaddr
  | wRa
  | aDelay
  | aWscl
  | wWscl
  | aWdata
  | wWtx
  | wWdrain
  | aRscl
  | wRscl
  | aRrs
  | wRrx
  | aBscl
  | wBscl
  | aBrs
  | wBrs
  | wBrx
  deriving DecidableEq, Repr, Inhabited

/-- The failure kinds of 60_exceptions.md R230; their codes are in Machine/Flags.lean. -/
inductive FailKind where
  | busBusy
  | startCondition
  | addressAck
  | clockStretch
  | data
  deriving DecidableEq, Repr, Inhabited

/-- Why a CMD write is rejected (43_host_access.md R198); the codes are in Machine/Flags.lean. -/
inductive RejectCause where
  | busy
  | reservedOpcode
  | lengthOutOfRange
  deriving DecidableEq, Repr, Inhabited

/-- The fields of STATUS (10_state.md R23). Its reserved bits hold nothing: they read as zero (`Status.word`). -/
structure Status where
  busy     : Bool
  done     : Bool
  ok       : Bool
  cmderr   : Bool
  init     : Bool
  failkind : BitVec 3
  failsite : BitVec 4
  attempts : BitVec 3
  cerr     : BitVec 2
  deriving DecidableEq, Repr

/-- STATUS after reset: every field 0 (R37). -/
def Status.reset : Status :=
  { busy := false, done := false, ok := false, cmderr := false, init := false,
    failkind := 0, failsite := 0, attempts := 0, cerr := 0 }

/-- The machine's state. The fields down to `tickPend` are the spec's; `hist` is the observation the spec has the model
record (R31); `hRdata`, `turns` and `turnNo` are the model's own (log 1, 2, 3). -/
structure State where
  /-- CMD.OPC, the opcode of the last accepted command (R22) -/
  opc      : BitVec 4
  /-- STATUS (R23) -/
  status   : Status
  /-- SLA.ADDR (R24) -/
  sla      : BitVec 7
  /-- REGA.RA (R25) -/
  rega     : Byte
  /-- LEN.N (R26) -/
  len      : Byte
  /-- TICK.COUNT, TICK_WIDTH = 16 (R27) -/
  tick     : BitVec 16
  /-- BUF[0..31].BYTE (R28) -/
  buf      : Vector Byte 32
  /-- st.phase (R29, R32) -/
  phase    : Phase
  /-- st.idx, the index of the next byte WRITE sends (R29) -/
  idx      : Nat
  /-- st.dly, the steps left of the READ_BYTE delay (R29) -/
  dly      : Nat
  /-- tick_pend (R30) -/
  tickPend : Bool
  /-- hist, the bus history, oldest entry first (R31) -/
  hist     : List BusEvent
  /-- the word on port h_rdata after the host's last read (R35) -/
  hRdata   : Word
  /-- the turns to come, the next first (log 2) -/
  turns    : List Turn
  /-- how many turns were taken from the free choice so far (log 2) -/
  turnNo   : Nat
  deriving DecidableEq, Repr

/-- The machine right after reset (10_state.md R37, 70_reset_and_hazards.md R260). -/
def State.reset : State :=
  { opc := 0, status := Status.reset, sla := 0, rega := 0, len := 0, tick := 0,
    buf := Vector.replicate 32 0, phase := .idle, idx := 0, dly := 0, tickPend := false, hist := [],
    hRdata := 0, turns := [], turnNo := 0 }

/-- The reasons a step stops with a fault. -/
inductive Fault where
  /-- HostFault(Unsupported(off, n)) (60_exceptions.md R233): raised for a host access that is not a 4-byte access at a
  word-aligned offset (43_host_access.md R192), by the refused rows and by the width check of a host step. Safe: the spec
  leaves the hardware's behaviour undefined, and nothing is claimed of a run that makes such an access. -/
  | hostFault (off : Byte) (n : Nat)
  /-- SEQ stands in a combination of phase and registers for which the spec gives no step, and which no run from reset
  reaches: a finished start attempt of an opcode that starts none (41_bus_controller.md R122), or a data byte beyond BUF[31]
  (R135). Raised by the sequencer only. Safe: the model stops where nothing is defined (log 7). -/
  | seqUndefined (p : Phase)
  deriving DecidableEq, Repr

/-- The reasons a step is refused. -/
inductive Refusal where
  /-- The instruction has no meaning in this model yet; raised by a refused arm of `exec` only (there is none). Safe. -/
  | notModelled (mnemonic : String)
  deriving DecidableEq, Repr

/-- What a step answers. -/
abbrev Result := Host.Outcome State Fault Refusal

end Sys2Proof.Machine
end

