-- ==== Sys2Proof/Machine/Flags.lean ====
section
/-! DEFINITION. The status fields: the STATUS word (10_state.md R23), the codes in it (60_exceptions.md R230,
43_host_access.md R198), every update of it, and the timeout comparator (40_timebase.md R107). -/

namespace Sys2Proof.Machine

/-- The word a read of STATUS returns (10_state.md R23): the fields in their places, reserved bits 0. -/
def Status.word (st : Status) : Word :=
  0#10 ++ st.cerr ++ 0#1 ++ st.attempts ++ st.failsite ++ 0#1 ++ st.failkind ++ 0#3 ++
    BitVec.ofBool st.init ++ BitVec.ofBool st.cmderr ++ BitVec.ofBool st.ok ++ BitVec.ofBool st.done ++
    BitVec.ofBool st.busy

/-- The FAILKIND codes (60_exceptions.md R230). -/
def failKindCode : FailKind → BitVec 3
  | .busBusy => 1
  | .startCondition => 2
  | .addressAck => 3
  | .clockStretch => 4
  | .data => 5

/-- The CERR codes (10_state.md R23, 43_host_access.md R198). -/
def rejectCode : RejectCause → BitVec 2
  | .busy => 1
  | .reservedOpcode => 2
  | .lengthOutOfRange => 3

/-- STATUS at the acceptance of a command (43_host_access.md R197); INIT is kept. -/
def Status.accepted (st : Status) : Status :=
  { st with busy := true, done := false, ok := false, cmderr := false, cerr := 0,
            failkind := 0, failsite := 0, attempts := 0 }

/-- STATUS at the rejection of a CMD write (43_host_access.md R198). -/
def Status.rejected (st : Status) (c : RejectCause) : Status :=
  { st with cmderr := true, cerr := rejectCode c }

/-- STATUS at `Finish(ok)` (41_bus_controller.md R121). -/
def Status.finishedOk (st : Status) : Status :=
  { st with ok := true, failkind := 0, failsite := 0, done := true, busy := false }

/-- STATUS at `Finish(fail, k, site)` (41_bus_controller.md R121). -/
def Status.finishedFail (st : Status) (k : FailKind) (site : BitVec 4) : Status :=
  { st with ok := false, failkind := failKindCode k, failsite := site, done := true, busy := false }

/-- STATUS at the start of an attempt (41_bus_controller.md R125). -/
def Status.attempted (st : Status) : Status :=
  { st with attempts := st.attempts + 1 }

/-- STATUS.INIT set by INIT (41_bus_controller.md R123). -/
def Status.initialised (st : Status) : Status :=
  { st with init := true }

/-- The timeout comparator: `TICK.COUNT >= B`, unsigned (40_timebase.md R107). -/
def timedOut (budget : Nat) (s : State) : Bool := decide (budget ≤ s.tick.toNat)

end Sys2Proof.Machine
end

