-- ==== Sys2Proof/Machine/Operands.lean ====
section
/-! DEFINITION. Operand assembly (30_encoding.md R73, R74) and the register map as a read sees it (20_memory.md R51, R52). -/

namespace Sys2Proof.Machine

/-- The opcodes of 30_encoding.md R71. -/
def opcInit : BitVec 4 := 0x1
def opcStart : BitVec 4 := 0x2
def opcWrite : BitVec 4 := 0x3
def opcReadBurst : BitVec 4 := 0x4
def opcReadByte : BitVec 4 := 0x5

/-- The field `w[k-1:0]` a write stores in a register; the other bits of `w` are dropped (30_encoding.md R74). -/
def storedField (k : Nat) (w : Word) : BitVec k := w.extractLsb' 0 k

/-- A register of one field as a read returns it, `zext_32` (30_encoding.md R74). -/
def readField {k : Nat} (v : BitVec k) : Word := v.setWidth 32

/-- The opcode of a CMD word (30_encoding.md R70, 43_host_access.md R197). -/
def opcOf (w : Word) : BitVec 4 := w.extractLsb' 0 4

/-- The slave address a command uses, `reg[SLA][6:0]` (30_encoding.md R73). -/
def slaveAddress (s : State) : BitVec 7 := s.sla

/-- The register address a command uses, `reg[REGA][7:0]` (30_encoding.md R73). -/
def registerAddress (s : State) : Byte := s.rega

/-- The length WRITE uses, `reg[LEN][7:0]` (30_encoding.md R73). -/
def lengthOf (s : State) : Nat := s.len.toNat

/-- The byte WRITE sends at index `i`, `reg[BUF[i]][7:0]` (30_encoding.md R73); there is none beyond BUF[31]. -/
def dataByte (s : State) (i : Nat) : Option Byte := s.buf[i]?

/-- The length check of a WRITE command (43_host_access.md R196). -/
def lengthAllowed (s : State) : Bool :=
  decide (1 ≤ lengthOf s) && decide (lengthOf s ≤ Config.bufDepth)

/-- The word of BUF[i] as a read returns it (43_host_access.md R205). -/
def bufWord (s : State) (i : BitVec 5) : Word := readField (s.buf[i.toNat]'i.isLt)

/-- The register window as word reads see it (20_memory.md R51, R52), at the word that holds offset `off`. -/
def windowWord (s : State) (off : Byte) : Word :=
  if off.extractLsb' 7 1 = 1#1 then bufWord s (off.extractLsb' 2 5)
  else
    let word := off.extractLsb' 2 5
    if word = 0 then readField s.opc
    else if word = 1 then s.status.word
    else if word = 2 then readField s.sla
    else if word = 3 then readField s.rega
    else if word = 4 then readField s.len
    else if word = 5 then readField s.tick
    else 0

/-- The byte of the window at offset `off`: bits 7:0 of a register are the byte at its lowest address (20_memory.md R53).
No host access reads it alone (R55). -/
def windowByte (s : State) (off : Byte) : Byte :=
  (windowWord s off).extractLsb' (8 * (off.extractLsb' 0 2).toNat) 8

end Sys2Proof.Machine
end

