-- ==== Sys2Proof/Machine/Ports.lean ====
section
/-! DEFINITION. The ports of 10_state.md R35: what the input pins answer to a sample, the code and argument an action puts on
the action port (R34), the pulse on `tick_ack`, and what a HOP puts on the host port. -/

namespace Sys2Proof.Machine

/-- The answer of the bus to `Sample(f)`: the pin of flag `f` (R33, R35). -/
def pinOf (p : BusPins) : Flag → Bool
  | .bbusy => p.bbusy
  | .txrdy => p.txrdy
  | .rxrdy => p.rxrdy
  | .sclLow => p.sclLow
  | .startPend => p.startPend

/-- `p_act_code`: the code of an action (R34). -/
def actionCode : BusAction → BitVec 4
  | .cfgBus => 1
  | .clrTxrdy => 2
  | .setSla _ => 3
  | .setDir _ => 4
  | .genStart => 5
  | .writeDr _ => 6
  | .genStop => 7
  | .genNackStop => 8
  | .readDr _ => 9

/-- `p_act_arg`: the argument of an action, its address, direction or byte (R34, R35); zero for an action that has none
(DESIGN CHOICE, log 10: the spec gives the port no value there). -/
def actionArg : BusAction → Byte
  | .setSla a => a.setWidth 8
  | .setDir d => d.setWidth 8
  | .writeDr b => b
  | .cfgBus | .clrTxrdy | .genStart | .genStop | .genNackStop | .readDr _ => 0

/-- The actions of a bus history: its entries less the samples (95_test_vectors.md, conventions). -/
def actionsOf (h : List BusEvent) : List BusAction :=
  h.filterMap fun e => match e with
    | .act a => some a
    | .sample _ _ => none

/-- `tick_ack` pulses in a TB step that consumes a request (40_timebase.md R102). -/
def tickAck (t : Turn) (s : State) : Bool := t == .tb && s.tickPend

/-- `h_we` of an encoded operation (R35, 30_encoding.md R70): 1 for a write. -/
def hostWe : HostWord → Bool
  | .hop h _ => h.extractLsb' 8 1 == 1#1
  | .cmd _ => true

/-- `h_addr`, the byte offset of an encoded operation (30_encoding.md R70): a CMD word is written to offset 0x00. -/
def hostOff : HostWord → Byte
  | .hop h _ => h.extractLsb' 0 8
  | .cmd _ => 0x00

/-- The address of an offset of the window on the host bus (20_memory.md R59). -/
def busAddress (off : Byte) : Nat := Config.blockBase + off.toNat

end Sys2Proof.Machine
end

