-- ==== Sys2Proof/Machine/Ops.lean ====
section
/-! DEFINITION. The shared operations: field writes, the bus primitives of 00_scope.md R9, the busy-write rule, acceptance and
rejection of a command, the recording of a failure (the block's counterpart of taking an exception, 60_exceptions.md R237;
there is no return, R238) and of a success, reset, and the taking of a turn. -/

namespace Sys2Proof.Machine

/-- `reg[CMD.OPC] <- v` -/
def State.setOpc (s : State) (v : BitVec 4) : State := { s with opc := v }
/-- an update of STATUS -/
def State.setStatus (s : State) (v : Status) : State := { s with status := v }
/-- `reg[SLA] <- v` -/
def State.setSla (s : State) (v : BitVec 7) : State := { s with sla := v }
/-- `reg[REGA] <- v` -/
def State.setRega (s : State) (v : Byte) : State := { s with rega := v }
/-- `reg[LEN] <- v` -/
def State.setLen (s : State) (v : Byte) : State := { s with len := v }
/-- `reg[TICK.COUNT] <- v` -/
def State.setTick (s : State) (v : BitVec 16) : State := { s with tick := v }
/-- `reg[BUF[i].BYTE] <- v` -/
def State.setBuf (s : State) (i : BitVec 5) (v : Byte) : State := { s with buf := s.buf.set i.toNat v i.isLt }
/-- `st.phase <- p` -/
def State.setPhase (s : State) (p : Phase) : State := { s with phase := p }
/-- `st.idx <- n` -/
def State.setIdx (s : State) (n : Nat) : State := { s with idx := n }
/-- `st.dly <- n` -/
def State.setDly (s : State) (n : Nat) : State := { s with dly := n }
/-- `tick_pend <- b` -/
def State.setTickPend (s : State) (b : Bool) : State := { s with tickPend := b }
/-- an entry appended to the bus history (10_state.md R31) -/
def State.record (s : State) (e : BusEvent) : State := { s with hist := s.hist ++ [e] }
/-- the result of a host read on port `h_rdata` (10_state.md R35) -/
def State.setRdata (s : State) (w : Word) : State := { s with hRdata := w }

/-- `Emit(a)` (00_scope.md R9, 10_state.md R31). -/
def State.emit (s : State) (a : BusAction) : State := s.record (.act a)

/-- `v <- RxByte(); reg[BUF[0].BYTE] <- v` (41_bus_controller.md R143, R154; 10_state.md R31). -/
def State.receiveByte (s : State) (v : Byte) : State := (s.emit (.readDr v)).setBuf 0 v

/-- `ResetWindow()` (40_timebase.md R105). -/
def State.resetWindow (s : State) : State := s.setTick 0

/-- The busy-write rule (43_host_access.md R195): a host write to a protected register lands only while BUSY = 0. -/
def whileIdle (s : State) (write : State → State) : State :=
  if s.status.busy then s else write s

/-- `Reject(c)` (43_host_access.md R198). -/
def reject (c : RejectCause) (s : State) : State := s.setStatus (s.status.rejected c)

/-- `Accept(opc)` (43_host_access.md R197). -/
def accept (opc : BitVec 4) (s : State) : State :=
  ((((s.setOpc opc).setStatus s.status.accepted).setIdx 0).setDly 0).setPhase
    (if opc = opcInit then .aInit else .aBegin)

/-- A request of a command that has no length check (43_host_access.md R197): rejected while BUSY = 1, else accepted. -/
def requestUnlessBusy (opc : BitVec 4) (s : State) : State :=
  if s.status.busy then reject .busy s else accept opc s

/-- A request of a reserved opcode (30_encoding.md R75, 43_host_access.md R197): the busy cause is tested first. -/
def requestReserved (s : State) : State :=
  if s.status.busy then reject .busy s else reject .reservedOpcode s

/-- The effect of a write of a command with opcode `opc` to CMD, the tests in the order of 43_host_access.md R197. -/
def requestCommand (opc : BitVec 4) (s : State) : State :=
  if s.status.busy then reject .busy s
  else if opc < opcInit || opcReadByte < opc then reject .reservedOpcode s
  else if opc = opcWrite && !lengthAllowed s then reject .lengthOutOfRange s
  else accept opc s

/-- `Finish(ok)` (41_bus_controller.md R121). -/
def finishOk (s : State) : State := (s.setStatus s.status.finishedOk).setPhase .idle

/-- `Finish(fail, k, site)` (41_bus_controller.md R121), what a failure records and changes (60_exceptions.md R237). -/
def finishFail (k : FailKind) (site : BitVec 4) (s : State) : State :=
  (s.setStatus (s.status.finishedFail k site)).setPhase .idle

/-- `raise HostFault(Unsupported(off, n))` (60_exceptions.md R233, 43_host_access.md R192). -/
def raiseHostFault (off : Byte) (n : Nat) : Result := .fault (.hostFault off n)

/-- Reset (70_reset_and_hazards.md R260, R262): every piece of state at its reset value, the bus history empty, and a running
command abandoned with no action. The turns to come are the environment's and stay. -/
def resetState (s : State) : State := { State.reset with turns := s.turns, turnNo := s.turnNo }

/-- The next turn and the state without it: the first listed turn, or the free choice where none is listed (log 2). -/
def takeTurn (s : State) : Turn × State :=
  match s.turns with
  | t :: ts => (t, { s with turns := ts })
  | [] => (Config.freeTurn s.turnNo s.hist s.hRdata, { s with turnNo := s.turnNo + 1 })

end Sys2Proof.Machine
end

