-- ==== Sys2Proof/Machine/Command.lean ====
section
/-! DEFINITION. The host step of a CMD write (43_host_access.md R197, R198): WR_CMD, and the CMD rows, which name the data word
of that write by its opcode. The step accepts or rejects the command; SEQ then runs it, one phase a step (Machine/Sequencer.lean;
20_memory.md R63, 70_reset_and_hazards.md R274 "a command starts in the step after its acceptance"). -/

namespace Sys2Proof.Machine

/-- WR_CMD (R197). -/
def execWrCmd (w : Word) (s : State) : Result := .next (requestCommand (opcOf w) s)

/-- INIT (41_bus_controller.md R123), requested: `w[31:4]` is ignored. -/
def execInit (_ign : BitVec 28) (s : State) : Result := .next (requestUnlessBusy opcInit s)

/-- START (41_bus_controller.md R124), requested. -/
def execStart (_ign : BitVec 28) (s : State) : Result := .next (requestUnlessBusy opcStart s)

/-- WRITE (41_bus_controller.md R131), requested: accepted only with a length of 1 to 32 (R196). -/
def execWrite (_ign : BitVec 28) (s : State) : Result :=
  .next (if s.status.busy then reject .busy s
         else if lengthAllowed s then accept opcWrite s
         else reject .lengthOutOfRange s)

/-- READ_BURST (41_bus_controller.md R139), requested. -/
def execReadBurst (_ign : BitVec 28) (s : State) : Result := .next (requestUnlessBusy opcReadBurst s)

/-- READ_BYTE (41_bus_controller.md R149), requested. -/
def execReadByte (_ign : BitVec 28) (s : State) : Result := .next (requestUnlessBusy opcReadByte s)

/-- Reserved opcode 0x0 (30_encoding.md R75). -/
def execCmdRsvd0 (_ign : BitVec 28) (s : State) : Result := .next (requestReserved s)

/-- Reserved opcodes 0x6 and 0x7 (30_encoding.md R75). -/
def execCmdRsvd67 (_opc : BitVec 4) (_ign : BitVec 28) (s : State) : Result := .next (requestReserved s)

/-- Reserved opcodes 0x8 to 0xF (30_encoding.md R75). -/
def execCmdRsvd8F (_opc : BitVec 4) (_ign : BitVec 28) (s : State) : Result := .next (requestReserved s)

end Sys2Proof.Machine
end

