-- ==== Sys2Proof/Machine/Registers.lean ====
section
/-! DEFINITION. Host access to the registers (43_host_access.md R200 to R206) and the refused accesses (R192). -/

namespace Sys2Proof.Machine

/-- RD_CMD (R200). -/
def execRdCmd (s : State) : Result := .next (s.setRdata (readField s.opc))

/-- RD_STATUS (R201). -/
def execRdStatus (s : State) : Result := .next (s.setRdata s.status.word)

/-- WR_STATUS (R201): no effect. -/
def execWrStatus (_w : Word) (s : State) : Result := .next s

/-- RD_SLA (R202). -/
def execRdSla (s : State) : Result := .next (s.setRdata (readField s.sla))

/-- WR_SLA (R202). -/
def execWrSla (w : Word) (s : State) : Result :=
  .next (whileIdle s fun s => s.setSla (storedField 7 w))

/-- RD_REGA (R203). -/
def execRdRega (s : State) : Result := .next (s.setRdata (readField s.rega))

/-- WR_REGA (R203). -/
def execWrRega (w : Word) (s : State) : Result :=
  .next (whileIdle s fun s => s.setRega (storedField 8 w))

/-- RD_LEN (R204). -/
def execRdLen (s : State) : Result := .next (s.setRdata (readField s.len))

/-- WR_LEN (R204): any 8-bit value is stored. -/
def execWrLen (w : Word) (s : State) : Result :=
  .next (whileIdle s fun s => s.setLen (storedField 8 w))

/-- RD_BUF (R205). -/
def execRdBuf (i : BitVec 5) (s : State) : Result := .next (s.setRdata (bufWord s i))

/-- WR_BUF (R205). -/
def execWrBuf (i : BitVec 5) (w : Word) (s : State) : Result :=
  .next (whileIdle s fun s => s.setBuf i (storedField 8 w))

/-- A read of a reserved offset returns 0 (R206, 20_memory.md R52). -/
def readReserved (s : State) : State := s.setRdata 0

/-- RD_RSVD, offsets 0x18 to 0x1C (R206). -/
def execRdRsvd18 (_off : Byte) (s : State) : Result := .next (readReserved s)

/-- RD_RSVD, offsets 0x20 to 0x3C (R206). -/
def execRdRsvd20 (_off : Byte) (s : State) : Result := .next (readReserved s)

/-- RD_RSVD, offsets 0x40 to 0x7C (R206). -/
def execRdRsvd40 (_off : Byte) (s : State) : Result := .next (readReserved s)

/-- WR_RSVD, offsets 0x18 to 0x1C: no effect (R206). -/
def execWrRsvd18 (_off : Byte) (_w : Word) (s : State) : Result := .next s

/-- WR_RSVD, offsets 0x20 to 0x3C: no effect (R206). -/
def execWrRsvd20 (_off : Byte) (_w : Word) (s : State) : Result := .next s

/-- WR_RSVD, offsets 0x40 to 0x7C: no effect (R206). -/
def execWrRsvd40 (_off : Byte) (_w : Word) (s : State) : Result := .next s

/-- A read or write with OFF[0] = 1: refused with HostFault (R192, 60_exceptions.md R233). -/
def execHostfaultOffOdd (_data : Option Word) (off : Byte) (_s : State) : Result := raiseHostFault off 4

/-- A read or write with OFF[1:0] = 10: refused with HostFault (R192, 60_exceptions.md R233). -/
def execHostfaultOff2 (_data : Option Word) (off : Byte) (_s : State) : Result := raiseHostFault off 4

end Sys2Proof.Machine
end

