-- ==== Sys2Proof/Machine/TimeBase.lean ====
section
/-! DEFINITION. TimeBase (40_timebase.md): the steps of TIMER and TB, RD_TICK and WR_TICK. -/

namespace Sys2Proof.Machine

/-- TIMER step (R101): enabled at all times; a request that is still pending stays one request. -/
def timerStep (s : State) : State := s.setTickPend true

/-- TB step (R102): increments TICK and clears the request in one step. Where `tick_pend` = 0 it is not enabled and the
turn changes nothing (log 3). -/
def tbStep (s : State) : State :=
  if s.tickPend then (s.setTick (s.tick + 1)).setTickPend false else s

/-- RD_TICK (R103). -/
def execRdTick (s : State) : Result := .next (s.setRdata (readField s.tick))

/-- WR_TICK (R104): the low 16 bits, while idle. -/
def execWrTick (w : Word) (s : State) : Result :=
  .next (whileIdle s fun s => s.setTick (storedField 16 w))

end Sys2Proof.Machine
end

