-- ==== Sys2Proof/Machine/Dispatch.lean ====
section
/-! DEFINITION. One arm per instruction: the HOST step it is (43_host_access.md). -/

namespace Sys2Proof.Machine

def exec (i : Instr) (s : State) : Host.Outcome State Fault Refusal :=
  match i with
  | .init ign => Sys2Proof.Machine.execInit ign s
  | .start ign => Sys2Proof.Machine.execStart ign s
  | .write ign => Sys2Proof.Machine.execWrite ign s
  | .readBurst ign => Sys2Proof.Machine.execReadBurst ign s
  | .readByte ign => Sys2Proof.Machine.execReadByte ign s
  | .cmdRsvd0 ign => Sys2Proof.Machine.execCmdRsvd0 ign s
  | .cmdRsvd67 opc ign => Sys2Proof.Machine.execCmdRsvd67 opc ign s
  | .cmdRsvd8F opc ign => Sys2Proof.Machine.execCmdRsvd8F opc ign s
  | .rdCmd => Sys2Proof.Machine.execRdCmd s
  | .wrCmd w => Sys2Proof.Machine.execWrCmd w s
  | .rdStatus => Sys2Proof.Machine.execRdStatus s
  | .wrStatus w => Sys2Proof.Machine.execWrStatus w s
  | .rdSla => Sys2Proof.Machine.execRdSla s
  | .wrSla w => Sys2Proof.Machine.execWrSla w s
  | .rdRega => Sys2Proof.Machine.execRdRega s
  | .wrRega w => Sys2Proof.Machine.execWrRega w s
  | .rdLen => Sys2Proof.Machine.execRdLen s
  | .wrLen w => Sys2Proof.Machine.execWrLen w s
  | .rdTick => Sys2Proof.Machine.execRdTick s
  | .wrTick w => Sys2Proof.Machine.execWrTick w s
  | .rdBuf k => Sys2Proof.Machine.execRdBuf k s
  | .wrBuf k w => Sys2Proof.Machine.execWrBuf k w s
  | .rdRsvd18 off => Sys2Proof.Machine.execRdRsvd18 off s
  | .rdRsvd20 off => Sys2Proof.Machine.execRdRsvd20 off s
  | .rdRsvd40 off => Sys2Proof.Machine.execRdRsvd40 off s
  | .wrRsvd18 off w => Sys2Proof.Machine.execWrRsvd18 off w s
  | .wrRsvd20 off w => Sys2Proof.Machine.execWrRsvd20 off w s
  | .wrRsvd40 off w => Sys2Proof.Machine.execWrRsvd40 off w s
  | .hostfaultOffOdd data off => Sys2Proof.Machine.execHostfaultOffOdd data off s
  | .hostfaultOff2 data off => Sys2Proof.Machine.execHostfaultOff2 data off s

end Sys2Proof.Machine
end

