-- ==== Sys2Proof/Machine/Sequencer.lean ====
section
/-! DEFINITION. The steps of SEQ, one per phase (41_bus_controller.md R120 to R154, 42_transaction_retry.md R170 to R175). The pins
of the turn are the bus oracle's answers of that step. -/

namespace Sys2Proof.Machine

/-- The bounded-poll primitive `WAIT(f == v, B, site)` (40_timebase.md R106): one sample, the predicate before the timeout
comparator (R107), a spin where neither holds. -/
def waitOn (f : Flag) (v : Bool) (budget : Nat) (p : BusPins) (onOk onTimeout : State → Result) (s : State) : Result :=
  let s1 := s.record (.sample f (pinOf p f))
  if pinOf p f = v then onOk s1
  else if timedOut budget s1 then onTimeout s1
  else .next s1

/-- `AttemptFail(k, site)` (42_transaction_retry.md R170). -/
def attemptFail (k : FailKind) (site : BitVec 4) (s : State) : State :=
  if s.opc = opcStart then finishFail k site s
  else if s.status.attempts.toNat < Config.retryMax then
    if s.opc = opcReadByte then (s.setDly Config.retryDelay).setPhase .aDelay
    else s.setPhase .aBegin
  else finishFail k site s

/-- `StartDone` (41_bus_controller.md R122); the spec names the four commands that have start attempts, and no other. -/
def startDone (s : State) : Result :=
  if s.opc = opcStart then .next (finishOk s)
  else if s.opc = opcWrite then .next (s.setPhase .aWscl)
  else if s.opc = opcReadBurst then .next (s.setPhase .aRscl)
  else if s.opc = opcReadByte then .next (s.setPhase .aBscl)
  else .fault (.seqUndefined s.phase)

/-- A_INIT (R123). -/
def phaseAInit (s : State) : Result :=
  let s1 := s.emit .cfgBus
  .next (finishOk (s1.setStatus s1.status.initialised))

/-- A_BEGIN (R125). -/
def phaseABegin (s : State) : Result :=
  .next ((s.setStatus s.status.attempted).resetWindow.setPhase .wBusy)

/-- W_BUSY (R126). -/
def phaseWBusy (p : BusPins) (s : State) : Result :=
  waitOn .bbusy false Config.tBusy p (fun s => .next (s.setPhase .aStart)) (fun s => .next (attemptFail .busBusy 1 s)) s

/-- A_START (R127): the four actions in this order (20_memory.md R62). -/
def phaseAStart (s : State) : Result :=
  .next (((((s.resetWindow.emit .clrTxrdy).emit (.setSla (slaveAddress s))).emit (.setDir 0)).emit .genStart).setPhase .wSb)

/-- W_SB (R128). -/
def phaseWSb (p : BusPins) (s : State) : Result :=
  waitOn .txrdy true Config.tStart p (fun s => .next (s.setPhase .aRegaddr))
    (fun s => .next (attemptFail .startCondition 2 s)) s

/-- A_REGADDR (R129). -/
def phaseARegaddr (s : State) : Result :=
  .next ((s.resetWindow.emit (.writeDr (registerAddress s))).setPhase .wRa)

/-- W_RA (R130). -/
def phaseWRa (p : BusPins) (s : State) : Result :=
  waitOn .txrdy true Config.tStart p startDone (fun s => .next (attemptFail .addressAck 3 s)) s

/-- A_DELAY (42_transaction_retry.md R172). -/
def phaseADelay (s : State) : Result :=
  if 1 < s.dly then .next (s.setDly (s.dly - 1)) else .next ((s.setDly 0).setPhase .aBegin)

/-- A_WSCL (R132). -/
def phaseAWscl (s : State) : Result := .next (s.resetWindow.setPhase .wWscl)

/-- W_WSCL (R133). -/
def phaseWWscl (p : BusPins) (s : State) : Result :=
  waitOn .sclLow false Config.tWscl p (fun s => .next (s.setPhase .aWdata))
    (fun s => .next (finishFail .clockStretch 4 s)) s

/-- A_WDATA (R134). -/
def phaseAWdata (s : State) : Result := .next ((s.resetWindow.setIdx 0).setPhase .wWtx)

/-- The success of W_WTX (R135): one data byte out; the buffer has no byte beyond BUF[31] (log 7). -/
def sendDataByte (s : State) : Result :=
  match dataByte s s.idx with
  | some b =>
    let s1 := (s.emit (.writeDr b)).setIdx (s.idx + 1)
    .next (s1.setPhase (if s1.idx < lengthOf s1 then .wWtx else .wWdrain))
  | none => .fault (.seqUndefined s.phase)

/-- W_WTX (R135). -/
def phaseWWtx (p : BusPins) (s : State) : Result :=
  waitOn .txrdy true Config.tData p sendDataByte (fun s => .next (finishFail .data 5 s)) s

/-- W_WDRAIN (R136). -/
def phaseWWdrain (p : BusPins) (s : State) : Result :=
  waitOn .txrdy true Config.tData p (fun s => .next (finishOk (s.emit .genStop)))
    (fun s => .next (finishFail .data 6 s)) s

/-- A_RSCL (R140). -/
def phaseARscl (s : State) : Result := .next (s.resetWindow.setPhase .wRscl)

/-- W_RSCL (R141). -/
def phaseWRscl (p : BusPins) (s : State) : Result :=
  waitOn .sclLow false Config.tData p (fun s => .next (s.setPhase .aRrs))
    (fun s => .next (finishFail .clockStretch 7 s)) s

/-- The actions of a repeated start for reading (R142, R152), with no window reset. -/
def emitRepeatedStart (s : State) : State := ((s.emit .clrTxrdy).emit (.setDir 1)).emit .genStart

/-- A_RRS (R142). -/
def phaseARrs (s : State) : Result := .next ((emitRepeatedStart s).setPhase .wRrx)

/-- W_RRX (R143). -/
def phaseWRrx (p : BusPins) (s : State) : Result :=
  waitOn .rxrdy true Config.tData p (fun s => .next (finishOk (s.receiveByte p.rxdata)))
    (fun s => .next (finishFail .data 8 s)) s

/-- A_BSCL (R150). -/
def phaseABscl (s : State) : Result := .next (s.resetWindow.setPhase .wBscl)

/-- W_BSCL (R151). -/
def phaseWBscl (p : BusPins) (s : State) : Result :=
  waitOn .sclLow false Config.tData p (fun s => .next (s.setPhase .aBrs))
    (fun s => .next (finishFail .clockStretch 9 s)) s

/-- A_BRS (R152). -/
def phaseABrs (s : State) : Result := .next ((emitRepeatedStart s).setPhase .wBrs)

/-- W_BRS (R153): on START_PEND, not on RXRDY (R155). -/
def phaseWBrs (p : BusPins) (s : State) : Result :=
  waitOn .startPend false Config.tData p (fun s => .next ((s.emit .genNackStop).setPhase .wBrx))
    (fun s => .next (finishFail .data 10 s)) s

/-- W_BRX (R154). -/
def phaseWBrx (p : BusPins) (s : State) : Result :=
  waitOn .rxrdy true Config.tData p (fun s => .next (finishOk (s.receiveByte p.rxdata)))
    (fun s => .next (finishFail .data 11 s)) s

/-- One step of SEQ (R120, 42_transaction_retry.md R175). In IDLE it has no step and the turn changes nothing (log 3). -/
def seqStep (p : BusPins) (s : State) : Result :=
  match s.phase with
  | .idle => .next s
  | .aInit => phaseAInit s
  | .aBegin => phaseABegin s
  | .wBusy => phaseWBusy p s
  | .aStart => phaseAStart s
  | .wSb => phaseWSb p s
  | .aRegaddr => phaseARegaddr s
  | .wRa => phaseWRa p s
  | .aDelay => phaseADelay s
  | .aWscl => phaseAWscl s
  | .wWscl => phaseWWscl p s
  | .aWdata => phaseAWdata s
  | .wWtx => phaseWWtx p s
  | .wWdrain => phaseWWdrain p s
  | .aRscl => phaseARscl s
  | .wRscl => phaseWRscl p s
  | .aRrs => phaseARrs s
  | .wRrx => phaseWRrx p s
  | .aBscl => phaseABscl s
  | .wBscl => phaseWBscl p s
  | .aBrs => phaseABrs s
  | .wBrs => phaseWBrs p s
  | .wBrx => phaseWBrx p s

end Sys2Proof.Machine
end

