-- ==== Sys2Proof/Machine/Turns.lean ====
section
/-! DEFINITION. What each agent's turn does (00_scope.md R6): a host access is decoded and executed, SEQ takes its phase step, TIMER
and TB theirs; a reset turn is the port `rst_n`. -/

namespace Sys2Proof.Machine

/-- One HOST step (43_host_access.md R190 to R193): an access of another width than 4 bytes is refused (R192), else the decoded
instruction is executed. -/
def hostStep (a : HostAccess) (s : State) : Result :=
  if a.width = 4 then exec (decode a.word) s else raiseHostFault (hostOff a.word) a.width

/-- One atomic step of the agent whose turn it is (00_scope.md R10). -/
def runTurn (t : Turn) (s : State) : Result :=
  match t with
  | .host a => hostStep a s
  | .seq p => seqStep p s
  | .timer => .next (timerStep s)
  | .tb => .next (tbStep s)
  | .reset => .next (resetState s)

end Sys2Proof.Machine
end

