-- ==== Sys2Proof/Machine/Step.lean ====
section
/-! DEFINITION. One step of the machine: the next turn is taken and run (00_scope.md R6, R10). -/

namespace Sys2Proof.Machine

/-- One step: the agent whose turn it is takes one atomic step. -/
def step (s : State) : Host.Outcome State Fault Refusal :=
  runTurn (takeTurn s).1 (takeTurn s).2

/-- `s` with the instruction of a table word as the host's access of the very next turn (host's fixed name). A word the
decoder refuses is no access, and nothing is placed. -/
def State.withFetchWord (s : State) (nbits w : Nat) : State :=
  match tableHostWord nbits w with
  | some h => { s with turns := .host { word := h, width := 4 } :: s.turns }
  | none => s

end Sys2Proof.Machine
end

