-- ==== Sys2Proof/Machine/HostProgram.lean ====
section
/-! DEFINITION. The host assembler syntax of 30_encoding.md R78 and the pseudo-instructions of R79: what a line and a program of the host
puts on the port, and how a program runs beside the other agents, its loops included. The HOST agent itself is the environment: its choice of the next access comes with its turn (log 2). -/

namespace Sys2Proof.Machine

/-- REG of R78. -/
inductive RegName where
  | cmd
  | status
  | sla
  | rega
  | len
  | tick
  | buf (i : BitVec 5)
  deriving DecidableEq, Repr

/-- OP of R78. -/
inductive Command where
  | init
  | start
  | write
  | readBurst
  | readByte
  deriving DecidableEq, Repr

/-- A line of a host program (R78): `rd REG`, `wr REG, imm`, `cmd OP`. -/
inductive HostLine where
  | rd (r : RegName)
  | wr (r : RegName) (imm : Word)
  | cmd (c : Command)
  deriving DecidableEq, Repr

/-- A line, or the loop `wait_idle` (R79), which `nextLine` and `afterLine` perform as `rd STATUS`, repeated while BUSY reads 1. -/
inductive HostItem where
  | line (l : HostLine)
  | waitIdle
  deriving DecidableEq, Repr

/-- `off(REG)` (R78, 20_memory.md R51). -/
def regOffset : RegName → Byte
  | .cmd => 0x00
  | .status => 0x04
  | .sla => 0x08
  | .rega => 0x0C
  | .len => 0x10
  | .tick => 0x14
  | .buf i => 1#1 ++ i ++ 0#2

/-- `OPC(OP)` (R78, R71). -/
def commandOpc : Command → BitVec 4
  | .init => opcInit
  | .start => opcStart
  | .write => opcWrite
  | .readBurst => opcReadBurst
  | .readByte => opcReadByte

/-- The encoding of a line (R78): the HOP and the data word. -/
def lineWord : HostLine → HostWord
  | .rd r => hopRead (regOffset r)
  | .wr r imm => hopWrite (regOffset r) imm
  | .cmd c => hopWrite (regOffset .cmd) (cmdWord (commandOpc c) 0)

/-- The turn in which the host performs a line. -/
def lineTurn (l : HostLine) : Turn := .host { word := lineWord l, width := 4 }

/-- The bit on which `wait_idle` is repeated (R79): bit 0 (BUSY) of the STATUS value read. -/
def readsBusy (w : Word) : Bool := w.extractLsb' 0 1 == 1#1

/-- What the reads of STATUS in one `wait_idle` return (R79): BUSY = 1 in all but the last, BUSY = 0 in the last. -/
def waitIdleReads : List Word → Bool
  | [] => false
  | [w] => !readsBusy w
  | w :: ws => readsBusy w && waitIdleReads ws

/-- The result Boolean of a `run OP`: bit 2 (OK) of the last STATUS value read (R79). -/
def runResult (lastStatus : Word) : Bool := lastStatus.extractLsb' 2 1 == 1#1

/-! ### How a program runs -/

/-- The line the host performs next: the line that stands first, or the `rd STATUS` of a `wait_idle` (R79). -/
def nextLine : List HostItem → Option HostLine
  | [] => none
  | .line l :: _ => some l
  | .waitIdle :: _ => some (.rd .status)

/-- What is left of a program after its next line, where `v` is the value that was read: `wait_idle` is repeated while BUSY
reads 1 (R79). -/
def afterLine (v : Word) : List HostItem → List HostItem
  | [] => []
  | .line _ :: rest => rest
  | .waitIdle :: rest => if readsBusy v then .waitIdle :: rest else rest

/-- A host program on its way: what is left of it, the machine, and the results of its reads, which the program names (R78). -/
structure HostRun where
  todo  : List HostItem
  state : State
  reads : List (RegName × Word)
  deriving DecidableEq, Repr

/-- The result of a line, where it is a read. -/
def lineResult (l : HostLine) (s : State) : List (RegName × Word) :=
  match l with
  | .rd r => [(r, s.hRdata)]
  | .wr _ _ | .cmd _ => []

/-- The host performs the next line of its program; a program at its end does nothing. -/
def hostLineStep (h : HostRun) : Host.Outcome HostRun Fault Refusal :=
  match nextLine h.todo with
  | none => .next h
  | some l =>
    match runTurn (lineTurn l) h.state with
    | .next t => .next { todo := afterLine t.hRdata h.todo, state := t, reads := h.reads ++ lineResult l t }
    | .fault r => .fault r
    | .refused r => .refused r

/-- One step of a host program beside the other agents: `none` is the host's next line, `some x` a turn of another agent
(00_scope.md R6). -/
def programStep (x : Option Turn) (h : HostRun) : Host.Outcome HostRun Fault Refusal :=
  match x with
  | none => hostLineStep h
  | some t =>
    match runTurn t h.state with
    | .next s => .next { h with state := s }
    | .fault r => .fault r
    | .refused r => .refused r

/-- A host program run beside the other agents, in the order the schedule gives. -/
def runProgram : List (Option Turn) → HostRun → Host.Outcome HostRun Fault Refusal
  | [], h => .next h
  | x :: xs, h =>
    match programStep x h with
    | .next h' => runProgram xs h'
    | .fault r => .fault r
    | .refused r => .refused r

/-- The last STATUS value a program read. -/
def lastStatus (h : HostRun) : Option Word := ((h.reads.filter (·.1 == .status)).getLast?).map (·.2)

/-- The result Boolean after a `run OP` (R79), where the program has read STATUS. -/
def programResult (h : HostRun) : Option Bool := (lastStatus h).map runResult

/-! ### The pseudo-instructions -/

/-- `wait_idle` (R79): the loop, performed by `nextLine` and `afterLine`. -/
def asmWaitIdle : List HostItem := [.waitIdle]
/-- `reset_elapsed` (R79) -/
def asmResetElapsed : List HostItem := [.line (.wr .tick 0)]
/-- `set_elapsed v` (R79) -/
def asmSetElapsed (v : Word) : List HostItem := [.line (.wr .tick v)]
/-- `get_elapsed` (R79) -/
def asmGetElapsed : List HostItem := [.line (.rd .tick)]
/-- `run OP` (R79) -/
def asmRun (c : Command) : List HostItem := .line (.cmd c) :: asmWaitIdle
/-- `init` (R79) -/
def asmInit : List HostItem := asmRun .init
/-- the descriptor writes `wr SLA, a` and `wr REGA, r` with which every transaction begins (R79) -/
def asmAddress (a r : Byte) : List HostItem :=
  [.line (.wr .sla (readField a)), .line (.wr .rega (readField r))]
/-- `start_transaction a, r` (R79) -/
def asmStartTransaction (a r : Byte) : List HostItem := asmAddress a r ++ asmRun .start
/-- `write_bytes a, r, bytes` (R79), for at most 32 bytes -/
def asmWriteBytes (a r : Byte) (bytes : List Byte) : List HostItem :=
  asmAddress a r ++ [.line (.wr .len (BitVec.ofNat 32 bytes.length))] ++
    bytes.zipIdx.map (fun b => .line (.wr (.buf (BitVec.ofNat 5 b.2)) (readField b.1))) ++ asmRun .write
/-- `read_bytes a, r` (R79) -/
def asmReadBytes (a r : Byte) : List HostItem := asmAddress a r ++ asmRun .readBurst ++ [.line (.rd (.buf 0))]
/-- `read_byte a, r` (R79) -/
def asmReadByte (a r : Byte) : List HostItem := asmAddress a r ++ asmRun .readByte ++ [.line (.rd (.buf 0))]

end Sys2Proof.Machine
end

