-- ==== Sys2Proof/Safety.lean ====
section
/-! DEFINITION. The terms the claims are stated in: finite and infinite runs and the scheduling assumptions of the spec
(40_timebase.md R109, R110), the table of wait sites (60_exceptions.md R231), the invariant that every step keeps, the measure
that ends every command (42_transaction_retry.md R176), and what a host operation may write. -/

namespace Sys2Proof.Machine

/-! ### Runs -/

/-- The given turns taken one after another, stopping at the first fault or refusal. -/
def runTurns : List Turn → State → Result
  | [], s => .next s
  | t :: ts, s =>
    match runTurn t s with
    | .next s' => runTurns ts s'
    | .fault r => .fault r
    | .refused r => .refused r

/-- `n` steps of the machine, stopping at the first fault or refusal. -/
def runSteps : Nat → State → Result
  | 0, s => .next s
  | n + 1, s =>
    match step s with
    | .next s' => runSteps n s'
    | .fault r => .fault r
    | .refused r => .refused r

/-- The given turns taken one after another for as long as a command runs (BUSY = 1). -/
def runWhileBusy : List Turn → State → Result
  | [], s => .next s
  | t :: ts, s =>
    if s.status.busy then
      match runTurn t s with
      | .next s' => runWhileBusy ts s'
      | .fault r => .fault r
      | .refused r => .refused r
    else .next s

/-- `n` turns of SEQ with the same pins. -/
def seqTurns (n : Nat) (p : BusPins) : List Turn := List.replicate n (.seq p)

/-- An infinite execution: the states it goes through and the turns taken, none of which stops the machine. -/
def IsRun (σ : Nat → State) (τ : Nat → Turn) : Prop :=
  ∀ n, runTurn (τ n) (σ n) = .next (σ (n + 1))

/-- TIMER steps infinitely often (40_timebase.md R110). -/
def TimerKeepsFiring (τ : Nat → Turn) : Prop := ∀ n, ∃ m, n ≤ m ∧ τ m = .timer

/-- TB steps whenever `tick_pend` = 1 within finitely many steps (40_timebase.md R110). -/
def TbFair (σ : Nat → State) (τ : Nat → Turn) : Prop :=
  ∀ n, (σ n).tickPend = true → ∃ m, n ≤ m ∧ τ m = .tb

/-- SEQ steps whenever `st.phase` is not IDLE (40_timebase.md R110, weak fairness). -/
def SeqFair (σ : Nat → State) (τ : Nat → Turn) : Prop :=
  ∀ n, (σ n).phase ≠ .idle → ∃ m, n ≤ m ∧ ∃ p, τ m = .seq p

/-! ### The wait sites -/

/-- One row of the table of 60_exceptions.md R231. -/
structure SiteRow where
  site   : BitVec 4
  flag   : Flag
  value  : Bool
  budget : Nat
  kind   : FailKind
  deriving DecidableEq, Repr

/-- The table of wait sites (60_exceptions.md R231), by phase; an action phase and IDLE have no row. -/
def siteRow : Phase → Option SiteRow
  | .wBusy => some ⟨1, .bbusy, false, 50, .busBusy⟩
  | .wSb => some ⟨2, .txrdy, true, 50, .startCondition⟩
  | .wRa => some ⟨3, .txrdy, true, 50, .addressAck⟩
  | .wWscl => some ⟨4, .sclLow, false, 10, .clockStretch⟩
  | .wWtx => some ⟨5, .txrdy, true, 100, .data⟩
  | .wWdrain => some ⟨6, .txrdy, true, 100, .data⟩
  | .wRscl => some ⟨7, .sclLow, false, 100, .clockStretch⟩
  | .wRrx => some ⟨8, .rxrdy, true, 100, .data⟩
  | .wBscl => some ⟨9, .sclLow, false, 100, .clockStretch⟩
  | .wBrs => some ⟨10, .startPend, false, 100, .data⟩
  | .wBrx => some ⟨11, .rxrdy, true, 100, .data⟩
  | .idle | .aInit | .aBegin | .aStart | .aRegaddr | .aDelay | .aWscl | .aWdata | .aRscl | .aRrs | .aBscl | .aBrs => none

/-- The failure kind that belongs to a site number (60_exceptions.md R230, R231). -/
def kindOfSite (site : BitVec 4) : Option (BitVec 3) :=
  if site = 1 then some 1
  else if site = 2 then some 2
  else if site = 3 then some 3
  else if site = 4 ∨ site = 7 ∨ site = 9 then some 4
  else if site = 5 ∨ site = 6 ∨ site = 8 ∨ site = 10 ∨ site = 11 then some 5
  else none

/-- What SEQ does in a wait whose predicate it samples true (41_bus_controller.md R122, R126, R128, R130, R133, R135, R136, R141,
R143, R151, R153, R154): the state after the step, where the spec gives one. -/
def waitSuccess (p : BusPins) (s : State) : Option State :=
  let finished : Status := { s.status with ok := true, failkind := 0, failsite := 0, done := true, busy := false }
  match s.phase with
  | .wBusy => some { s with hist := s.hist ++ [.sample .bbusy false], phase := .aStart }
  | .wSb => some { s with hist := s.hist ++ [.sample .txrdy true], phase := .aRegaddr }
  | .wRa =>
    let t : State := { s with hist := s.hist ++ [.sample .txrdy true] }
    if s.opc = 0x2 then some { t with status := finished, phase := .idle }
    else if s.opc = 0x3 then some { t with phase := .aWscl }
    else if s.opc = 0x4 then some { t with phase := .aRscl }
    else if s.opc = 0x5 then some { t with phase := .aBscl }
    else none
  | .wWscl => some { s with hist := s.hist ++ [.sample .sclLow false], phase := .aWdata }
  | .wWtx =>
    (s.buf[s.idx]?).map fun b => { s with
      hist := s.hist ++ [.sample .txrdy true, .act (.writeDr b)], idx := s.idx + 1
      phase := if s.idx + 1 < s.len.toNat then .wWtx else .wWdrain }
  | .wWdrain =>
    some { s with
      hist := s.hist ++ [.sample .txrdy true, .act .genStop], status := finished, phase := .idle }
  | .wRscl => some { s with hist := s.hist ++ [.sample .sclLow false], phase := .aRrs }
  | .wBscl => some { s with hist := s.hist ++ [.sample .sclLow false], phase := .aBrs }
  | .wBrs => some { s with hist := s.hist ++ [.sample .startPend false, .act .genNackStop], phase := .wBrx }
  | .wRrx | .wBrx =>
    some { s with
      hist := s.hist ++ [.sample .rxrdy true, .act (.readDr p.rxdata)], buf := s.buf.set 0 p.rxdata
      status := finished, phase := .idle }
  | .idle | .aInit | .aBegin | .aStart | .aRegaddr | .aDelay | .aWscl | .aWdata | .aRscl | .aRrs | .aBscl | .aBrs => none

/-! ### Ticks against polls -/

/-- SEQ waits: it stands in a phase of kind wait (10_state.md R32). -/
def waits (ph : Phase) : Bool := (siteRow ph).isSome

/-- POLL_FASTER_THAN_TICK (40_timebase.md R109): in every interval between two TB steps that count a tick, throughout which SEQ
waits, SEQ takes a step. Nothing is asked in IDLE, in a delay, or in any other phase that is no wait. -/
def PollFasterThanTick (σ : Nat → State) (τ : Nat → Turn) : Prop :=
  ∀ m n, m < n → tickAck (τ m) (σ m) = true → tickAck (τ n) (σ n) = true →
    (∀ k, m < k → k ≤ n → waits (σ k).phase = true) → ∃ k, m < k ∧ k < n ∧ ∃ p, τ k = .seq p

/-- What 40_timebase.md R108 says of the waits: while SEQ waits no tick takes the counter from TICK_MAX to 0. -/
def NoWaitSeesAWrap (σ : Nat → State) (τ : Nat → Turn) : Prop :=
  ∀ n, tickAck (τ n) (σ n) = true → waits (σ n).phase = true → (σ n).tick.toNat ≠ 65535

/-- The one way in which a command can fail to end under R110: from some point on SEQ stands in one wait, every poll finds the
predicate false and TICK below the budget, and ticks counted in that wait wrap TICK from TICK_MAX to 0 again and again,
which 40_timebase.md R108 says no window sees (log 8). -/
def WrapsForEver (σ : Nat → State) (τ : Nat → Turn) : Prop :=
  ∃ (n : Nat) (r : SiteRow), siteRow (σ n).phase = some r ∧
    ∀ m, n ≤ m → (σ m).phase = (σ n).phase ∧
      (∀ p, τ m = .seq p → pinOf p r.flag ≠ r.value ∧ (σ m).tick.toNat < r.budget) ∧
      ∃ k, m ≤ k ∧ tickAck (τ k) (σ k) = true ∧ (σ k).tick.toNat = 65535

/-- A turn of SEQ. -/
def isSeq : Turn → Bool
  | .seq _ => true
  | .host _ | .timer | .tb | .reset => false

/-- The turns that are taken while a command runs (BUSY = 1), each with the state it is taken in. -/
def trail : List Turn → State → List (Turn × State)
  | [], _ => []
  | x :: xs, s =>
    if s.status.busy then
      match runTurn x s with
      | .next t => (x, s) :: trail xs t
      | .fault _ | .refused _ => [(x, s)]
    else []

/-- The polling assumption along a trail: in the phases named, no tick is counted that has had no SEQ step since the one before
(`polledSince` says whether there was one). -/
def polled (phases : Phase → Bool) : Bool → List (Turn × State) → Bool
  | _, [] => true
  | polledSince, (x, s) :: rest =>
    (!(tickAck x s && phases s.phase) || polledSince) &&
      polled phases (if tickAck x s then false else polledSince || isSeq x) rest

/-- The phases in which a window is open and a wait of it is still to end (60_exceptions.md R231 "window begun at"): the waits, and
the repeated starts that share the window of the clock settle (41_bus_controller.md R142, R152). -/
def inWindow (ph : Phase) : Bool := waits ph || ph == .aRrs || ph == .aBrs

/-- The budget of the window that is open in a phase (60_exceptions.md R231). -/
def windowBudget (ph : Phase) : Nat :=
  match siteRow ph with
  | some r => r.budget
  | none => 100

/-- The phases in which SEQ steps between two ticks where 42_transaction_retry.md R177 counts the gaps as well: any phase of a
running command but the READ_BYTE delay ("at most one TB step falls in each gap ... any number may fall in a READ_BYTE
delay"). -/
def outsideDelay (ph : Phase) : Bool := ph != .idle && ph != .aDelay

/-- The ticks counted inside the windows of the command that runs (42_transaction_retry.md R177). -/
def windowTicks (tr : List (Turn × State)) : Nat :=
  tr.countP fun y => tickAck y.1 y.2 && inWindow y.2.phase

/-- Every SEQ step that leaves its window open is taken before the window's budget (log 15). -/
def windowsKept (tr : List (Turn × State)) : Bool :=
  tr.all fun y => match runTurn y.1 y.2 with
    | .next t => !(isSeq y.1 && inWindow y.2.phase && inWindow t.phase) || decide (y.2.tick.toNat < windowBudget y.2.phase)
    | .fault _ | .refused _ => true

/-- The sums of 42_transaction_retry.md R177: the ticks inside the windows of one command. -/
def windowTickSum (opc : BitVec 4) : Nat :=
  if opc = opcStart then 150
  else if opc = opcWrite then 5 * 150 + 10 + 100
  else if opc = opcReadBurst then 5 * 150 + 100
  else if opc = opcReadByte then 5 * 150 + 100
  else 0

/-- How far a command can pass its sum when it goes on in a shared window at or after the budget, the predicate being tested
first (40_timebase.md R107): one tick for each step that leaves the window open there (log 15). -/
def windowOverrun (opc : BitVec 4) (len : Nat) : Nat :=
  if opc = opcWrite then len else if opc = opcReadBurst then 2 else if opc = opcReadByte then 3 else 0

/-! ### The invariant -/

/-- Which opcodes run through a phase (10_state.md R32, 60_exceptions.md R231 "command(s)"); IDLE is left to any. -/
def phaseOfCommand (opc : BitVec 4) : Phase → Bool
  | .idle => opc ≤ opcReadByte
  | .aInit => opc == opcInit
  | .aBegin | .wBusy | .aStart | .wSb | .aRegaddr | .wRa => opcStart ≤ opc && opc ≤ opcReadByte
  | .aDelay => opc == opcReadByte
  | .aWscl | .wWscl | .aWdata | .wWtx | .wWdrain => opc == opcWrite
  | .aRscl | .wRscl | .aRrs | .wRrx => opc == opcReadBurst
  | .aBscl | .wBscl | .aBrs | .wBrs | .wBrx => opc == opcReadByte

/-- The counts of start attempts that can stand in a phase (42_transaction_retry.md R170, R171). -/
def attemptsOfPhase (opc : BitVec 4) (attempts : Nat) : Phase → Bool
  | .idle => attempts ≤ 5
  | .aInit => attempts == 0
  | .aBegin => if opc = opcStart then attempts == 0 else attempts < 5
  | .aDelay => decide (1 ≤ attempts) && decide (attempts < 5)
  | _ => decide (1 ≤ attempts) && decide (attempts ≤ 5) && (opc != opcStart || attempts == 1)

/-- The result fields of STATUS (10_state.md R23, 60_exceptions.md R230, R231): all clear until a command has finished;
then success with no failure, or a failure whose kind is the kind of its site. -/
def resultFits (st : Status) : Bool :=
  if st.done then
    if st.ok then st.failkind == 0 && st.failsite == 0
    else kindOfSite st.failsite == some st.failkind
  else !st.ok && st.failkind == 0 && st.failsite == 0

/-- The invariant of the machine: BUSY names the phase (10_state.md R23), the phase belongs to the command and its count of
attempts, the descriptor of a running WRITE is legal (20_memory.md R65, 43_host_access.md R196), the hidden counters stay in
their ranges (10_state.md R29), and the codes the spec says are never written are never there (60_exceptions.md R230, R231,
93_implementation_defined.md 17). -/
structure Inv (s : State) : Prop where
  busyNamesPhase : s.status.busy = true ↔ s.phase ≠ .idle
  phaseFits : phaseOfCommand s.opc s.phase = true
  attemptsFit : attemptsOfPhase s.opc s.status.attempts.toNat s.phase = true
  notDoneWhileBusy : s.status.busy = true → s.status.done = false
  resultFits : resultFits s.status = true
  rejectionFits : s.status.cmderr = true ↔ s.status.cerr ≠ 0
  lengthFits : s.status.busy = true → s.opc = opcWrite → 1 ≤ lengthOf s ∧ lengthOf s ≤ 32
  indexInRange : s.idx ≤ 32
  indexBelowLength : s.phase = .wWtx → s.idx < lengthOf s
  indexAtLength : s.phase = .wWdrain → s.idx = lengthOf s
  delayRuns : s.phase = .aDelay → 1 ≤ s.dly ∧ s.dly ≤ Config.retryDelay
  delayRests : s.phase ≠ .aDelay → s.dly = 0

/-! ### The measure of a running command -/

/-- How far a command is from its end: every SEQ step that is not a spin lowers it, and it is 0 in IDLE alone
(42_transaction_retry.md R176: one step for an action phase, at most 5 attempts, RETRY_DELAY steps for a delay, at most 32 data bytes). -/
def rank (s : State) : Nat :=
  let attempt := 38 + (5 - s.status.attempts.toNat) * (Config.retryDelay + 6)
  match s.phase with
  | .idle => 0
  | .aInit => 1
  | .aBegin => attempt
  | .wBusy => attempt + Config.retryDelay + 5
  | .aStart => attempt + Config.retryDelay + 4
  | .wSb => attempt + Config.retryDelay + 3
  | .aRegaddr => attempt + Config.retryDelay + 2
  | .wRa => attempt + Config.retryDelay + 1
  | .aDelay => attempt + s.dly
  | .aWscl => 37
  | .wWscl => 36
  | .aWdata => 35
  | .wWtx => 2 + (32 - s.idx)
  | .wWdrain => 1
  | .aRscl => 4
  | .wRscl => 3
  | .aRrs => 2
  | .wRrx => 1
  | .aBscl => 5
  | .wBscl => 4
  | .aBrs => 3
  | .wBrs => 2
  | .wBrx => 1

/-- A round of the regular schedule: the timer fires, TB counts, SEQ polls. -/
def pollRound (p : BusPins) : List Turn := [.timer, .tb, .seq p]

/-- Rounds of the regular schedule, one for each set of pins. -/
def pollRounds (ps : List BusPins) : List Turn := ps.flatMap pollRound

/-! ### What a host operation may write -/

/-- The word offsets of the registers a host operation may change (30_encoding.md R72): a write to CMD also writes STATUS. -/
def mayWrite : Instr → List Byte
  | .init _ | .start _ | .write _ | .readBurst _ | .readByte _ | .wrCmd _ => [0x00, 0x04]
  | .cmdRsvd0 _ | .cmdRsvd67 _ _ | .cmdRsvd8F _ _ => [0x04]
  | .wrSla _ => [0x08]
  | .wrRega _ => [0x0C]
  | .wrLen _ => [0x10]
  | .wrTick _ => [0x14]
  | .wrBuf i _ => [1#1 ++ i ++ 0#2]
  | .rdCmd | .rdStatus | .wrStatus _ | .rdSla | .rdRega | .rdLen | .rdTick | .rdBuf _ => []
  | .rdRsvd18 _ | .rdRsvd20 _ | .rdRsvd40 _ | .wrRsvd18 _ _ | .wrRsvd20 _ _ | .wrRsvd40 _ _ => []
  | .hostfaultOffOdd _ _ | .hostfaultOff2 _ _ => []

/-- The offset of a register read, for the reads of the HOP map. -/
def readOffset : Instr → Option Byte
  | .rdCmd => some 0x00
  | .rdStatus => some 0x04
  | .rdSla => some 0x08
  | .rdRega => some 0x0C
  | .rdLen => some 0x10
  | .rdTick => some 0x14
  | .rdBuf i => some (1#1 ++ i ++ 0#2)
  | .rdRsvd18 off | .rdRsvd20 off | .rdRsvd40 off => some off
  | .init _ | .start _ | .write _ | .readBurst _ | .readByte _ | .cmdRsvd0 _ | .cmdRsvd67 _ _ | .cmdRsvd8F _ _
  | .wrCmd _ | .wrStatus _ | .wrSla _ | .wrRega _ | .wrLen _ | .wrTick _ | .wrBuf _ _
  | .wrRsvd18 _ _ | .wrRsvd20 _ _ | .wrRsvd40 _ _ | .hostfaultOffOdd _ _ | .hostfaultOff2 _ _ => none

/-! ### The bus of a command in which nothing waits -/

/-- The ready bus of 95_test_vectors.md: every flag lets its wait pass. -/
def readyBus (rx : Byte) : BusPins :=
  { bbusy := false, txrdy := true, rxrdy := true, sclLow := false, startPend := false, rxdata := rx }

/-- The history of one start attempt on the ready bus (41_bus_controller.md R124). -/
def startHistory (a : BitVec 7) (r : Byte) : List BusEvent :=
  [.sample .bbusy false, .act .clrTxrdy, .act (.setSla a), .act (.setDir 0), .act .genStart, .sample .txrdy true,
   .act (.writeDr r), .sample .txrdy true]

/-- The actions of a start attempt that reaches W_RA (95_test_vectors.md, conventions; 41_bus_controller.md R127, R129). -/
def startActions (a : BitVec 7) (r : Byte) : List BusAction :=
  [.clrTxrdy, .setSla a, .setDir 0, .genStart, .writeDr r]

/-- The history of the repeated start for reading, after the clock has settled (41_bus_controller.md R139, R149). -/
def repeatedStartHistory : List BusEvent :=
  [.sample .sclLow false, .act .clrTxrdy, .act (.setDir 1), .act .genStart]

/-- The history of sending data bytes on the ready bus, in order (41_bus_controller.md R138). -/
def dataHistory (bytes : List Byte) : List BusEvent :=
  bytes.flatMap fun b => [.sample .txrdy true, .act (.writeDr b)]

/-- STATUS of a finished command with one attempt made and no failure. -/
def Status.succeededOnFirstAttempt (st : Status) : Status :=
  { st with busy := false, done := true, ok := true, cmderr := false, cerr := 0, failkind := 0, failsite := 0,
            attempts := 1 }

end Sys2Proof.Machine
end

