-- ==== Sys2Proof/Certificates/Slice0/Obligations.lean ====
section
/-! DEFINITION. The statements for the provers, in the order of OBLIGATIONS.json. -/

open Sys2Proof Sys2Proof.Machine

/-! ### Reset -/

/-- R37: after reset every piece of state has the value of the reset table. -/
def Obligations.ResetLeavesStatedValues : Prop :=
  State.reset.opc = 0x0#4 ∧ State.reset.status.word = 0x00000000#32 ∧
  State.reset.status = ⟨false, false, false, false, false, 0, 0, 0, 0⟩ ∧
  State.reset.sla = 0x00#7 ∧ State.reset.rega = 0x00#8 ∧ State.reset.len = 0x00#8 ∧ State.reset.tick = 0x0000#16 ∧
  (∀ i : Fin 32, State.reset.buf[i] = 0x00#8) ∧
  State.reset.phase = .idle ∧ State.reset.idx = 0 ∧ State.reset.dly = 0 ∧ State.reset.tickPend = false ∧
  State.reset.hist = []

/-- R260, R262: a reset turn puts every piece of state at its reset value, whatever runs, and emits nothing: the history
starts empty. The turns to come are the environment's (log 2), and the word on h_rdata after a reset is the model's
choice (log 1); the statement says nothing about either. -/
def Obligations.ResetTurnRestoresReset : Prop :=
  ∀ s : State, ∃ t, runTurn .reset s = .next t ∧
    t.opc = 0 ∧ t.status = ⟨false, false, false, false, false, 0, 0, 0, 0⟩ ∧ t.sla = 0 ∧ t.rega = 0 ∧ t.len = 0 ∧
    t.tick = 0 ∧ (∀ i : Fin 32, t.buf[i] = 0) ∧ t.phase = .idle ∧ t.idx = 0 ∧ t.dly = 0 ∧ t.tickPend = false ∧ t.hist = []

/-- R261 and vector V-X2: after reset no command runs and SEQ has no step; the tick input is never masked, so TB counts from
the first tick. That a turn of SEQ leaves the state then is the MODEL's choice (log 3). -/
def Obligations.AfterResetNothingRunsAndTicksCount : Prop :=
  State.reset.status.busy = false ∧ State.reset.status.done = false ∧
  (∀ p, runTurn (.seq p) State.reset = .next State.reset) ∧
  runTurns [.timer, .tb] State.reset = .next { State.reset with tick := 1 }

/-! ### Decoding -/

/-- Decoding the encoding of a well-formed instruction gives it back, as an encoded form and as bytes (the byte layout is
the model's, log 4). -/
def Obligations.DecodeEncodeAgree : Prop :=
  ∀ i : Instr, WellFormed i = true →
    decode (encode i) = i ∧
    ∀ rest : List Byte, decodeBytes (encode i).form ((encode i).bytes ++ rest) = .ok (i, rest)

/-- Encoding what was decoded gives the encoded form back: every bit of a CMD word and of a write; of a read the HOP (its data
word means nothing). -/
def Obligations.EncodeDecodeAgree : Prop :=
  (∀ w : Word, encode (decode (.cmd w)) = .cmd w) ∧
  (∀ (off : Byte) (w : Word), encode (decode (.hop (1#1 ++ off) w)) = .hop (1#1 ++ off) w) ∧
  (∀ (off : Byte) (w : Word), encode (decode (.hop (0#1 ++ off) w)) = .hop (0#1 ++ off) 0)

/-- Every encoded form decodes to a well-formed instruction whose opcode-table row it matches. -/
def Obligations.DecodedMatchesItsRow : Prop :=
  ∀ h : HostWord, WellFormed (decode h) = true ∧ h.key &&& (opcodeRow (decode h)).1 = (opcodeRow (decode h)).2

/-- Words written out from R70 to R72 decode to the operations they stand for. -/
def Obligations.SpecWordsDecode : Prop :=
  decode (.cmd 0x00000001#32) = .init 0 ∧
  decode (.cmd 0xFFFFFFF2#32) = .start 0xFFFFFFF#28 ∧
  decode (.hop 0b000000100#9 0#32) = .rdStatus ∧
  decode (.hop 0b100001000#9 0x00000068#32) = .wrSla 0x00000068#32 ∧
  decode (.hop 0b100010100#9 0x00012345#32) = .wrTick 0x00012345#32 ∧
  decode (.hop 0b110001100#9 0x0000ABCD#32) = .wrBuf 3 0x0000ABCD#32 ∧
  decode (.hop 0b001000000#9 0#32) = .rdRsvd40 0x40#8 ∧
  decode (.hop 0b000000110#9 0#32) = .hostfaultOff2 none 0x06#8

/-! ### The step -/

/-- A host access of 4 bytes runs the instruction its word decodes to. That step takes the first of the turns State lists and
leaves the rest is the MODEL's choice of a schedule (log 2); that a HOST step is one register access is R190, R191. -/
def Obligations.HostTurnRunsDecodedInstr : Prop :=
  ∀ (s : State) (h : HostWord) (ts : List Turn),
    s.turns = .host ⟨h, 4⟩ :: ts → step s = exec (decode h) { s with turns := ts }

/-- The word placed for the next turn is the instruction the next step runs (how a program comes to run is the
MODEL's choice, log 2). -/
def Obligations.FetchWordIsNextInstr : Prop :=
  ∀ (s : State) (nbits w : Nat) (i : Instr),
    decodeTableWord nbits w = some i → step (s.withFetchWord nbits w) = exec i s

/-- Steps over a list of turns are those turns taken in order by their agents, and leave the turns after them (the
listed turns are the MODEL's choice of a schedule, log 2). -/
def Obligations.StepsFollowListedTurns : Prop :=
  ∀ (ts rest : List Turn) (s : State),
    runSteps ts.length { s with turns := ts ++ rest } = runTurns ts { s with turns := rest }

/-- R192: an access of another width than 4 bytes, or at an offset with off[1:0] not 00, is refused with HostFault; every
other access completes (R193). -/
def Obligations.HostStepFaultsExactlyWhenUndefined : Prop :=
  ∀ (a : HostAccess) (s : State),
    (a.width ≠ 4 ∨ (hostOff a.word).extractLsb' 0 2 ≠ 0#2 →
      runTurn (.host a) s = .fault (.hostFault (hostOff a.word) a.width)) ∧
    (a.width = 4 → (hostOff a.word).extractLsb' 0 2 = 0#2 → ∃ t, runTurn (.host a) s = .next t)

/-- R192: the two refused rows stop with HostFault(Unsupported(off, 4)) in every state, read or write. -/
def Obligations.RefusedRowsFault : Prop :=
  ∀ (s : State) (data : Option Word) (off : Byte),
    exec (.hostfaultOffOdd data off) s = .fault (.hostFault off 4) ∧
    exec (.hostfaultOff2 data off) s = .fault (.hostFault off 4)

/-! ### Register access -/

/-- R200: RD_CMD returns the opcode of the last accepted command: CMD.OPC, which an accepted write to CMD sets, a rejected one
keeps, no other turn but reset changes, and reset clears. -/
def Obligations.CmdReadsBackOpcode : Prop :=
  (∀ w, decode (.hop 0x000#9 w) = .rdCmd) ∧
  (∀ s : State, exec .rdCmd s = .next { s with hRdata := s.opc.setWidth 32 }) ∧
  (∀ (s t : State) (w : Word), exec (.wrCmd w) s = .next t →
    (t.status.cmderr = false → t.opc = w.extractLsb' 0 4) ∧ (t.status.cmderr = true → t.opc = s.opc)) ∧
  (∀ (s t : State) (x : Turn), runTurn x s = .next t → x ≠ .reset →
    (∀ a, x = .host a → 0x00 ∉ mayWrite (decode a.word)) → t.opc = s.opc) ∧
  State.reset.opc = 0

/-- R201, R23: RD_STATUS returns the STATUS word, whose fields stand in their places with zeros between; WR_STATUS has no
effect. -/
def Obligations.StatusReadsItsFields : Prop :=
  (∀ w, decode (.hop 0x004#9 w) = .rdStatus ∧ decode (.hop 0x104#9 w) = .wrStatus w) ∧
  ∀ (s : State) (w : Word),
    exec (.wrStatus w) s = .next s ∧
    ∃ v : Word, exec .rdStatus s = .next { s with hRdata := v } ∧
      v.extractLsb' 0 1 = BitVec.ofBool s.status.busy ∧ v.extractLsb' 1 1 = BitVec.ofBool s.status.done ∧
      v.extractLsb' 2 1 = BitVec.ofBool s.status.ok ∧ v.extractLsb' 3 1 = BitVec.ofBool s.status.cmderr ∧
      v.extractLsb' 4 1 = BitVec.ofBool s.status.init ∧ v.extractLsb' 5 3 = 0 ∧
      v.extractLsb' 8 3 = s.status.failkind ∧ v.extractLsb' 11 1 = 0 ∧
      v.extractLsb' 12 4 = s.status.failsite ∧ v.extractLsb' 16 3 = s.status.attempts ∧ v.extractLsb' 19 1 = 0 ∧
      v.extractLsb' 20 2 = s.status.cerr ∧ v.extractLsb' 22 10 = 0

/-- R202: RD_SLA and WR_SLA. -/
def Obligations.SlaAccess : Prop :=
  (∀ w, decode (.hop 0x008#9 w) = .rdSla ∧ decode (.hop 0x108#9 w) = .wrSla w) ∧
  ∀ (s : State) (w : Word),
    exec .rdSla s = .next { s with hRdata := s.sla.setWidth 32 } ∧
    (s.status.busy = false → exec (.wrSla w) s = .next { s with sla := w.extractLsb' 0 7 }) ∧
    (s.status.busy = true → exec (.wrSla w) s = .next s)

/-- R203: RD_REGA and WR_REGA. -/
def Obligations.RegaAccess : Prop :=
  (∀ w, decode (.hop 0x00C#9 w) = .rdRega ∧ decode (.hop 0x10C#9 w) = .wrRega w) ∧
  ∀ (s : State) (w : Word),
    exec .rdRega s = .next { s with hRdata := s.rega.setWidth 32 } ∧
    (s.status.busy = false → exec (.wrRega w) s = .next { s with rega := w.extractLsb' 0 8 }) ∧
    (s.status.busy = true → exec (.wrRega w) s = .next s)

/-- R204: RD_LEN and WR_LEN; any 8-bit value is stored, and the length 64 makes a following WRITE be rejected. -/
def Obligations.LenAccess : Prop :=
  (∀ w, decode (.hop 0x010#9 w) = .rdLen ∧ decode (.hop 0x110#9 w) = .wrLen w) ∧
  ∀ (s : State) (w : Word),
    exec .rdLen s = .next { s with hRdata := s.len.setWidth 32 } ∧
    (s.status.busy = false → exec (.wrLen w) s = .next { s with len := w.extractLsb' 0 8 }) ∧
    (s.status.busy = true → exec (.wrLen w) s = .next s) ∧
    (s.status.busy = false →
      runTurns [lineTurn (.wr .len 0x40), lineTurn (.cmd .write)] s =
        .next { s with len := 0x40, status := { s.status with cmderr := true, cerr := 3 } })

/-- R103, R104: RD_TICK returns the counter at any time; WR_TICK stores the low 16 bits while idle and has no effect while
BUSY; after a write of 0 and three ticks a read returns 3. -/
def Obligations.TickAccess : Prop :=
  (∀ w, decode (.hop 0x014#9 w) = .rdTick ∧ decode (.hop 0x114#9 w) = .wrTick w) ∧
  ∀ (s : State) (w : Word),
    exec .rdTick s = .next { s with hRdata := s.tick.setWidth 32 } ∧
    (s.status.busy = false → exec (.wrTick w) s = .next { s with tick := w.extractLsb' 0 16 }) ∧
    (s.status.busy = true → exec (.wrTick w) s = .next s) ∧
    (s.status.busy = false →
      runTurns [lineTurn (.wr .tick 0), .timer, .tb, .timer, .tb, .timer, .tb, lineTurn (.rd .tick)] s =
        .next { s with tick := 3, tickPend := false, hRdata := 0x00000003#32 })

/-- R205: RD_BUF and WR_BUF for every i of 0 to 31; SEQ writes BUF[0] itself when a read receives its byte. -/
def Obligations.BufAccess : Prop :=
  (∀ (i : BitVec 5) (w : Word),
    decode (.hop (0x080#9 + 4#9 * i.setWidth 9) w) = .rdBuf i ∧
    decode (.hop (0x180#9 + 4#9 * i.setWidth 9) w) = .wrBuf i w) ∧
  (∀ (s : State) (i : BitVec 5) (w : Word),
    exec (.rdBuf i) s = .next { s with hRdata := (s.buf.get i.toFin).setWidth 32 } ∧
    (s.status.busy = false → exec (.wrBuf i w) s = .next { s with buf := s.buf.set i.toNat (w.extractLsb' 0 8) i.isLt }) ∧
    (s.status.busy = true → exec (.wrBuf i w) s = .next s)) ∧
  ∀ (s : State) (p : BusPins), s.phase = .wRrx ∨ s.phase = .wBrx → p.rxrdy = true →
    ∃ t, runTurn (.seq p) s = .next t ∧ t.buf = s.buf.set 0 p.rxdata

/-- R206, R52: a reserved offset reads as zero and ignores writes, whatever BUSY is. -/
def Obligations.ReservedOffsetsReadZeroWriteIgnored : Prop :=
  (∀ (off : Byte) (w : Word) (s : State), 0x18#8 ≤ off → off ≤ 0x7C#8 → off.extractLsb' 0 2 = 0#2 →
    runTurn (.host ⟨.hop (0#1 ++ off) w, 4⟩) s = .next { s with hRdata := 0 } ∧
    runTurn (.host ⟨.hop (1#1 ++ off) w, 4⟩) s = .next s) ∧
  ∀ (off : Byte) (w : Word) (s : State),
    exec (.rdRsvd18 off) s = .next { s with hRdata := 0 } ∧ exec (.rdRsvd20 off) s = .next { s with hRdata := 0 } ∧
    exec (.rdRsvd40 off) s = .next { s with hRdata := 0 } ∧ exec (.wrRsvd18 off w) s = .next s ∧
    exec (.wrRsvd20 off w) s = .next s ∧ exec (.wrRsvd40 off w) s = .next s

/-- R190, R57: a read at any word-aligned offset returns the register's word there and changes nothing else. -/
def Obligations.ReadsReturnTheWindow : Prop :=
  ∀ (s : State) (off : Byte) (w : Word), off.extractLsb' 0 2 = 0#2 →
    runTurn (.host ⟨.hop (0#1 ++ off) w, 4⟩) s = .next { s with hRdata := windowWord s off }

/-- The frame of every host operation that completes: the registers it does not name read as before, the hidden state
changes only by a write to CMD, and the bus history and the tick request never. Two clauses are about the MODEL's own
fields: that the word read stays until the next read is its choice of log 1, and that a host operation leaves the turns to
come and their counter is its choice of log 2. -/
def Obligations.HostOperationFrame : Prop :=
  ∀ (i : Instr) (s t : State), exec i s = .next t →
    (∀ off : Byte, (off.extractLsb' 2 6 ++ 0#2) ∉ mayWrite i → windowWord t off = windowWord s off) ∧
    (readOffset i = none → t.hRdata = s.hRdata) ∧
    (0x00 ∉ mayWrite i → t.phase = s.phase ∧ t.idx = s.idx ∧ t.dly = s.dly) ∧
    t.hist = s.hist ∧ t.tickPend = s.tickPend ∧ t.turns = s.turns ∧ t.turnNo = s.turnNo

/-- Derived from R195 and, in one clause, from log 1: while BUSY = 1 a host operation that completes changes nothing but the rejection fields of STATUS and the word read,
so a running command keeps its phase, its descriptor and its counter: a write to CMD is rejected with cause 1, every other
write has no effect, and a read reads as ever. Writes to STATUS and reserved offsets have no effect at any time. (That the
word of an earlier read stays where an access reads nothing is the MODEL's choice of log 1.) -/
def Obligations.HostLeavesRunningCommandAlone : Prop :=
  (∀ (i : Instr) (s t : State), s.status.busy = true → exec i s = .next t →
    t = { s with status := { s.status with cmderr := t.status.cmderr, cerr := t.status.cerr }, hRdata := t.hRdata } ∧
    (0x04 ∈ mayWrite i → t.status.cmderr = true ∧ t.status.cerr = 1) ∧
    (0x04 ∉ mayWrite i → t.status = s.status) ∧
    (readOffset i = none → t.hRdata = s.hRdata) ∧
    (WellFormed i = true → ∀ off, readOffset i = some off → t.hRdata = windowWord s off)) ∧
  ∀ (s : State) (off : Byte) (w : Word),
    exec (.wrStatus w) s = .next s ∧ exec (.wrRsvd18 off w) s = .next s ∧ exec (.wrRsvd20 off w) s = .next s ∧
    exec (.wrRsvd40 off w) s = .next s

/-! ### Commands requested -/

/-- R197, R198: WR_CMD tests BUSY, then the opcode, then the length; it rejects with the cause's code, changing CMDERR and CERR
alone, or accepts. -/
def Obligations.WrCmdRejectsOrAccepts : Prop :=
  ∀ (s : State) (w : Word),
    (s.status.busy = true →
      exec (.wrCmd w) s = .next { s with status := { s.status with cmderr := true, cerr := 1 } }) ∧
    (s.status.busy = false → w.extractLsb' 0 4 ∉ [0x1#4, 0x2#4, 0x3#4, 0x4#4, 0x5#4] →
      exec (.wrCmd w) s = .next { s with status := { s.status with cmderr := true, cerr := 2 } }) ∧
    (s.status.busy = false → w.extractLsb' 0 4 = 0x3#4 → ¬(1 ≤ s.len.toNat ∧ s.len.toNat ≤ 32) →
      exec (.wrCmd w) s = .next { s with status := { s.status with cmderr := true, cerr := 3 } }) ∧
    (s.status.busy = false → w.extractLsb' 0 4 ∈ [0x1#4, 0x2#4, 0x3#4, 0x4#4, 0x5#4] →
      (w.extractLsb' 0 4 = 0x3#4 → 1 ≤ s.len.toNat ∧ s.len.toNat ≤ 32) →
      exec (.wrCmd w) s = .next { s with
        opc := w.extractLsb' 0 4
        status := { busy := true, done := false, ok := false, cmderr := false, init := s.status.init,
                    failkind := 0, failsite := 0, attempts := 0, cerr := 0 }
        idx := 0, dly := 0, phase := if w.extractLsb' 0 4 = 0x1#4 then .aInit else .aBegin })

/-- The data word of a write to CMD decodes by the CMD rows (spec/opcode_table.json, row WR_CMD): WR_CMD does what the row of its
word does. -/
def Obligations.WrCmdAgreesWithCmdRows : Prop :=
  ∀ (s : State) (w : Word), exec (.wrCmd w) s = exec (decode (.cmd w)) s

/-- R75: a reserved opcode starts no command and sets CMDERR and CERR = 2, nothing else, while idle; no word with a reserved
opcode traps; `w[31:4]` does not matter to how a word decodes. -/
def Obligations.ReservedOpcodesRejected : Prop :=
  ∀ (s : State) (opc : BitVec 4) (ign : BitVec 28),
    (s.status.busy = false →
      exec (.cmdRsvd0 ign) s = .next { s with status := { s.status with cmderr := true, cerr := 2 } } ∧
      exec (.cmdRsvd67 opc ign) s = .next { s with status := { s.status with cmderr := true, cerr := 2 } } ∧
      exec (.cmdRsvd8F opc ign) s = .next { s with status := { s.status with cmderr := true, cerr := 2 } }) ∧
    decode (.cmd (ign ++ 0x0#4)) = .cmdRsvd0 ign ∧
    (opc = 0x6 ∨ opc = 0x7 → decode (.cmd (ign ++ opc)) = .cmdRsvd67 opc ign) ∧
    (0x8 ≤ opc → decode (.cmd (ign ++ opc)) = .cmdRsvd8F opc ign)

/-- R123, with the acceptance of R197: INIT from idle is accepted, and the one SEQ step it takes emits CFG_BUS, sets INIT and
finishes with success; nothing else changes. -/
def Obligations.InitRuns : Prop :=
  (∀ ign, decode (.cmd (ign ++ 0x1#4)) = .init ign) ∧
  ∀ (s : State) (ign : BitVec 28) (p : BusPins), s.status.busy = false →
    ∃ t, exec (.init ign) s = .next t ∧ t.phase = .aInit ∧ t.status.busy = true ∧ t.opc = 0x1 ∧
      runTurn (.seq p) t = .next { s with
        opc := 0x1
        status := { busy := false, done := true, ok := true, cmderr := false, init := true,
                    failkind := 0, failsite := 0, attempts := 0, cerr := 0 }
        phase := .idle, idx := 0, dly := 0, hist := s.hist ++ [.act .cfgBus] }

/-- START from idle on the ready bus: accepted, one start attempt with its actions in order, success (R124, vector V-S1). -/
def Obligations.StartRunsOnReadyBus : Prop :=
  ∀ (s : State) (ign : BitVec 28) (rx : Byte), s.status.busy = false →
    ∃ t, exec (.start ign) s = .next t ∧ t.phase = .aBegin ∧
      runTurns (seqTurns 6 (readyBus rx)) t = .next { s with
        opc := 0x2, status := s.status.succeededOnFirstAttempt, tick := 0, phase := .idle, idx := 0, dly := 0
        hist := s.hist ++ startHistory s.sla s.rega }

/-- READ_BURST from idle on the ready bus: the start attempt, a repeated start, one byte into BUF[0], no NACK and no stop
(R139, vector V-RB1). -/
def Obligations.ReadBurstRunsOnReadyBus : Prop :=
  ∀ (s : State) (ign : BitVec 28) (rx : Byte), s.status.busy = false →
    ∃ t, exec (.readBurst ign) s = .next t ∧ t.phase = .aBegin ∧
      runTurns (seqTurns 10 (readyBus rx)) t = .next { s with
        opc := 0x4, status := s.status.succeededOnFirstAttempt, tick := 0, phase := .idle, idx := 0, dly := 0
        buf := s.buf.set 0 rx
        hist := s.hist ++ startHistory s.sla s.rega ++ repeatedStartHistory ++
          [.sample .rxrdy true, .act (.readDr rx)] }

/-- READ_BYTE from idle on the ready bus: the start attempt, a repeated start, exactly one NACK with stop, one byte into
BUF[0] and nowhere else (R149, R156, vector V-RY1). -/
def Obligations.ReadByteRunsOnReadyBus : Prop :=
  ∀ (s : State) (ign : BitVec 28) (rx : Byte), s.status.busy = false →
    ∃ t, exec (.readByte ign) s = .next t ∧ t.phase = .aBegin ∧
      runTurns (seqTurns 11 (readyBus rx)) t = .next { s with
        opc := 0x5, status := s.status.succeededOnFirstAttempt, tick := 0, phase := .idle, idx := 0, dly := 0
        buf := s.buf.set 0 rx
        hist := s.hist ++ startHistory s.sla s.rega ++ repeatedStartHistory ++
          [.sample .startPend false, .act .genNackStop, .sample .rxrdy true, .act (.readDr rx)] }

/-- WRITE of n bytes, 1 to 32, from idle on the ready bus: the start attempt, the clock settled, exactly the n bytes of the
buffer in order, then exactly one stop (R138, vectors V-WR1, V-WR2). -/
def Obligations.WriteSendsBufferInOrderThenStops : Prop :=
  ∀ (s : State) (ign : BitVec 28) (rx : Byte), s.status.busy = false → 1 ≤ s.len.toNat → s.len.toNat ≤ 32 →
    ∃ t, exec (.write ign) s = .next t ∧ t.phase = .aBegin ∧
      runTurns (seqTurns (10 + s.len.toNat) (readyBus rx)) t = .next { s with
        opc := 0x3, status := s.status.succeededOnFirstAttempt, tick := 0, phase := .idle, idx := s.len.toNat, dly := 0
        hist := s.hist ++ startHistory s.sla s.rega ++ [.sample .sclLow false] ++
          dataHistory (s.buf.toList.take s.len.toNat) ++ [.sample .txrdy true, .act .genStop] }

/-- R138: a WRITE that ends with success, whatever the bus answers, whatever ticks come and whatever the host does meanwhile, has
sent, after the actions of its successful attempt, exactly its n bytes in order and then exactly one stop, and no other
action; the attempts before it emitted only actions of a start. -/
def Obligations.SuccessfulWriteSendsExactlyItsBytes : Prop :=
  ∀ (ts : List Turn) (s t : State) (ign : BitVec 28), s.status.busy = false → 1 ≤ s.len.toNat → s.len.toNat ≤ 32 →
    (∀ x ∈ ts, x ≠ .reset) →
    ∃ u, exec (.write ign) s = .next u ∧
      (runWhileBusy ts u = .next t → t.status.busy = false → t.status.ok = true →
        ∃ failed, (∀ a ∈ failed, a ∈ startActions s.sla s.rega) ∧
          actionsOf t.hist = actionsOf s.hist ++ failed ++ startActions s.sla s.rega ++
            (s.buf.toList.take s.len.toNat).map .writeDr ++ [.genStop])

/-- R156: a READ_BYTE that ends with success, whatever the bus answers, whatever ticks come and whatever the host does meanwhile,
has emitted exactly one GEN_NACK_STOP and read exactly one byte, which stands in BUF[0]; nothing else but STATUS, TICK
and CMD.OPC (which its acceptance set) has changed among the registers. -/
def Obligations.SuccessfulReadByteReadsExactlyOneByte : Prop :=
  ∀ (ts : List Turn) (s t : State) (ign : BitVec 28), s.status.busy = false → (∀ x ∈ ts, x ≠ .reset) →
    ∃ u, exec (.readByte ign) s = .next u ∧
      (runWhileBusy ts u = .next t → t.status.busy = false → t.status.ok = true →
        (∃ failed v, (∀ a ∈ failed, a ∈ startActions s.sla s.rega) ∧
          actionsOf t.hist = actionsOf s.hist ++ failed ++ startActions s.sla s.rega ++
            [.clrTxrdy, .setDir 1, .genStart, .genNackStop, .readDr v] ∧
          t.buf = s.buf.set 0 v) ∧
        t.sla = s.sla ∧ t.rega = s.rega ∧ t.len = s.len ∧ t.opc = 0x5)

/-! ### TimeBase -/

/-- R101, R102: TIMER raises the request (a second one before TB is lost); TB counts it modulo 65536 and clears it in the same
step, in which tick_ack pulses. -/
def Obligations.TimerAndTbSteps : Prop :=
  ∀ s : State,
    runTurn .timer s = .next { s with tickPend := true } ∧
    (s.tickPend = true → runTurn .timer s = .next s) ∧
    (s.tickPend = true → tickAck .tb s = true ∧
      ∃ t, runTurn .tb s = .next t ∧ t = { s with tick := t.tick, tickPend := false } ∧
        t.tick.toNat = (s.tick.toNat + 1) % 65536)

/-- The source's TimeBase property (vector X1): after n ticks the counter has gone up by n modulo 65536, and nothing else has
changed. -/
def Obligations.TicksAreCounted : Prop :=
  ∀ (n : Nat) (s : State), s.tickPend = false →
    runTurns (List.flatten (List.replicate n [.timer, .tb])) s = .next { s with tick := s.tick + BitVec.ofNat 16 n }

/-- R112: no step of TIMER, TB, RD_TICK or WR_TICK can fault or report an error: each answers a next state with STATUS as it
was. -/
def Obligations.TimeBaseNeverFails : Prop :=
  ∀ (s : State) (w : Word),
    (∃ t, runTurn .timer s = .next t ∧ t.status = s.status) ∧ (∃ t, runTurn .tb s = .next t ∧ t.status = s.status) ∧
    (∃ t, exec .rdTick s = .next t ∧ t.status = s.status) ∧ (∃ t, exec (.wrTick w) s = .next t ∧ t.status = s.status)

/-! ### The sequencer, phase by phase -/

/-- R121: what Finish writes, and that it leaves everything else. -/
def Obligations.FinishWritesTheResult : Prop :=
  ∀ (s : State) (k : FailKind) (site : BitVec 4),
    finishOk s = { s with status := { s.status with ok := true, failkind := 0, failsite := 0, done := true, busy := false }
                          phase := .idle } ∧
    finishFail k site s = { s with
      status := { s.status with ok := false, failkind := failKindCode k, failsite := site, done := true, busy := false }
      phase := .idle }

/-- R125, R127, R129, R132, R134, R140, R142, R150, R152: the action phases. -/
def Obligations.ActionPhases : Prop :=
  ∀ (s : State) (p : BusPins),
    (s.phase = .aBegin → runTurn (.seq p) s = .next { s with
      status := { s.status with attempts := s.status.attempts + 1 }, tick := 0, phase := .wBusy }) ∧
    (s.phase = .aStart → runTurn (.seq p) s = .next { s with
      tick := 0, phase := .wSb
      hist := s.hist ++ [.act .clrTxrdy, .act (.setSla s.sla), .act (.setDir 0), .act .genStart] }) ∧
    (s.phase = .aRegaddr → runTurn (.seq p) s = .next { s with
      tick := 0, phase := .wRa, hist := s.hist ++ [.act (.writeDr s.rega)] }) ∧
    (s.phase = .aWscl → runTurn (.seq p) s = .next { s with tick := 0, phase := .wWscl }) ∧
    (s.phase = .aWdata → runTurn (.seq p) s = .next { s with tick := 0, idx := 0, phase := .wWtx }) ∧
    (s.phase = .aRscl → runTurn (.seq p) s = .next { s with tick := 0, phase := .wRscl }) ∧
    (s.phase = .aRrs → runTurn (.seq p) s = .next { s with
      phase := .wRrx, hist := s.hist ++ [.act .clrTxrdy, .act (.setDir 1), .act .genStart] }) ∧
    (s.phase = .aBscl → runTurn (.seq p) s = .next { s with tick := 0, phase := .wBscl }) ∧
    (s.phase = .aBrs → runTurn (.seq p) s = .next { s with
      phase := .wBrs, hist := s.hist ++ [.act .clrTxrdy, .act (.setDir 1), .act .genStart] })

/-- R126, R128: the waits of the bus-busy check and of the start condition: success, spin, and timeout. -/
def Obligations.BusBusyAndStartWaits : Prop :=
  ∀ (s : State) (p : BusPins),
    (s.phase = .wBusy →
      (p.bbusy = false →
        runTurn (.seq p) s = .next { s with hist := s.hist ++ [.sample .bbusy false], phase := .aStart }) ∧
      (p.bbusy = true → s.tick.toNat < 50 →
        runTurn (.seq p) s = .next { s with hist := s.hist ++ [.sample .bbusy true] }) ∧
      (p.bbusy = true → 50 ≤ s.tick.toNat →
        runTurn (.seq p) s = .next (attemptFail .busBusy 1 { s with hist := s.hist ++ [.sample .bbusy true] }))) ∧
    (s.phase = .wSb →
      (p.txrdy = true →
        runTurn (.seq p) s = .next { s with hist := s.hist ++ [.sample .txrdy true], phase := .aRegaddr }) ∧
      (p.txrdy = false → s.tick.toNat < 50 →
        runTurn (.seq p) s = .next { s with hist := s.hist ++ [.sample .txrdy false] }) ∧
      (p.txrdy = false → 50 ≤ s.tick.toNat →
        runTurn (.seq p) s = .next (attemptFail .startCondition 2 { s with hist := s.hist ++ [.sample .txrdy false] })))

/-- R130, R122: the wait for the register-address byte, and where a finished start attempt goes: START ends with success, the
other commands go on to their data phases. -/
def Obligations.RegisterAddressWait : Prop :=
  ∀ (s : State) (p : BusPins), s.phase = .wRa →
    (p.txrdy = true → s.opc = 0x2 → runTurn (.seq p) s = .next (finishOk { s with hist := s.hist ++ [.sample .txrdy true] })) ∧
    (p.txrdy = true → s.opc = 0x3 →
      runTurn (.seq p) s = .next { s with hist := s.hist ++ [.sample .txrdy true], phase := .aWscl }) ∧
    (p.txrdy = true → s.opc = 0x4 →
      runTurn (.seq p) s = .next { s with hist := s.hist ++ [.sample .txrdy true], phase := .aRscl }) ∧
    (p.txrdy = true → s.opc = 0x5 →
      runTurn (.seq p) s = .next { s with hist := s.hist ++ [.sample .txrdy true], phase := .aBscl }) ∧
    (p.txrdy = false → s.tick.toNat < 50 →
      runTurn (.seq p) s = .next { s with hist := s.hist ++ [.sample .txrdy false] }) ∧
    (p.txrdy = false → 50 ≤ s.tick.toNat →
      runTurn (.seq p) s = .next (attemptFail .addressAck 3 { s with hist := s.hist ++ [.sample .txrdy false] }))

/-- R133, R135, R136: the waits of WRITE: the clock settle (10 ticks), one data byte, the drain with the stop. -/
def Obligations.WriteWaits : Prop :=
  ∀ (s : State) (p : BusPins),
    (s.phase = .wWscl →
      (p.sclLow = false →
        runTurn (.seq p) s = .next { s with hist := s.hist ++ [.sample .sclLow false], phase := .aWdata }) ∧
      (p.sclLow = true → s.tick.toNat < 10 →
        runTurn (.seq p) s = .next { s with hist := s.hist ++ [.sample .sclLow true] }) ∧
      (p.sclLow = true → 10 ≤ s.tick.toNat →
        runTurn (.seq p) s = .next (finishFail .clockStretch 4 { s with hist := s.hist ++ [.sample .sclLow true] }))) ∧
    (s.phase = .wWtx →
      (p.txrdy = true → ∀ b, s.buf[s.idx]? = some b →
        runTurn (.seq p) s = .next { s with
          hist := s.hist ++ [.sample .txrdy true, .act (.writeDr b)], idx := s.idx + 1
          phase := if s.idx + 1 < s.len.toNat then .wWtx else .wWdrain }) ∧
      (p.txrdy = false → s.tick.toNat < 100 →
        runTurn (.seq p) s = .next { s with hist := s.hist ++ [.sample .txrdy false] }) ∧
      (p.txrdy = false → 100 ≤ s.tick.toNat →
        runTurn (.seq p) s = .next (finishFail .data 5 { s with hist := s.hist ++ [.sample .txrdy false] }))) ∧
    (s.phase = .wWdrain →
      (p.txrdy = true →
        runTurn (.seq p) s = .next (finishOk { s with hist := s.hist ++ [.sample .txrdy true, .act .genStop] })) ∧
      (p.txrdy = false → s.tick.toNat < 100 →
        runTurn (.seq p) s = .next { s with hist := s.hist ++ [.sample .txrdy false] }) ∧
      (p.txrdy = false → 100 ≤ s.tick.toNat →
        runTurn (.seq p) s = .next (finishFail .data 6 { s with hist := s.hist ++ [.sample .txrdy false] })))

/-- R141, R143: the waits of READ_BURST: the clock settle, and the received byte, with no NACK and no stop. -/
def Obligations.ReadBurstWaits : Prop :=
  ∀ (s : State) (p : BusPins),
    (s.phase = .wRscl →
      (p.sclLow = false →
        runTurn (.seq p) s = .next { s with hist := s.hist ++ [.sample .sclLow false], phase := .aRrs }) ∧
      (p.sclLow = true → s.tick.toNat < 100 →
        runTurn (.seq p) s = .next { s with hist := s.hist ++ [.sample .sclLow true] }) ∧
      (p.sclLow = true → 100 ≤ s.tick.toNat →
        runTurn (.seq p) s = .next (finishFail .clockStretch 7 { s with hist := s.hist ++ [.sample .sclLow true] }))) ∧
    (s.phase = .wRrx →
      (p.rxrdy = true →
        runTurn (.seq p) s = .next (finishOk { s with
          hist := s.hist ++ [.sample .rxrdy true, .act (.readDr p.rxdata)], buf := s.buf.set 0 p.rxdata })) ∧
      (p.rxrdy = false → s.tick.toNat < 100 →
        runTurn (.seq p) s = .next { s with hist := s.hist ++ [.sample .rxrdy false] }) ∧
      (p.rxrdy = false → 100 ≤ s.tick.toNat →
        runTurn (.seq p) s = .next (finishFail .data 8 { s with hist := s.hist ++ [.sample .rxrdy false] })))

/-- R151, R153, R154: the waits of READ_BYTE: the clock settle, the repeated start cleared (then NACK and stop together), and the
received byte. -/
def Obligations.ReadByteWaits : Prop :=
  ∀ (s : State) (p : BusPins),
    (s.phase = .wBscl →
      (p.sclLow = false →
        runTurn (.seq p) s = .next { s with hist := s.hist ++ [.sample .sclLow false], phase := .aBrs }) ∧
      (p.sclLow = true → s.tick.toNat < 100 →
        runTurn (.seq p) s = .next { s with hist := s.hist ++ [.sample .sclLow true] }) ∧
      (p.sclLow = true → 100 ≤ s.tick.toNat →
        runTurn (.seq p) s = .next (finishFail .clockStretch 9 { s with hist := s.hist ++ [.sample .sclLow true] }))) ∧
    (s.phase = .wBrs →
      (p.startPend = false →
        runTurn (.seq p) s = .next { s with
          hist := s.hist ++ [.sample .startPend false, .act .genNackStop], phase := .wBrx }) ∧
      (p.startPend = true → s.tick.toNat < 100 →
        runTurn (.seq p) s = .next { s with hist := s.hist ++ [.sample .startPend true] }) ∧
      (p.startPend = true → 100 ≤ s.tick.toNat →
        runTurn (.seq p) s = .next (finishFail .data 10 { s with hist := s.hist ++ [.sample .startPend true] }))) ∧
    (s.phase = .wBrx →
      (p.rxrdy = true →
        runTurn (.seq p) s = .next (finishOk { s with
          hist := s.hist ++ [.sample .rxrdy true, .act (.readDr p.rxdata)], buf := s.buf.set 0 p.rxdata })) ∧
      (p.rxrdy = false → s.tick.toNat < 100 →
        runTurn (.seq p) s = .next { s with hist := s.hist ++ [.sample .rxrdy false] }) ∧
      (p.rxrdy = false → 100 ≤ s.tick.toNat →
        runTurn (.seq p) s = .next (finishFail .data 11 { s with hist := s.hist ++ [.sample .rxrdy false] })))

/-- R170: what a failed start attempt leads to. -/
def Obligations.AttemptFailRetriesOrFinishes : Prop :=
  ∀ (s : State) (k : FailKind) (site : BitVec 4),
    (s.opc = 0x2 → attemptFail k site s = finishFail k site s) ∧
    (s.opc ≠ 0x2 → s.status.attempts.toNat < 5 → s.opc = 0x5 →
      attemptFail k site s = { s with dly := Config.retryDelay, phase := .aDelay }) ∧
    (s.opc ≠ 0x2 → s.status.attempts.toNat < 5 → s.opc ≠ 0x5 → attemptFail k site s = { s with phase := .aBegin }) ∧
    (s.opc ≠ 0x2 → 5 ≤ s.status.attempts.toNat → attemptFail k site s = finishFail k site s)

/-- R172: SEQ spends exactly RETRY_DELAY steps in A_DELAY, changing nothing but the count, and then begins the next attempt. -/
def Obligations.DelayTakesItsSteps : Prop :=
  1 ≤ Config.retryDelay ∧
  ∀ (s : State) (p : BusPins), s.phase = .aDelay →
    (∀ n, n < s.dly → runTurns (seqTurns n p) s = .next { s with dly := s.dly - n }) ∧
    (1 ≤ s.dly → runTurns (seqTurns s.dly p) s = .next { s with dly := 0, phase := .aBegin }) ∧
    (s.dly ≤ 1 → runTurn (.seq p) s = .next { s with dly := 0, phase := .aBegin })

/-! ### The sequencer as a whole -/

/-- SEQ has a step exactly when st.phase is not IDLE (R120), and TB exactly when a request is pending (R102). That a turn of an
agent that has no step changes nothing is the MODEL's choice (log 3): in IDLE a turn of SEQ, and with no request a turn of
TB, leaves the state; in every other phase a SEQ step that completes changes it, and so does TB's with a request. -/
def Obligations.AgentsStepExactlyWhenEnabled : Prop :=
  (∀ p s, s.phase = .idle → runTurn (.seq p) s = .next s) ∧
  (∀ (s t : State) (p : BusPins), runTurn (.seq p) s = .next t → s.phase ≠ .idle → t ≠ s) ∧
  (∀ s : State, s.tickPend = false → runTurn .tb s = .next s) ∧
  (∀ s : State, s.tickPend = true → ∃ t, runTurn .tb s = .next t ∧ t ≠ s)

/-- R107, over the table R231: in every wait phase one step samples the flag of its row; the predicate false and TICK below the
budget is a spin, the predicate false and TICK at or above it a failure of that row's kind and site; and the predicate
true takes the success move of the phase (waitSuccess), whatever TICK is. In every state that meets the invariant there is
such a move. -/
def Obligations.WaitSitesFollowTheTable : Prop :=
  ∀ (s : State) (p : BusPins) (r : SiteRow), siteRow s.phase = some r →
    (pinOf p r.flag ≠ r.value → s.tick.toNat < r.budget →
      runTurn (.seq p) s = .next { s with hist := s.hist ++ [.sample r.flag (pinOf p r.flag)] }) ∧
    (pinOf p r.flag ≠ r.value → r.budget ≤ s.tick.toNat →
      runTurn (.seq p) s = .next
        (if r.site ≤ 3 then attemptFail r.kind r.site { s with hist := s.hist ++ [.sample r.flag (pinOf p r.flag)] }
         else finishFail r.kind r.site { s with hist := s.hist ++ [.sample r.flag (pinOf p r.flag)] })) ∧
    (pinOf p r.flag = r.value →
      (∀ t, waitSuccess p s = some t → runTurn (.seq p) s = .next t ∧
        (t.status = s.status ∨ (t.status.done = true ∧ t.status.ok = true)) ∧
        ∃ more, t.hist = s.hist ++ .sample r.flag r.value :: more) ∧
      (Inv s → ∃ t, waitSuccess p s = some t))

/-- R237, R137: the step in which a command fails is a wait at its budget with the predicate false; it records the kind and the
site, adds that one sample and emits nothing, and leaves TICK, BUF, SLA, REGA, LEN, CMD and the count of attempts. -/
def Obligations.FailuresArePrecise : Prop :=
  ∀ (s t : State) (p : BusPins), runTurn (.seq p) s = .next t →
    s.phase ≠ .idle → t.phase = .idle → t.status.ok = false →
    ∃ r : SiteRow, siteRow s.phase = some r ∧ pinOf p r.flag ≠ r.value ∧ r.budget ≤ s.tick.toNat ∧
      t = { s with
        status := { s.status with busy := false, done := true, ok := false, failkind := failKindCode r.kind, failsite := r.site }
        phase := .idle, hist := s.hist ++ [.sample r.flag (pinOf p r.flag)] }

/-- The frame of every SEQ step that completes: the descriptor and CMD are unchanged (R22, R65) and so is the tick request (R30);
STATUS.INIT changes in A_INIT alone and the rejection fields never (R23); TICK is zeroed in exactly the seven phases of
R105; BUF changes in its byte 0 alone, by a received byte (R143, R154). That the word the host read (log 1), the turns to
come and their counter (log 2) are unchanged is about the MODEL's own fields. -/
def Obligations.SeqStepFrame : Prop :=
  ∀ (s t : State) (p : BusPins), runTurn (.seq p) s = .next t →
    t.opc = s.opc ∧ t.sla = s.sla ∧ t.rega = s.rega ∧ t.len = s.len ∧ t.tickPend = s.tickPend ∧ t.hRdata = s.hRdata ∧
    t.turns = s.turns ∧ t.turnNo = s.turnNo ∧ t.status.cmderr = s.status.cmderr ∧ t.status.cerr = s.status.cerr ∧
    (s.phase ≠ .aInit → t.status.init = s.status.init) ∧
    (s.phase ≠ .aBegin → t.status.attempts = s.status.attempts) ∧
    t.tick = (if s.phase ∈ [.aBegin, .aStart, .aRegaddr, .aWscl, .aWdata, .aRscl, .aBscl] then 0 else s.tick) ∧
    (t.buf = s.buf ∨ ((s.phase = .wRrx ∨ s.phase = .wBrx) ∧ p.rxrdy = true ∧ t.buf = s.buf.set 0 p.rxdata))

/-- Only these steps ask for a stop: the drain of WRITE asks for a stop condition, and the repeated start of READ_BYTE for NACK
and stop together (R136, R153, R155; 90_conflicts.md C2). In particular START, READ_BURST and a failing step never do. -/
def Obligations.StopsOnlyWhereTheSpecPutsThem : Prop :=
  ∀ (s t : State) (p : BusPins) (new : List BusEvent), Inv s → runTurn (.seq p) s = .next t → t.hist = s.hist ++ new →
    (.act .genStop ∈ new ↔ s.phase = .wWdrain ∧ p.txrdy = true) ∧
    (.act .genNackStop ∈ new ↔ s.phase = .wBrs ∧ p.startPend = false) ∧
    (.act .genStop ∈ new → s.opc = opcWrite) ∧ (.act .genNackStop ∈ new → s.opc = opcReadByte)

/-- R31, R62: the bus history only grows, and only a SEQ step adds to it; a reset alone starts a new one. -/
def Obligations.HistoryOnlyGrows : Prop :=
  ∀ (x : Turn) (s t : State), runTurn x s = .next t → x ≠ .reset →
    s.hist <+: t.hist ∧ ((∀ p, x ≠ .seq p) → t.hist = s.hist)

/-- R171, R174: a command other than START that fails at a start-attempt site has made exactly five attempts. -/
def Obligations.RetriedCommandFailsAfterFiveAttempts : Prop :=
  ∀ (s t : State) (p : BusPins), Inv s → runTurn (.seq p) s = .next t →
    s.phase ≠ .idle → t.phase = .idle → t.status.ok = false → s.opc ≠ opcStart →
    t.status.failsite ∈ [1#4, 2#4, 3#4] → t.status.attempts = 5

/-- R109, under POLL_FASTER_THAN_TICK: a wait whose predicate stays false, polled once before each tick, is still waiting with
TICK = k after k ticks of its window for every k up to the budget B, spins while k is below B, and leaves the wait at
the first step with TICK = B exactly. -/
def Obligations.PolledWaitEndsAtItsBudget : Prop :=
  ∀ (s : State) (p : BusPins) (r : SiteRow) (k : Nat),
    siteRow s.phase = some r → s.tick = 0 → s.tickPend = false → pinOf p r.flag ≠ r.value → k ≤ r.budget →
    ∃ u, runTurns (List.flatten (List.replicate k [.seq p, .timer, .tb])) s = .next u ∧
      u.phase = s.phase ∧ u.tick.toNat = k ∧ u.status = s.status ∧
      (k < r.budget → ∃ t, runTurn (.seq p) u = .next t ∧ t.phase = s.phase) ∧
      (k = r.budget → ∃ t, runTurn (.seq p) u = .next t ∧ t.phase ≠ s.phase ∧ t.tick.toNat = r.budget)

/-! ### Invariant and ending -/

/-- The invariant holds at reset. -/
def Obligations.ResetMeetsInvariant : Prop := Inv State.reset

/-- Every step keeps the invariant, whichever agent takes it. -/
def Obligations.StepKeepsInvariant : Prop :=
  ∀ s t : State, Inv s → step s = .next t → Inv t

/-- From a state that meets the invariant SEQ always completes its step, and a step of the machine stops only for an undefined
host access; no state is ever refused. -/
def Obligations.StepsStopOnlyForUndefinedAccess : Prop :=
  (∀ (s : State) (p : BusPins), Inv s → ∃ t, runTurn (.seq p) s = .next t) ∧
  (∀ (s : State) (r : Fault), Inv s → step s = .fault r →
    ∃ a : HostAccess, (takeTurn s).1 = .host a ∧ r = .hostFault (hostOff a.word) a.width ∧
      (a.width ≠ 4 ∨ (hostOff a.word).extractLsb' 0 2 ≠ 0#2)) ∧
  (∀ (s : State) (r : Refusal), step s ≠ .refused r)

/-- Every SEQ step of a running command is a spin, which adds one sample and changes nothing else, or lowers the measure. -/
def Obligations.SeqStepSpinsOrLowersMeasure : Prop :=
  ∀ (s t : State) (p : BusPins), Inv s → s.phase ≠ .idle → runTurn (.seq p) s = .next t →
    (∃ r : SiteRow, siteRow s.phase = some r ∧ pinOf p r.flag ≠ r.value ∧ s.tick.toNat < r.budget ∧
      t = { s with hist := s.hist ++ [.sample r.flag (pinOf p r.flag)] }) ∨
    rank t < rank s

/-- R176 under the regular schedule: whatever the bus answers, a running command has ended within 101 rounds of timer, TB and SEQ
for each unit of its measure. -/
def Obligations.CommandEndsWithinItsBound : Prop :=
  ∀ (s : State) (ps : List BusPins), Inv s → ps.length = 101 * rank s →
    ∃ (k : Nat) (t : State), k ≤ ps.length ∧ runTurns (pollRounds (ps.take k)) s = .next t ∧ t.phase = .idle ∧
      t.status.busy = false

/-- R176, whatever the bus answers and whatever the host does. In every execution that meets the fairness of R110 and in which, as
R108 says, no wait sees the counter wrap, or SEQ polls faster than the ticks come while it waits (R109), every running
command ends. And with R110 and nothing else: every running command ends, or the execution comes to a wait in which the
counter wraps again and again between the polls. The steps of R102 and R107 admit such an execution
(Laws/Fairness.lean), and it is against R108 (log 8). -/
def Obligations.EveryRunningCommandEnds : Prop :=
  ∀ (σ : Nat → State) (τ : Nat → Turn), IsRun σ τ → Inv (σ 0) →
    TimerKeepsFiring τ → TbFair σ τ → SeqFair σ τ →
    (PollFasterThanTick σ τ ∨ NoWaitSeesAWrap σ τ → ∀ n, ∃ m, n ≤ m ∧ (σ m).phase = .idle) ∧
    ((∀ n, ∃ m, n ≤ m ∧ (σ m).phase = .idle) ∨ WrapsForEver σ τ)

/-! ### The host assembler -/

/-- R78: the encodings of the three kinds of line, with the rule's own examples. -/
def Obligations.AssemblerLinesEncode : Prop :=
  (∀ r, lineWord (.rd r) = .hop (0#1 ++ regOffset r) 0) ∧
  (∀ r imm, lineWord (.wr r imm) = .hop (1#1 ++ regOffset r) imm) ∧
  (∀ c, lineWord (.cmd c) = .hop 0x100 ((commandOpc c).setWidth 32)) ∧
  lineWord (.wr .sla 0x68) = .hop 0x108 0x00000068 ∧ lineWord (.rd .status) = .hop 0x004 0 ∧
  regOffset .cmd = 0x00 ∧ regOffset .status = 0x04 ∧ regOffset .sla = 0x08 ∧ regOffset .rega = 0x0C ∧ regOffset .len = 0x10 ∧ regOffset .tick = 0x14 ∧
  (∀ i : BitVec 5, regOffset (.buf i) = 0x80 + 4 * i.setWidth 8) ∧
  commandOpc .init = 1 ∧ commandOpc .start = 2 ∧ commandOpc .write = 3 ∧ commandOpc .readBurst = 4 ∧ commandOpc .readByte = 5
end

