-- ==== Sys2Proof/Laws/Decode.lean ====
section
/-! SUPPORT. The decoder by direction: what a read and a write decode to at an offset, and what encodings are made of. -/

namespace Sys2Proof

theorem extract_hop_off (d : BitVec 1) (off : Byte) : (d ++ off : BitVec 9).extractLsb' 0 8 = off := by
  revert d off; decide

theorem extract_hop_dir (d : BitVec 1) (off : Byte) : (d ++ off : BitVec 9).extractLsb' 8 1 = d := by
  revert d off; decide

/-- Every HOP is a direction and an offset (30_encoding.md R70). -/
theorem hop_eq_append (h : BitVec 9) : h = (h.extractLsb' 8 1 ++ h.extractLsb' 0 8 : BitVec 9) := by
  revert h; decide

/-- What a read decodes to (30_encoding.md R72): the data word plays no part. -/
theorem decode_read (off : Byte) (w : Word) :
    decode (.hop (0#1 ++ off) w) =
      if off.extractLsb' 0 1 = 1#1 then .hostfaultOffOdd none off
      else if off.extractLsb' 0 2 = 2#2 then .hostfaultOff2 none off
      else if off.extractLsb' 7 1 = 1#1 then .rdBuf (off.extractLsb' 2 5)
      else decodeLowRead off := by
  have h1 := extract_hop_off 0#1 off
  have h2 := extract_hop_dir 0#1 off
  unfold decode decodeHop
  simp only [h1, h2]
  simp

/-- What a write decodes to (30_encoding.md R72). -/
theorem decode_write (off : Byte) (w : Word) :
    decode (.hop (1#1 ++ off) w) =
      if off.extractLsb' 0 1 = 1#1 then .hostfaultOffOdd (some w) off
      else if off.extractLsb' 0 2 = 2#2 then .hostfaultOff2 (some w) off
      else if off.extractLsb' 7 1 = 1#1 then .wrBuf (off.extractLsb' 2 5) w
      else decodeLowWrite off w := by
  have h1 := extract_hop_off 1#1 off
  have h2 := extract_hop_dir 1#1 off
  unfold decode decodeHop
  simp only [h1, h2]
  simp

/-- The offset of BUF[i] has OFF[7] = 1, OFF[6:2] = i and OFF[1:0] = 00 (30_encoding.md R72). -/
theorem bufOffset_fields (i : BitVec 5) :
    (1#1 ++ i ++ 0#2 : Byte).extractLsb' 0 1 = 0#1 ∧ (1#1 ++ i ++ 0#2 : Byte).extractLsb' 0 2 = 0#2 ∧
    (1#1 ++ i ++ 0#2 : Byte).extractLsb' 7 1 = 1#1 ∧ (1#1 ++ i ++ 0#2 : Byte).extractLsb' 2 5 = i := by
  revert i; decide

/-- The fields of a CMD word (30_encoding.md R70). -/
theorem extract_cmd_opc (opc : BitVec 4) (ign : BitVec 28) : (cmdWord opc ign).extractLsb' 0 4 = opc := by
  change (ign ++ opc : BitVec (28 + 4)).extractLsb' 0 4 = opc
  rw [BitVec.extractLsb'_append_eq_of_add_le (by omega), BitVec.extractLsb'_eq_self]

theorem extract_cmd_ign (opc : BitVec 4) (ign : BitVec 28) : (cmdWord opc ign).extractLsb' 4 28 = ign := by
  change (ign ++ opc : BitVec (28 + 4)).extractLsb' 4 28 = ign
  rw [BitVec.extractLsb'_append_eq_of_le (by omega), BitVec.extractLsb'_eq_self]

/-- The bytes of a word give the word back, with what follows. -/
theorem wordOfBytes_bytesOfWord (w : Word) (rest : List Byte) :
    wordOfBytes (bytesOfWord w ++ rest) = some (w, rest) := by
  have : (w.extractLsb' 24 8 ++ w.extractLsb' 16 8 ++ w.extractLsb' 8 8 ++ w.extractLsb' 0 8 : Word) = w := by
    apply BitVec.eq_of_getLsbD_eq
    intro i hi
    rw [BitVec.getLsbD_append, BitVec.getLsbD_append, BitVec.getLsbD_append]
    simp only [BitVec.getLsbD_extractLsb']
    split
    · simp_all
    · split
      · have : 8 + (i - 8) = i := by omega
        simp_all
      · split
        · have : 16 + (i - 8 - 8) = i := by omega
          simp_all
        · have : 24 + (i - 8 - 8 - 8) = i := by omega
          have : i - 8 - 8 - 8 < 8 := by omega
          simp_all
  simp [wordOfBytes, bytesOfWord, this]

end Sys2Proof
end

