-- ==== Sys2Proof/Laws/State.lean ====
section
/-! SUPPORT. One lemma per field per update of State: what the update writes and what it leaves. -/

namespace Sys2Proof.Machine

variable (s : State)

@[simp] theorem State.setOpc_opc (v : BitVec 4) : (s.setOpc v).opc = v := rfl
@[simp] theorem State.setOpc_status (v : BitVec 4) : (s.setOpc v).status = s.status := rfl
@[simp] theorem State.setOpc_sla (v : BitVec 4) : (s.setOpc v).sla = s.sla := rfl
@[simp] theorem State.setOpc_rega (v : BitVec 4) : (s.setOpc v).rega = s.rega := rfl
@[simp] theorem State.setOpc_len (v : BitVec 4) : (s.setOpc v).len = s.len := rfl
@[simp] theorem State.setOpc_tick (v : BitVec 4) : (s.setOpc v).tick = s.tick := rfl
@[simp] theorem State.setOpc_buf (v : BitVec 4) : (s.setOpc v).buf = s.buf := rfl
@[simp] theorem State.setOpc_phase (v : BitVec 4) : (s.setOpc v).phase = s.phase := rfl
@[simp] theorem State.setOpc_idx (v : BitVec 4) : (s.setOpc v).idx = s.idx := rfl
@[simp] theorem State.setOpc_dly (v : BitVec 4) : (s.setOpc v).dly = s.dly := rfl
@[simp] theorem State.setOpc_tickPend (v : BitVec 4) : (s.setOpc v).tickPend = s.tickPend := rfl
@[simp] theorem State.setOpc_hist (v : BitVec 4) : (s.setOpc v).hist = s.hist := rfl
@[simp] theorem State.setOpc_hRdata (v : BitVec 4) : (s.setOpc v).hRdata = s.hRdata := rfl
@[simp] theorem State.setOpc_turns (v : BitVec 4) : (s.setOpc v).turns = s.turns := rfl
@[simp] theorem State.setOpc_turnNo (v : BitVec 4) : (s.setOpc v).turnNo = s.turnNo := rfl

@[simp] theorem State.setStatus_opc (v : Status) : (s.setStatus v).opc = s.opc := rfl
@[simp] theorem State.setStatus_status (v : Status) : (s.setStatus v).status = v := rfl
@[simp] theorem State.setStatus_sla (v : Status) : (s.setStatus v).sla = s.sla := rfl
@[simp] theorem State.setStatus_rega (v : Status) : (s.setStatus v).rega = s.rega := rfl
@[simp] theorem State.setStatus_len (v : Status) : (s.setStatus v).len = s.len := rfl
@[simp] theorem State.setStatus_tick (v : Status) : (s.setStatus v).tick = s.tick := rfl
@[simp] theorem State.setStatus_buf (v : Status) : (s.setStatus v).buf = s.buf := rfl
@[simp] theorem State.setStatus_phase (v : Status) : (s.setStatus v).phase = s.phase := rfl
@[simp] theorem State.setStatus_idx (v : Status) : (s.setStatus v).idx = s.idx := rfl
@[simp] theorem State.setStatus_dly (v : Status) : (s.setStatus v).dly = s.dly := rfl
@[simp] theorem State.setStatus_tickPend (v : Status) : (s.setStatus v).tickPend = s.tickPend := rfl
@[simp] theorem State.setStatus_hist (v : Status) : (s.setStatus v).hist = s.hist := rfl
@[simp] theorem State.setStatus_hRdata (v : Status) : (s.setStatus v).hRdata = s.hRdata := rfl
@[simp] theorem State.setStatus_turns (v : Status) : (s.setStatus v).turns = s.turns := rfl
@[simp] theorem State.setStatus_turnNo (v : Status) : (s.setStatus v).turnNo = s.turnNo := rfl

@[simp] theorem State.setSla_opc (v : BitVec 7) : (s.setSla v).opc = s.opc := rfl
@[simp] theorem State.setSla_status (v : BitVec 7) : (s.setSla v).status = s.status := rfl
@[simp] theorem State.setSla_sla (v : BitVec 7) : (s.setSla v).sla = v := rfl
@[simp] theorem State.setSla_rega (v : BitVec 7) : (s.setSla v).rega = s.rega := rfl
@[simp] theorem State.setSla_len (v : BitVec 7) : (s.setSla v).len = s.len := rfl
@[simp] theorem State.setSla_tick (v : BitVec 7) : (s.setSla v).tick = s.tick := rfl
@[simp] theorem State.setSla_buf (v : BitVec 7) : (s.setSla v).buf = s.buf := rfl
@[simp] theorem State.setSla_phase (v : BitVec 7) : (s.setSla v).phase = s.phase := rfl
@[simp] theorem State.setSla_idx (v : BitVec 7) : (s.setSla v).idx = s.idx := rfl
@[simp] theorem State.setSla_dly (v : BitVec 7) : (s.setSla v).dly = s.dly := rfl
@[simp] theorem State.setSla_tickPend (v : BitVec 7) : (s.setSla v).tickPend = s.tickPend := rfl
@[simp] theorem State.setSla_hist (v : BitVec 7) : (s.setSla v).hist = s.hist := rfl
@[simp] theorem State.setSla_hRdata (v : BitVec 7) : (s.setSla v).hRdata = s.hRdata := rfl
@[simp] theorem State.setSla_turns (v : BitVec 7) : (s.setSla v).turns = s.turns := rfl
@[simp] theorem State.setSla_turnNo (v : BitVec 7) : (s.setSla v).turnNo = s.turnNo := rfl

@[simp] theorem State.setRega_opc (v : Byte) : (s.setRega v).opc = s.opc := rfl
@[simp] theorem State.setRega_status (v : Byte) : (s.setRega v).status = s.status := rfl
@[simp] theorem State.setRega_sla (v : Byte) : (s.setRega v).sla = s.sla := rfl
@[simp] theorem State.setRega_rega (v : Byte) : (s.setRega v).rega = v := rfl
@[simp] theorem State.setRega_len (v : Byte) : (s.setRega v).len = s.len := rfl
@[simp] theorem State.setRega_tick (v : Byte) : (s.setRega v).tick = s.tick := rfl
@[simp] theorem State.setRega_buf (v : Byte) : (s.setRega v).buf = s.buf := rfl
@[simp] theorem State.setRega_phase (v : Byte) : (s.setRega v).phase = s.phase := rfl
@[simp] theorem State.setRega_idx (v : Byte) : (s.setRega v).idx = s.idx := rfl
@[simp] theorem State.setRega_dly (v : Byte) : (s.setRega v).dly = s.dly := rfl
@[simp] theorem State.setRega_tickPend (v : Byte) : (s.setRega v).tickPend = s.tickPend := rfl
@[simp] theorem State.setRega_hist (v : Byte) : (s.setRega v).hist = s.hist := rfl
@[simp] theorem State.setRega_hRdata (v : Byte) : (s.setRega v).hRdata = s.hRdata := rfl
@[simp] theorem State.setRega_turns (v : Byte) : (s.setRega v).turns = s.turns := rfl
@[simp] theorem State.setRega_turnNo (v : Byte) : (s.setRega v).turnNo = s.turnNo := rfl

@[simp] theorem State.setLen_opc (v : Byte) : (s.setLen v).opc = s.opc := rfl
@[simp] theorem State.setLen_status (v : Byte) : (s.setLen v).status = s.status := rfl
@[simp] theorem State.setLen_sla (v : Byte) : (s.setLen v).sla = s.sla := rfl
@[simp] theorem State.setLen_rega (v : Byte) : (s.setLen v).rega = s.rega := rfl
@[simp] theorem State.setLen_len (v : Byte) : (s.setLen v).len = v := rfl
@[simp] theorem State.setLen_tick (v : Byte) : (s.setLen v).tick = s.tick := rfl
@[simp] theorem State.setLen_buf (v : Byte) : (s.setLen v).buf = s.buf := rfl
@[simp] theorem State.setLen_phase (v : Byte) : (s.setLen v).phase = s.phase := rfl
@[simp] theorem State.setLen_idx (v : Byte) : (s.setLen v).idx = s.idx := rfl
@[simp] theorem State.setLen_dly (v : Byte) : (s.setLen v).dly = s.dly := rfl
@[simp] theorem State.setLen_tickPend (v : Byte) : (s.setLen v).tickPend = s.tickPend := rfl
@[simp] theorem State.setLen_hist (v : Byte) : (s.setLen v).hist = s.hist := rfl
@[simp] theorem State.setLen_hRdata (v : Byte) : (s.setLen v).hRdata = s.hRdata := rfl
@[simp] theorem State.setLen_turns (v : Byte) : (s.setLen v).turns = s.turns := rfl
@[simp] theorem State.setLen_turnNo (v : Byte) : (s.setLen v).turnNo = s.turnNo := rfl

@[simp] theorem State.setTick_opc (v : BitVec 16) : (s.setTick v).opc = s.opc := rfl
@[simp] theorem State.setTick_status (v : BitVec 16) : (s.setTick v).status = s.status := rfl
@[simp] theorem State.setTick_sla (v : BitVec 16) : (s.setTick v).sla = s.sla := rfl
@[simp] theorem State.setTick_rega (v : BitVec 16) : (s.setTick v).rega = s.rega := rfl
@[simp] theorem State.setTick_len (v : BitVec 16) : (s.setTick v).len = s.len := rfl
@[simp] theorem State.setTick_tick (v : BitVec 16) : (s.setTick v).tick = v := rfl
@[simp] theorem State.setTick_buf (v : BitVec 16) : (s.setTick v).buf = s.buf := rfl
@[simp] theorem State.setTick_phase (v : BitVec 16) : (s.setTick v).phase = s.phase := rfl
@[simp] theorem State.setTick_idx (v : BitVec 16) : (s.setTick v).idx = s.idx := rfl
@[simp] theorem State.setTick_dly (v : BitVec 16) : (s.setTick v).dly = s.dly := rfl
@[simp] theorem State.setTick_tickPend (v : BitVec 16) : (s.setTick v).tickPend = s.tickPend := rfl
@[simp] theorem State.setTick_hist (v : BitVec 16) : (s.setTick v).hist = s.hist := rfl
@[simp] theorem State.setTick_hRdata (v : BitVec 16) : (s.setTick v).hRdata = s.hRdata := rfl
@[simp] theorem State.setTick_turns (v : BitVec 16) : (s.setTick v).turns = s.turns := rfl
@[simp] theorem State.setTick_turnNo (v : BitVec 16) : (s.setTick v).turnNo = s.turnNo := rfl

@[simp] theorem State.setBuf_opc (i : BitVec 5) (v : Byte) : (s.setBuf i v).opc = s.opc := rfl
@[simp] theorem State.setBuf_status (i : BitVec 5) (v : Byte) : (s.setBuf i v).status = s.status := rfl
@[simp] theorem State.setBuf_sla (i : BitVec 5) (v : Byte) : (s.setBuf i v).sla = s.sla := rfl
@[simp] theorem State.setBuf_rega (i : BitVec 5) (v : Byte) : (s.setBuf i v).rega = s.rega := rfl
@[simp] theorem State.setBuf_len (i : BitVec 5) (v : Byte) : (s.setBuf i v).len = s.len := rfl
@[simp] theorem State.setBuf_tick (i : BitVec 5) (v : Byte) : (s.setBuf i v).tick = s.tick := rfl
@[simp] theorem State.setBuf_buf (i : BitVec 5) (v : Byte) : (s.setBuf i v).buf = s.buf.set i.toNat v i.isLt := rfl
@[simp] theorem State.setBuf_phase (i : BitVec 5) (v : Byte) : (s.setBuf i v).phase = s.phase := rfl
@[simp] theorem State.setBuf_idx (i : BitVec 5) (v : Byte) : (s.setBuf i v).idx = s.idx := rfl
@[simp] theorem State.setBuf_dly (i : BitVec 5) (v : Byte) : (s.setBuf i v).dly = s.dly := rfl
@[simp] theorem State.setBuf_tickPend (i : BitVec 5) (v : Byte) : (s.setBuf i v).tickPend = s.tickPend := rfl
@[simp] theorem State.setBuf_hist (i : BitVec 5) (v : Byte) : (s.setBuf i v).hist = s.hist := rfl
@[simp] theorem State.setBuf_hRdata (i : BitVec 5) (v : Byte) : (s.setBuf i v).hRdata = s.hRdata := rfl
@[simp] theorem State.setBuf_turns (i : BitVec 5) (v : Byte) : (s.setBuf i v).turns = s.turns := rfl
@[simp] theorem State.setBuf_turnNo (i : BitVec 5) (v : Byte) : (s.setBuf i v).turnNo = s.turnNo := rfl

@[simp] theorem State.setPhase_opc (p : Phase) : (s.setPhase p).opc = s.opc := rfl
@[simp] theorem State.setPhase_status (p : Phase) : (s.setPhase p).status = s.status := rfl
@[simp] theorem State.setPhase_sla (p : Phase) : (s.setPhase p).sla = s.sla := rfl
@[simp] theorem State.setPhase_rega (p : Phase) : (s.setPhase p).rega = s.rega := rfl
@[simp] theorem State.setPhase_len (p : Phase) : (s.setPhase p).len = s.len := rfl
@[simp] theorem State.setPhase_tick (p : Phase) : (s.setPhase p).tick = s.tick := rfl
@[simp] theorem State.setPhase_buf (p : Phase) : (s.setPhase p).buf = s.buf := rfl
@[simp] theorem State.setPhase_phase (p : Phase) : (s.setPhase p).phase = p := rfl
@[simp] theorem State.setPhase_idx (p : Phase) : (s.setPhase p).idx = s.idx := rfl
@[simp] theorem State.setPhase_dly (p : Phase) : (s.setPhase p).dly = s.dly := rfl
@[simp] theorem State.setPhase_tickPend (p : Phase) : (s.setPhase p).tickPend = s.tickPend := rfl
@[simp] theorem State.setPhase_hist (p : Phase) : (s.setPhase p).hist = s.hist := rfl
@[simp] theorem State.setPhase_hRdata (p : Phase) : (s.setPhase p).hRdata = s.hRdata := rfl
@[simp] theorem State.setPhase_turns (p : Phase) : (s.setPhase p).turns = s.turns := rfl
@[simp] theorem State.setPhase_turnNo (p : Phase) : (s.setPhase p).turnNo = s.turnNo := rfl

@[simp] theorem State.setIdx_opc (n : Nat) : (s.setIdx n).opc = s.opc := rfl
@[simp] theorem State.setIdx_status (n : Nat) : (s.setIdx n).status = s.status := rfl
@[simp] theorem State.setIdx_sla (n : Nat) : (s.setIdx n).sla = s.sla := rfl
@[simp] theorem State.setIdx_rega (n : Nat) : (s.setIdx n).rega = s.rega := rfl
@[simp] theorem State.setIdx_len (n : Nat) : (s.setIdx n).len = s.len := rfl
@[simp] theorem State.setIdx_tick (n : Nat) : (s.setIdx n).tick = s.tick := rfl
@[simp] theorem State.setIdx_buf (n : Nat) : (s.setIdx n).buf = s.buf := rfl
@[simp] theorem State.setIdx_phase (n : Nat) : (s.setIdx n).phase = s.phase := rfl
@[simp] theorem State.setIdx_idx (n : Nat) : (s.setIdx n).idx = n := rfl
@[simp] theorem State.setIdx_dly (n : Nat) : (s.setIdx n).dly = s.dly := rfl
@[simp] theorem State.setIdx_tickPend (n : Nat) : (s.setIdx n).tickPend = s.tickPend := rfl
@[simp] theorem State.setIdx_hist (n : Nat) : (s.setIdx n).hist = s.hist := rfl
@[simp] theorem State.setIdx_hRdata (n : Nat) : (s.setIdx n).hRdata = s.hRdata := rfl
@[simp] theorem State.setIdx_turns (n : Nat) : (s.setIdx n).turns = s.turns := rfl
@[simp] theorem State.setIdx_turnNo (n : Nat) : (s.setIdx n).turnNo = s.turnNo := rfl

@[simp] theorem State.setDly_opc (n : Nat) : (s.setDly n).opc = s.opc := rfl
@[simp] theorem State.setDly_status (n : Nat) : (s.setDly n).status = s.status := rfl
@[simp] theorem State.setDly_sla (n : Nat) : (s.setDly n).sla = s.sla := rfl
@[simp] theorem State.setDly_rega (n : Nat) : (s.setDly n).rega = s.rega := rfl
@[simp] theorem State.setDly_len (n : Nat) : (s.setDly n).len = s.len := rfl
@[simp] theorem State.setDly_tick (n : Nat) : (s.setDly n).tick = s.tick := rfl
@[simp] theorem State.setDly_buf (n : Nat) : (s.setDly n).buf = s.buf := rfl
@[simp] theorem State.setDly_phase (n : Nat) : (s.setDly n).phase = s.phase := rfl
@[simp] theorem State.setDly_idx (n : Nat) : (s.setDly n).idx = s.idx := rfl
@[simp] theorem State.setDly_dly (n : Nat) : (s.setDly n).dly = n := rfl
@[simp] theorem State.setDly_tickPend (n : Nat) : (s.setDly n).tickPend = s.tickPend := rfl
@[simp] theorem State.setDly_hist (n : Nat) : (s.setDly n).hist = s.hist := rfl
@[simp] theorem State.setDly_hRdata (n : Nat) : (s.setDly n).hRdata = s.hRdata := rfl
@[simp] theorem State.setDly_turns (n : Nat) : (s.setDly n).turns = s.turns := rfl
@[simp] theorem State.setDly_turnNo (n : Nat) : (s.setDly n).turnNo = s.turnNo := rfl

@[simp] theorem State.setTickPend_opc (b : Bool) : (s.setTickPend b).opc = s.opc := rfl
@[simp] theorem State.setTickPend_status (b : Bool) : (s.setTickPend b).status = s.status := rfl
@[simp] theorem State.setTickPend_sla (b : Bool) : (s.setTickPend b).sla = s.sla := rfl
@[simp] theorem State.setTickPend_rega (b : Bool) : (s.setTickPend b).rega = s.rega := rfl
@[simp] theorem State.setTickPend_len (b : Bool) : (s.setTickPend b).len = s.len := rfl
@[simp] theorem State.setTickPend_tick (b : Bool) : (s.setTickPend b).tick = s.tick := rfl
@[simp] theorem State.setTickPend_buf (b : Bool) : (s.setTickPend b).buf = s.buf := rfl
@[simp] theorem State.setTickPend_phase (b : Bool) : (s.setTickPend b).phase = s.phase := rfl
@[simp] theorem State.setTickPend_idx (b : Bool) : (s.setTickPend b).idx = s.idx := rfl
@[simp] theorem State.setTickPend_dly (b : Bool) : (s.setTickPend b).dly = s.dly := rfl
@[simp] theorem State.setTickPend_tickPend (b : Bool) : (s.setTickPend b).tickPend = b := rfl
@[simp] theorem State.setTickPend_hist (b : Bool) : (s.setTickPend b).hist = s.hist := rfl
@[simp] theorem State.setTickPend_hRdata (b : Bool) : (s.setTickPend b).hRdata = s.hRdata := rfl
@[simp] theorem State.setTickPend_turns (b : Bool) : (s.setTickPend b).turns = s.turns := rfl
@[simp] theorem State.setTickPend_turnNo (b : Bool) : (s.setTickPend b).turnNo = s.turnNo := rfl

@[simp] theorem State.record_opc (e : BusEvent) : (s.record e).opc = s.opc := rfl
@[simp] theorem State.record_status (e : BusEvent) : (s.record e).status = s.status := rfl
@[simp] theorem State.record_sla (e : BusEvent) : (s.record e).sla = s.sla := rfl
@[simp] theorem State.record_rega (e : BusEvent) : (s.record e).rega = s.rega := rfl
@[simp] theorem State.record_len (e : BusEvent) : (s.record e).len = s.len := rfl
@[simp] theorem State.record_tick (e : BusEvent) : (s.record e).tick = s.tick := rfl
@[simp] theorem State.record_buf (e : BusEvent) : (s.record e).buf = s.buf := rfl
@[simp] theorem State.record_phase (e : BusEvent) : (s.record e).phase = s.phase := rfl
@[simp] theorem State.record_idx (e : BusEvent) : (s.record e).idx = s.idx := rfl
@[simp] theorem State.record_dly (e : BusEvent) : (s.record e).dly = s.dly := rfl
@[simp] theorem State.record_tickPend (e : BusEvent) : (s.record e).tickPend = s.tickPend := rfl
@[simp] theorem State.record_hist (e : BusEvent) : (s.record e).hist = s.hist ++ [e] := rfl
@[simp] theorem State.record_hRdata (e : BusEvent) : (s.record e).hRdata = s.hRdata := rfl
@[simp] theorem State.record_turns (e : BusEvent) : (s.record e).turns = s.turns := rfl
@[simp] theorem State.record_turnNo (e : BusEvent) : (s.record e).turnNo = s.turnNo := rfl

@[simp] theorem State.setRdata_opc (w : Word) : (s.setRdata w).opc = s.opc := rfl
@[simp] theorem State.setRdata_status (w : Word) : (s.setRdata w).status = s.status := rfl
@[simp] theorem State.setRdata_sla (w : Word) : (s.setRdata w).sla = s.sla := rfl
@[simp] theorem State.setRdata_rega (w : Word) : (s.setRdata w).rega = s.rega := rfl
@[simp] theorem State.setRdata_len (w : Word) : (s.setRdata w).len = s.len := rfl
@[simp] theorem State.setRdata_tick (w : Word) : (s.setRdata w).tick = s.tick := rfl
@[simp] theorem State.setRdata_buf (w : Word) : (s.setRdata w).buf = s.buf := rfl
@[simp] theorem State.setRdata_phase (w : Word) : (s.setRdata w).phase = s.phase := rfl
@[simp] theorem State.setRdata_idx (w : Word) : (s.setRdata w).idx = s.idx := rfl
@[simp] theorem State.setRdata_dly (w : Word) : (s.setRdata w).dly = s.dly := rfl
@[simp] theorem State.setRdata_tickPend (w : Word) : (s.setRdata w).tickPend = s.tickPend := rfl
@[simp] theorem State.setRdata_hist (w : Word) : (s.setRdata w).hist = s.hist := rfl
@[simp] theorem State.setRdata_hRdata (w : Word) : (s.setRdata w).hRdata = w := rfl
@[simp] theorem State.setRdata_turns (w : Word) : (s.setRdata w).turns = s.turns := rfl
@[simp] theorem State.setRdata_turnNo (w : Word) : (s.setRdata w).turnNo = s.turnNo := rfl

@[simp] theorem State.emit_opc (a : BusAction) : (s.emit a).opc = s.opc := rfl
@[simp] theorem State.emit_status (a : BusAction) : (s.emit a).status = s.status := rfl
@[simp] theorem State.emit_sla (a : BusAction) : (s.emit a).sla = s.sla := rfl
@[simp] theorem State.emit_rega (a : BusAction) : (s.emit a).rega = s.rega := rfl
@[simp] theorem State.emit_len (a : BusAction) : (s.emit a).len = s.len := rfl
@[simp] theorem State.emit_tick (a : BusAction) : (s.emit a).tick = s.tick := rfl
@[simp] theorem State.emit_buf (a : BusAction) : (s.emit a).buf = s.buf := rfl
@[simp] theorem State.emit_phase (a : BusAction) : (s.emit a).phase = s.phase := rfl
@[simp] theorem State.emit_idx (a : BusAction) : (s.emit a).idx = s.idx := rfl
@[simp] theorem State.emit_dly (a : BusAction) : (s.emit a).dly = s.dly := rfl
@[simp] theorem State.emit_tickPend (a : BusAction) : (s.emit a).tickPend = s.tickPend := rfl
@[simp] theorem State.emit_hist (a : BusAction) : (s.emit a).hist = s.hist ++ [.act a] := rfl
@[simp] theorem State.emit_hRdata (a : BusAction) : (s.emit a).hRdata = s.hRdata := rfl
@[simp] theorem State.emit_turns (a : BusAction) : (s.emit a).turns = s.turns := rfl
@[simp] theorem State.emit_turnNo (a : BusAction) : (s.emit a).turnNo = s.turnNo := rfl

@[simp] theorem State.resetWindow_opc : (s.resetWindow).opc = s.opc := rfl
@[simp] theorem State.resetWindow_status : (s.resetWindow).status = s.status := rfl
@[simp] theorem State.resetWindow_sla : (s.resetWindow).sla = s.sla := rfl
@[simp] theorem State.resetWindow_rega : (s.resetWindow).rega = s.rega := rfl
@[simp] theorem State.resetWindow_len : (s.resetWindow).len = s.len := rfl
@[simp] theorem State.resetWindow_tick : (s.resetWindow).tick = 0 := rfl
@[simp] theorem State.resetWindow_buf : (s.resetWindow).buf = s.buf := rfl
@[simp] theorem State.resetWindow_phase : (s.resetWindow).phase = s.phase := rfl
@[simp] theorem State.resetWindow_idx : (s.resetWindow).idx = s.idx := rfl
@[simp] theorem State.resetWindow_dly : (s.resetWindow).dly = s.dly := rfl
@[simp] theorem State.resetWindow_tickPend : (s.resetWindow).tickPend = s.tickPend := rfl
@[simp] theorem State.resetWindow_hist : (s.resetWindow).hist = s.hist := rfl
@[simp] theorem State.resetWindow_hRdata : (s.resetWindow).hRdata = s.hRdata := rfl
@[simp] theorem State.resetWindow_turns : (s.resetWindow).turns = s.turns := rfl
@[simp] theorem State.resetWindow_turnNo : (s.resetWindow).turnNo = s.turnNo := rfl

/-! The same for the updates of STATUS. -/

variable (st : Status)

@[simp] theorem Status.accepted_busy : (st.accepted).busy = true := rfl
@[simp] theorem Status.accepted_done : (st.accepted).done = false := rfl
@[simp] theorem Status.accepted_ok : (st.accepted).ok = false := rfl
@[simp] theorem Status.accepted_cmderr : (st.accepted).cmderr = false := rfl
@[simp] theorem Status.accepted_init : (st.accepted).init = st.init := rfl
@[simp] theorem Status.accepted_failkind : (st.accepted).failkind = 0 := rfl
@[simp] theorem Status.accepted_failsite : (st.accepted).failsite = 0 := rfl
@[simp] theorem Status.accepted_attempts : (st.accepted).attempts = 0 := rfl
@[simp] theorem Status.accepted_cerr : (st.accepted).cerr = 0 := rfl

@[simp] theorem Status.rejected_busy (c : RejectCause) : (st.rejected c).busy = st.busy := rfl
@[simp] theorem Status.rejected_done (c : RejectCause) : (st.rejected c).done = st.done := rfl
@[simp] theorem Status.rejected_ok (c : RejectCause) : (st.rejected c).ok = st.ok := rfl
@[simp] theorem Status.rejected_cmderr (c : RejectCause) : (st.rejected c).cmderr = true := rfl
@[simp] theorem Status.rejected_init (c : RejectCause) : (st.rejected c).init = st.init := rfl
@[simp] theorem Status.rejected_failkind (c : RejectCause) : (st.rejected c).failkind = st.failkind := rfl
@[simp] theorem Status.rejected_failsite (c : RejectCause) : (st.rejected c).failsite = st.failsite := rfl
@[simp] theorem Status.rejected_attempts (c : RejectCause) : (st.rejected c).attempts = st.attempts := rfl
@[simp] theorem Status.rejected_cerr (c : RejectCause) : (st.rejected c).cerr = rejectCode c := rfl

@[simp] theorem Status.finishedOk_busy : (st.finishedOk).busy = false := rfl
@[simp] theorem Status.finishedOk_done : (st.finishedOk).done = true := rfl
@[simp] theorem Status.finishedOk_ok : (st.finishedOk).ok = true := rfl
@[simp] theorem Status.finishedOk_cmderr : (st.finishedOk).cmderr = st.cmderr := rfl
@[simp] theorem Status.finishedOk_init : (st.finishedOk).init = st.init := rfl
@[simp] theorem Status.finishedOk_failkind : (st.finishedOk).failkind = 0 := rfl
@[simp] theorem Status.finishedOk_failsite : (st.finishedOk).failsite = 0 := rfl
@[simp] theorem Status.finishedOk_attempts : (st.finishedOk).attempts = st.attempts := rfl
@[simp] theorem Status.finishedOk_cerr : (st.finishedOk).cerr = st.cerr := rfl

@[simp] theorem Status.finishedFail_busy (k : FailKind) (site : BitVec 4) : (st.finishedFail k site).busy = false := rfl
@[simp] theorem Status.finishedFail_done (k : FailKind) (site : BitVec 4) : (st.finishedFail k site).done = true := rfl
@[simp] theorem Status.finishedFail_ok (k : FailKind) (site : BitVec 4) : (st.finishedFail k site).ok = false := rfl
@[simp] theorem Status.finishedFail_cmderr (k : FailKind) (site : BitVec 4) : (st.finishedFail k site).cmderr = st.cmderr := rfl
@[simp] theorem Status.finishedFail_init (k : FailKind) (site : BitVec 4) : (st.finishedFail k site).init = st.init := rfl
@[simp] theorem Status.finishedFail_failkind (k : FailKind) (site : BitVec 4) : (st.finishedFail k site).failkind = failKindCode k := rfl
@[simp] theorem Status.finishedFail_failsite (k : FailKind) (site : BitVec 4) : (st.finishedFail k site).failsite = site := rfl
@[simp] theorem Status.finishedFail_attempts (k : FailKind) (site : BitVec 4) : (st.finishedFail k site).attempts = st.attempts := rfl
@[simp] theorem Status.finishedFail_cerr (k : FailKind) (site : BitVec 4) : (st.finishedFail k site).cerr = st.cerr := rfl

@[simp] theorem Status.attempted_busy : (st.attempted).busy = st.busy := rfl
@[simp] theorem Status.attempted_done : (st.attempted).done = st.done := rfl
@[simp] theorem Status.attempted_ok : (st.attempted).ok = st.ok := rfl
@[simp] theorem Status.attempted_cmderr : (st.attempted).cmderr = st.cmderr := rfl
@[simp] theorem Status.attempted_init : (st.attempted).init = st.init := rfl
@[simp] theorem Status.attempted_failkind : (st.attempted).failkind = st.failkind := rfl
@[simp] theorem Status.attempted_failsite : (st.attempted).failsite = st.failsite := rfl
@[simp] theorem Status.attempted_attempts : (st.attempted).attempts = st.attempts + 1 := rfl
@[simp] theorem Status.attempted_cerr : (st.attempted).cerr = st.cerr := rfl

@[simp] theorem Status.initialised_busy : (st.initialised).busy = st.busy := rfl
@[simp] theorem Status.initialised_done : (st.initialised).done = st.done := rfl
@[simp] theorem Status.initialised_ok : (st.initialised).ok = st.ok := rfl
@[simp] theorem Status.initialised_cmderr : (st.initialised).cmderr = st.cmderr := rfl
@[simp] theorem Status.initialised_init : (st.initialised).init = true := rfl
@[simp] theorem Status.initialised_failkind : (st.initialised).failkind = st.failkind := rfl
@[simp] theorem Status.initialised_failsite : (st.initialised).failsite = st.failsite := rfl
@[simp] theorem Status.initialised_attempts : (st.initialised).attempts = st.attempts := rfl
@[simp] theorem Status.initialised_cerr : (st.initialised).cerr = st.cerr := rfl

end Sys2Proof.Machine
end

