-- ==== Sys2Proof/Laws/Ops.lean ====
section
/-! SUPPORT. One lemma per shared operation: everything it can do. -/

namespace Sys2Proof.Machine

variable {s t : State} {p : BusPins}

/-! ### Host writes and commands -/

theorem whileIdle_idle {f : State → State} (h : s.status.busy = false) : whileIdle s f = f s := by
  simp [whileIdle, h]

theorem whileIdle_busy {f : State → State} (h : s.status.busy = true) : whileIdle s f = s := by
  simp [whileIdle, h]

theorem requestUnlessBusy_cases (opc : BitVec 4) (s : State) :
    (s.status.busy = true ∧ requestUnlessBusy opc s = reject .busy s) ∨
    (s.status.busy = false ∧ requestUnlessBusy opc s = accept opc s) := by
  cases h : s.status.busy <;> simp [requestUnlessBusy, h]

theorem requestReserved_cases (s : State) :
    (s.status.busy = true ∧ requestReserved s = reject .busy s) ∨
    (s.status.busy = false ∧ requestReserved s = reject .reservedOpcode s) := by
  cases h : s.status.busy <;> simp [requestReserved, h]

/-- The length check in plain numbers (43_host_access.md R196). -/
theorem lengthAllowed_iff (s : State) : lengthAllowed s = true ↔ 1 ≤ s.len.toNat ∧ s.len.toNat ≤ 32 := by
  rw [lengthAllowed, Bool.and_eq_true, decide_eq_true_iff, decide_eq_true_iff]
  rfl

/-- A write of a command to CMD rejects or accepts, and says when. -/
theorem requestCommand_cases (opc : BitVec 4) (s : State) :
    (s.status.busy = true ∧ requestCommand opc s = reject .busy s) ∨
    (s.status.busy = false ∧ (opc < opcInit ∨ opcReadByte < opc) ∧ requestCommand opc s = reject .reservedOpcode s) ∨
    (s.status.busy = false ∧ opc = opcWrite ∧ lengthAllowed s = false ∧
      requestCommand opc s = reject .lengthOutOfRange s) ∨
    (s.status.busy = false ∧ ¬(opc < opcInit ∨ opcReadByte < opc) ∧ (opc = opcWrite → lengthAllowed s = true) ∧
      requestCommand opc s = accept opc s) := by
  unfold requestCommand
  cases hb : s.status.busy
  · by_cases hr : opc < opcInit ∨ opcReadByte < opc
    · simp [hr]
    · by_cases hw : opc = opcWrite
      · subst hw
        cases hl : lengthAllowed s <;> simp [opcInit, opcReadByte, opcWrite]
      · simp [hr, hw]
  · simp

/-- A request of WRITE rejects or accepts, and says when. -/
theorem execWrite_cases (ign : BitVec 28) (s : State) :
    (s.status.busy = true ∧ execWrite ign s = .next (reject .busy s)) ∨
    (s.status.busy = false ∧ lengthAllowed s = true ∧ execWrite ign s = .next (accept opcWrite s)) ∨
    (s.status.busy = false ∧ lengthAllowed s = false ∧ execWrite ign s = .next (reject .lengthOutOfRange s)) := by
  cases hb : s.status.busy <;> cases hl : lengthAllowed s <;> simp [execWrite, hb, hl]

/-! ### TimeBase -/

theorem tbStep_pending (h : s.tickPend = true) : tbStep s = (s.setTick (s.tick + 1)).setTickPend false := by
  simp [tbStep, h]

theorem tbStep_not_pending (h : s.tickPend = false) : tbStep s = s := by
  simp [tbStep, h]

/-! ### Turns -/

theorem takeTurn_cons {x : Turn} {ts : List Turn} (h : s.turns = x :: ts) : takeTurn s = (x, { s with turns := ts }) := by
  simp [takeTurn, h]

/-! ### The sequencer -/

/-- What a wait does: the predicate first, then the comparator, else a spin (40_timebase.md R106, R107). -/
theorem waitOn_cases (f : Flag) (v : Bool) (b : Nat) (p : BusPins) (onOk onTimeout : State → Result) (s : State) :
    (pinOf p f = v ∧ waitOn f v b p onOk onTimeout s = onOk (s.record (.sample f v))) ∨
    (pinOf p f ≠ v ∧ b ≤ s.tick.toNat ∧ waitOn f v b p onOk onTimeout s = onTimeout (s.record (.sample f (pinOf p f)))) ∨
    (pinOf p f ≠ v ∧ s.tick.toNat < b ∧ waitOn f v b p onOk onTimeout s = .next (s.record (.sample f (pinOf p f)))) := by
  by_cases hp : pinOf p f = v
  · exact .inl ⟨hp, by simp [waitOn, hp]⟩
  · by_cases hb : b ≤ s.tick.toNat
    · exact .inr (.inl ⟨hp, hb, by simp [waitOn, timedOut, hp, hb]⟩)
    · exact .inr (.inr ⟨hp, by omega, by simp [waitOn, timedOut, hp, hb]⟩)

/-- What a failed start attempt leads to (42_transaction_retry.md R170). -/
theorem attemptFail_cases (k : FailKind) (site : BitVec 4) (s : State) :
    ((s.opc = opcStart ∨ 5 ≤ s.status.attempts.toNat) ∧ attemptFail k site s = finishFail k site s) ∨
    (s.status.attempts.toNat < 5 ∧ s.opc = opcReadByte ∧
      attemptFail k site s = (s.setDly Config.retryDelay).setPhase .aDelay) ∨
    (s.status.attempts.toNat < 5 ∧ s.opc ≠ opcStart ∧ s.opc ≠ opcReadByte ∧ attemptFail k site s = s.setPhase .aBegin) := by
  by_cases h2 : s.opc = opcStart
  · exact .inl ⟨.inl h2, by simp [attemptFail, h2]⟩
  · by_cases ha : s.status.attempts.toNat < 5
    · by_cases h5 : s.opc = opcReadByte
      · exact .inr (.inl ⟨ha, h5, by
          rw [attemptFail, if_neg h2, if_pos (by simpa [Config.retryMax] using ha), if_pos h5]⟩)
      · exact .inr (.inr ⟨ha, h2, h5, by
          rw [attemptFail, if_neg h2, if_pos (by simpa [Config.retryMax] using ha), if_neg h5]⟩)
    · exact .inl ⟨.inr (by omega), by
        rw [attemptFail, if_neg h2, if_neg (by simpa [Config.retryMax] using ha)]⟩

/-- Where a finished start attempt goes (41_bus_controller.md R122). -/
theorem startDone_cases (h : startDone s = .next t) :
    (s.opc = opcStart ∧ t = finishOk s) ∨ (s.opc = opcWrite ∧ t = s.setPhase .aWscl) ∨
    (s.opc = opcReadBurst ∧ t = s.setPhase .aRscl) ∨ (s.opc = opcReadByte ∧ t = s.setPhase .aBscl) := by
  unfold startDone at h
  split at h
  · exact .inl ⟨‹_›, by simpa using h.symm⟩
  · split at h
    · exact .inr (.inl ⟨‹_›, by simpa using h.symm⟩)
    · split at h
      · exact .inr (.inr (.inl ⟨‹_›, by simpa using h.symm⟩))
      · split at h
        · exact .inr (.inr (.inr ⟨‹_›, by simpa using h.symm⟩))
        · simp at h

/-- A data byte sent, where the buffer has one (41_bus_controller.md R135). -/
theorem sendDataByte_some {b : Byte} (h : s.buf[s.idx]? = some b) :
    sendDataByte s = .next ((((s.emit (.writeDr b)).setIdx (s.idx + 1))).setPhase
      (if s.idx + 1 < s.len.toNat then .wWtx else .wWdrain)) := by
  rw [sendDataByte, dataByte, h]
  rfl

/-- The buffer has a byte at every index below 32. -/
theorem dataByte_of_lt {i : Nat} (h : i < 32) : dataByte s i = some s.buf[i] := by
  simp [dataByte, h]

/-! ### One SEQ step, by phase -/

theorem seqStep_idle (h : s.phase = .idle) : seqStep p s = .next s := by simp [seqStep, h]
theorem seqStep_aInit (h : s.phase = .aInit) : seqStep p s = phaseAInit s := by simp [seqStep, h]
theorem seqStep_aBegin (h : s.phase = .aBegin) : seqStep p s = phaseABegin s := by simp [seqStep, h]
theorem seqStep_wBusy (h : s.phase = .wBusy) : seqStep p s = phaseWBusy p s := by simp [seqStep, h]
theorem seqStep_aStart (h : s.phase = .aStart) : seqStep p s = phaseAStart s := by simp [seqStep, h]
theorem seqStep_wSb (h : s.phase = .wSb) : seqStep p s = phaseWSb p s := by simp [seqStep, h]
theorem seqStep_aRegaddr (h : s.phase = .aRegaddr) : seqStep p s = phaseARegaddr s := by simp [seqStep, h]
theorem seqStep_wRa (h : s.phase = .wRa) : seqStep p s = phaseWRa p s := by simp [seqStep, h]
theorem seqStep_aDelay (h : s.phase = .aDelay) : seqStep p s = phaseADelay s := by simp [seqStep, h]
theorem seqStep_aWscl (h : s.phase = .aWscl) : seqStep p s = phaseAWscl s := by simp [seqStep, h]
theorem seqStep_wWscl (h : s.phase = .wWscl) : seqStep p s = phaseWWscl p s := by simp [seqStep, h]
theorem seqStep_aWdata (h : s.phase = .aWdata) : seqStep p s = phaseAWdata s := by simp [seqStep, h]
theorem seqStep_wWtx (h : s.phase = .wWtx) : seqStep p s = phaseWWtx p s := by simp [seqStep, h]
theorem seqStep_wWdrain (h : s.phase = .wWdrain) : seqStep p s = phaseWWdrain p s := by simp [seqStep, h]
theorem seqStep_aRscl (h : s.phase = .aRscl) : seqStep p s = phaseARscl s := by simp [seqStep, h]
theorem seqStep_wRscl (h : s.phase = .wRscl) : seqStep p s = phaseWRscl p s := by simp [seqStep, h]
theorem seqStep_aRrs (h : s.phase = .aRrs) : seqStep p s = phaseARrs s := by simp [seqStep, h]
theorem seqStep_wRrx (h : s.phase = .wRrx) : seqStep p s = phaseWRrx p s := by simp [seqStep, h]
theorem seqStep_aBscl (h : s.phase = .aBscl) : seqStep p s = phaseABscl s := by simp [seqStep, h]
theorem seqStep_wBscl (h : s.phase = .wBscl) : seqStep p s = phaseWBscl p s := by simp [seqStep, h]
theorem seqStep_aBrs (h : s.phase = .aBrs) : seqStep p s = phaseABrs s := by simp [seqStep, h]
theorem seqStep_wBrs (h : s.phase = .wBrs) : seqStep p s = phaseWBrs p s := by simp [seqStep, h]
theorem seqStep_wBrx (h : s.phase = .wBrx) : seqStep p s = phaseWBrx p s := by simp [seqStep, h]

end Sys2Proof.Machine
end

