-- ==== Sys2Proof/Laws/Fairness.lean ====
section
/-! SUPPORT. The fairness of 40_timebase.md R110 alone does not end a command: an execution that meets it and in which a START
polls a busy bus once in every 65536 ticks, so that the counter has wrapped to 0 at every poll. That wrap in a window is what
40_timebase.md R108 says does not happen, and it is why 42_transaction_retry.md R176 is claimed of the executions in which
R108 (or R109) holds as well as R110 (log 8). -/

namespace Sys2Proof.Machine

/-- A START in its first window, as it stands after reset, its acceptance and A_BEGIN. -/
def starvedStart : State :=
  { State.reset with opc := opcStart, phase := .wBusy, status := { Status.reset with busy := true, attempts := 1 } }

/-- A bus that is busy for ever. -/
def busyBus : BusPins :=
  { bbusy := true, txrdy := false, rxrdy := false, sclLow := false, startPend := false, rxdata := 0 }

/-- One poll, then 65536 ticks, for ever: a period of 131073 turns. -/
def starvingTurn (n : Nat) : Turn :=
  if n % 131073 = 0 then .seq busyBus else if n % 131073 % 2 = 1 then .timer else .tb

/-- The states of that execution: one sample a period, and the ticks since the last poll. -/
def starvingState (n : Nat) : State :=
  { starvedStart with
    hist := List.replicate ((n + 131072) / 131073) (.sample .bbusy true)
    tick := BitVec.ofNat 16 ((n % 131073 - 1) / 2)
    tickPend := n % 131073 != 0 && n % 131073 % 2 == 0 }

theorem starvingState_phase (n : Nat) : (starvingState n).phase = .wBusy := rfl

theorem starving_isRun : IsRun starvingState starvingTurn := by
  intro n
  by_cases h0 : n % 131073 = 0
  · have h : runTurn (.seq busyBus) (starvingState n) =
        .next ((starvingState n).record (.sample .bbusy true)) := by
      have ht : timedOut Config.tBusy ((starvingState n).record (.sample .bbusy true)) = false := by
        simp [timedOut, starvingState, State.record, h0, Config.tBusy]
      rw [runTurn, seqStep_wBusy (starvingState_phase n), phaseWBusy, waitOn]
      simp [pinOf, busyBus, ht]
    rw [starvingTurn, if_pos h0, h]
    simp [starvingState, State.record, h0, show (n + 1) % 131073 = 1 by omega,
      show (n + 1 + 131072) / 131073 = (n + 131072) / 131073 + 1 by omega, List.replicate_succ']
  · have hh : (n + 1 + 131072) / 131073 = (n + 131072) / 131073 := by omega
    rw [starvingTurn, if_neg h0]
    by_cases h1 : n % 131073 % 2 = 1
    · rw [if_pos (by omega)]
      have h2 : (n + 1) % 131073 = n % 131073 + 1 := by omega
      have h3 : (n % 131073 + 1 - 1) / 2 = (n % 131073 - 1) / 2 := by omega
      have h4 : (n % 131073 + 1) % 2 = 0 := by omega
      simp [runTurn, timerStep, State.setTickPend, starvingState, hh, h2, h4]
      rw [show n % 131073 / 2 = (n % 131073 - 1) / 2 by omega]
    · rw [if_neg (by omega)]
      have h4 : n % 131073 % 2 = 0 := by omega
      by_cases hl : n % 131073 = 131072
      · have h2 : (n + 1) % 131073 = 0 := by omega
        simp [runTurn, tbStep, State.setTick, State.setTickPend, starvingState, hh, h2, hl]
      · have h2 : (n + 1) % 131073 = n % 131073 + 1 := by omega
        have h3 : n % 131073 / 2 = (n % 131073 - 1) / 2 + 1 := by omega
        have h5 : (n % 131073 + 1) % 2 = 1 := by omega
        simp [runTurn, tbStep, State.setTick, State.setTickPend, starvingState, hh, h0, h2, h3, h4, h5,
          BitVec.ofNat_add]

theorem starvingState_zero : starvingState 0 = starvedStart := by simp [starvingState, starvedStart, State.reset]

theorem starvedStart_inv : Inv starvedStart := by constructor <;> decide

/-- Fairness alone (40_timebase.md R110) does not end a running command: this execution meets it, and its window sees a wrap,
against R108. -/
theorem fairness_alone_ends_no_command :
    ∃ (σ : Nat → State) (τ : Nat → Turn), IsRun σ τ ∧ Inv (σ 0) ∧ TimerKeepsFiring τ ∧ TbFair σ τ ∧ SeqFair σ τ ∧
      (∀ n, (σ n).phase ≠ .idle) ∧ ¬ NoWaitSeesAWrap σ τ := by
  have hi : Inv (starvingState 0) := by
    rw [starvingState_zero]
    exact starvedStart_inv
  have ht : TimerKeepsFiring starvingTurn := fun n =>
    ⟨131073 * n + 1, by omega, by
      have h : (131073 * n + 1) % 131073 = 1 := by omega
      simp only [starvingTurn, h]; rfl⟩
  have hb : TbFair starvingState starvingTurn := fun n _ =>
    ⟨131073 * n + 2, by omega, by
      have h : (131073 * n + 2) % 131073 = 2 := by omega
      simp only [starvingTurn, h]; rfl⟩
  have hs : SeqFair starvingState starvingTurn := fun n _ =>
    ⟨131073 * n, by omega, busyBus, by
      have h : 131073 * n % 131073 = 0 := by omega
      simp only [starvingTurn, h]; rfl⟩
  have hn : ∀ n, (starvingState n).phase ≠ .idle := fun n h => by
    rw [starvingState_phase] at h
    cases h
  have hw : ¬ NoWaitSeesAWrap starvingState starvingTurn := fun h =>
    h 131072 (by simp [starvingTurn, starvingState, tickAck]) rfl (by simp [starvingState])
  exact ⟨starvingState, starvingTurn, starving_isRun, hi, ht, hb, hs, hn, hw⟩

/-- 42_transaction_retry.md R176 to the letter: in every execution that meets the fairness of R110 every command ends. -/
def EveryFairExecutionEnds : Prop :=
  ∀ (σ : Nat → State) (τ : Nat → Turn), IsRun σ τ → Inv (σ 0) → TimerKeepsFiring τ → TbFair σ τ → SeqFair σ τ →
    ∀ n, ∃ m, n ≤ m ∧ (σ m).phase = .idle

/-- R102 and R107 refute that reading (log 8). -/
theorem not_everyFairExecutionEnds : ¬ EveryFairExecutionEnds := by
  intro h
  obtain ⟨σ, τ, hr, hi, ht, hb, hs, hn, -⟩ := fairness_alone_ends_no_command
  obtain ⟨m, -, hm⟩ := h σ τ hr hi ht hb hs 0
  exact hn m hm

end Sys2Proof.Machine
end

