-- ==== Sys2Proof/Laws/HostProgram.lean ====
section
/-! SUPPORT. How a host program runs (30_encoding.md R78, R79): what one line does, and that `wait_idle` reads STATUS again while
BUSY reads 1 and ends with the first value in which BUSY is 0. -/

namespace Sys2Proof.Machine

variable {h h' : HostRun} {rest : List HostItem}

theorem runTurn_rdStatus (s : State) : runTurn (lineTurn (.rd .status)) s = .next (s.setRdata s.status.word) := rfl

theorem extract_one (w : Word) (n : Nat) : (w.extractLsb' n 1 == 1#1) = w.getLsbD n := by
  have h : w.extractLsb' n 1 = BitVec.ofBool (w.getLsbD n) := by
    apply BitVec.eq_of_getLsbD_eq
    intro i hi
    obtain rfl : i = 0 := by omega
    simp
  rw [h]
  cases w.getLsbD n <;> decide

theorem readsBusy_statusWord (st : Status) : readsBusy st.word = st.busy := by
  rw [readsBusy, extract_one]
  exact BitVec.getLsbD_append.trans (by simp)

/-- The Boolean of `run OP` is OK, where the STATUS word is the last one read. -/
theorem runResult_statusWord (st : Status) : runResult st.word = st.ok := by
  rw [runResult, extract_one]
  exact BitVec.getLsbD_append.trans (BitVec.getLsbD_append.trans (BitVec.getLsbD_append.trans (by simp)))

/-- One pass of `wait_idle`: it reads STATUS, and stands there again exactly if BUSY = 1. -/
theorem hostLineStep_waitIdle (ht : h.todo = .waitIdle :: rest) :
    hostLineStep h = .next {
      todo := if h.state.status.busy then .waitIdle :: rest else rest
      state := h.state.setRdata h.state.status.word
      reads := h.reads ++ [(.status, h.state.status.word)] } := by
  simp [hostLineStep, ht, nextLine, afterLine, runTurn_rdStatus, lineResult, readsBusy_statusWord]

theorem afterLine_length (v : Word) (p : List HostItem) : (afterLine v p).length ≤ p.length := by
  rcases p with _ | ⟨⟨⟩, _⟩ <;> simp [afterLine]
  split <;> simp

theorem runProgram_cons {x : Option Turn} {xs : List (Option Turn)} (hr : runProgram (x :: xs) h = .next h') :
    ∃ g, programStep x h = .next g ∧ runProgram xs g = .next h' := by
  rw [runProgram] at hr
  split at hr
  · exact ⟨_, ‹_›, hr⟩
  · cases hr
  · cases hr

theorem runProgram_append {xs ys : List (Option Turn)} (hr : runProgram xs h = .next h') :
    runProgram (xs ++ ys) h = runProgram ys h' := by
  induction xs generalizing h with
  | nil => cases hr; rfl
  | cons x xs ih =>
    obtain ⟨g, hg, hrun⟩ := runProgram_cons hr
    rw [List.cons_append, runProgram, hg]
    exact ih hrun

/-- A turn of another agent leaves the program and its results. -/
theorem programStep_other {t : Turn} (hs : programStep (some t) h = .next h') : h'.todo = h.todo ∧ h'.reads = h.reads := by
  rw [programStep] at hs
  split at hs
  · cases hs; exact ⟨rfl, rfl⟩
  · cases hs
  · cases hs

theorem programStep_length {x : Option Turn} (hs : programStep x h = .next h') : h'.todo.length ≤ h.todo.length := by
  cases x with
  | some t => rw [(programStep_other hs).1]
  | none =>
    rw [programStep, hostLineStep] at hs
    split at hs
    · cases hs; exact Nat.le_refl _
    · split at hs
      · cases hs; exact afterLine_length _ _
      · cases hs
      · cases hs

theorem runProgram_length {xs : List (Option Turn)} (hr : runProgram xs h = .next h') : h'.todo.length ≤ h.todo.length := by
  induction xs generalizing h with
  | nil => cases hr; exact Nat.le_refl _
  | cons x xs ih =>
    obtain ⟨g, hg, hrun⟩ := runProgram_cons hr
    exact Nat.le_trans (ih hrun) (programStep_length hg)

/-- For as long as a program stands in `wait_idle` it reads STATUS and nothing else, and every value has BUSY = 1. -/
theorem runProgram_waitIdle {xs : List (Option Turn)} (ht : h.todo = .waitIdle :: rest) (hr : runProgram xs h = .next h')
    (ht' : h'.todo = .waitIdle :: rest) :
    ∃ vs : List Word, h'.reads = h.reads ++ vs.map (.status, ·) ∧ ∀ v ∈ vs, readsBusy v = true := by
  induction xs generalizing h with
  | nil => cases hr; exact ⟨[], by simp, by simp⟩
  | cons x xs ih =>
    obtain ⟨g, hg, hrun⟩ := runProgram_cons hr
    cases x with
    | some t =>
      obtain ⟨e1, e2⟩ := programStep_other hg
      rw [← e2]
      exact ih (e1.trans ht) hrun
    | none =>
      rw [programStep, hostLineStep_waitIdle ht] at hg
      cases hb : h.state.status.busy with
      | true =>
        rw [hb] at hg
        cases hg
        obtain ⟨vs, hv, hbusy⟩ := ih rfl hrun
        refine ⟨h.state.status.word :: vs, by simpa using hv, fun v hm => ?_⟩
        rcases List.mem_cons.1 hm with rfl | hm
        · rw [readsBusy_statusWord, hb]
        · exact hbusy v hm
      | false =>
        rw [hb] at hg
        cases hg
        have hlen := runProgram_length hrun
        simp [ht'] at hlen

theorem waitIdleReads_append {vs : List Word} {w : Word} (hv : ∀ v ∈ vs, readsBusy v = true) (hw : readsBusy w = false) :
    waitIdleReads (vs ++ [w]) = true := by
  induction vs with
  | nil => simp [waitIdleReads, hw]
  | cons v vs ih =>
    have hrest := ih fun u hu => hv u (List.mem_cons_of_mem _ hu)
    cases hvs : vs ++ [w] with
    | nil => simp at hvs
    | cons u us =>
      rw [hvs] at hrest
      rw [List.cons_append, hvs, waitIdleReads, hrest, hv v (List.mem_cons_self ..)]
      · rfl
      · simp

/-- R79: whatever the other agents do, a `wait_idle` that finds BUSY = 0 ends there, with the rest of the program before it; the
values it read are STATUS words with BUSY = 1 and at last one with BUSY = 0, whose bit 2 is the command's OK. -/
theorem wait_idle_ends {xs : List (Option Turn)} (ht : h.todo = .waitIdle :: rest) (hr : runProgram xs h = .next h')
    (ht' : h'.todo = .waitIdle :: rest) (hb : h'.state.status.busy = false) :
    ∃ vs : List Word, waitIdleReads vs = true ∧ vs.getLast? = some h'.state.status.word ∧
      runProgram (xs ++ [none]) h = .next {
        todo := rest
        state := h'.state.setRdata h'.state.status.word
        reads := h.reads ++ vs.map (.status, ·) } := by
  obtain ⟨vs, hv, hbusy⟩ := runProgram_waitIdle ht hr ht'
  refine ⟨vs ++ [h'.state.status.word], waitIdleReads_append hbusy (by rw [readsBusy_statusWord, hb]), by simp, ?_⟩
  rw [runProgram_append hr, runProgram, programStep, hostLineStep_waitIdle ht', hb]
  simp [runProgram, hv]

theorem programResult_of_reads {vs : List Word} {st : Status} (hl : vs.getLast? = some st.word)
    (hr : h'.reads = h.reads ++ vs.map (.status, ·)) : programResult h' = some st.ok := by
  obtain ⟨us, rfl⟩ := List.getLast?_eq_some_iff.1 hl
  simp [programResult, lastStatus, hr, runResult_statusWord]

/-- R79: after the `wait_idle` of a `run OP` the result Boolean is STATUS.OK as the loop found it. -/
theorem wait_idle_result {xs : List (Option Turn)} (ht : h.todo = .waitIdle :: rest) (hr : runProgram xs h = .next h')
    (ht' : h'.todo = .waitIdle :: rest) (hb : h'.state.status.busy = false) :
    ∃ g : HostRun, runProgram (xs ++ [none]) h = .next g ∧ g.todo = rest ∧ programResult g = some h'.state.status.ok := by
  obtain ⟨vs, -, hl, hrun⟩ := wait_idle_ends ht hr ht' hb
  exact ⟨_, hrun, rfl, programResult_of_reads (h := h) hl rfl⟩

end Sys2Proof.Machine
end

