-- ==== Sys2Proof/Laws/PerInstr.lean ====
section
/-! SUPPORT. Statements per instruction. Family `Row`: the encoding of a well-formed instruction lies in the instruction's row of
spec/opcode_table.json (its bits under the row's mask are the row's match). -/

namespace Sys2Proof.Laws

/-- The encoding of `i` matches the mask and match of its opcode-table row. -/
def Row.Statement (i : Instr) : Prop :=
  WellFormed i = true → (encode i).key &&& (opcodeRow i).1 = (opcodeRow i).2

/-- The low four bits of a CMD word are its opcode. -/
theorem cmdWord_and (opc m : BitVec 4) (ign : BitVec 28) : cmdWord opc ign &&& m.setWidth 32 = (opc &&& m).setWidth 32 := by
  apply BitVec.eq_of_getLsbD_eq
  intro i hi
  rw [cmdWord, BitVec.getLsbD_and, BitVec.getLsbD_append, BitVec.getLsbD_setWidth, BitVec.getLsbD_setWidth,
    BitVec.getLsbD_and]
  by_cases h : i < 4
  · simp [h, hi]
  · simp [h, hi, BitVec.getLsbD_of_ge m i (by omega)]

theorem Row.init (ign : BitVec 28) : Row.Statement (.init ign) := by
  intro _
  exact cmdWord_and 0x1#4 0xF#4 ign
theorem Row.start (ign : BitVec 28) : Row.Statement (.start ign) := by
  intro _
  exact cmdWord_and 0x2#4 0xF#4 ign
theorem Row.write (ign : BitVec 28) : Row.Statement (.write ign) := by
  intro _
  exact cmdWord_and 0x3#4 0xF#4 ign
theorem Row.readBurst (ign : BitVec 28) : Row.Statement (.readBurst ign) := by
  intro _
  exact cmdWord_and 0x4#4 0xF#4 ign
theorem Row.readByte (ign : BitVec 28) : Row.Statement (.readByte ign) := by
  intro _
  exact cmdWord_and 0x5#4 0xF#4 ign
theorem Row.cmdRsvd0 (ign : BitVec 28) : Row.Statement (.cmdRsvd0 ign) := by
  intro _
  exact cmdWord_and 0x0#4 0xF#4 ign
theorem Row.cmdRsvd67 (opc : BitVec 4) (ign : BitVec 28) : Row.Statement (.cmdRsvd67 opc ign) := by
  intro h
  refine (cmdWord_and opc 0xE#4 ign).trans ?_
  change WellFormed (.cmdRsvd67 opc 0) = true at h
  change (opc &&& 0xE#4).setWidth 32 = 0x6#32
  revert opc
  decide
theorem Row.cmdRsvd8F (opc : BitVec 4) (ign : BitVec 28) : Row.Statement (.cmdRsvd8F opc ign) := by
  intro h
  refine (cmdWord_and opc 0x8#4 ign).trans ?_
  change WellFormed (.cmdRsvd8F opc 0) = true at h
  change (opc &&& 0x8#4).setWidth 32 = 0x8#32
  revert opc
  decide
theorem Row.rdCmd : Row.Statement (.rdCmd) := by
  intro _
  rfl
theorem Row.wrCmd (w : Word) : Row.Statement (.wrCmd w) := by
  intro _
  change (encode (Instr.wrCmd 0)).key &&& (opcodeRow (Instr.wrCmd 0)).1 = (opcodeRow (Instr.wrCmd 0)).2
  decide
theorem Row.rdStatus : Row.Statement (.rdStatus) := by
  intro _
  rfl
theorem Row.wrStatus (w : Word) : Row.Statement (.wrStatus w) := by
  intro _
  change (encode (Instr.wrStatus 0)).key &&& (opcodeRow (Instr.wrStatus 0)).1 = (opcodeRow (Instr.wrStatus 0)).2
  decide
theorem Row.rdSla : Row.Statement (.rdSla) := by
  intro _
  rfl
theorem Row.wrSla (w : Word) : Row.Statement (.wrSla w) := by
  intro _
  change (encode (Instr.wrSla 0)).key &&& (opcodeRow (Instr.wrSla 0)).1 = (opcodeRow (Instr.wrSla 0)).2
  decide
theorem Row.rdRega : Row.Statement (.rdRega) := by
  intro _
  rfl
theorem Row.wrRega (w : Word) : Row.Statement (.wrRega w) := by
  intro _
  change (encode (Instr.wrRega 0)).key &&& (opcodeRow (Instr.wrRega 0)).1 = (opcodeRow (Instr.wrRega 0)).2
  decide
theorem Row.rdLen : Row.Statement (.rdLen) := by
  intro _
  rfl
theorem Row.wrLen (w : Word) : Row.Statement (.wrLen w) := by
  intro _
  change (encode (Instr.wrLen 0)).key &&& (opcodeRow (Instr.wrLen 0)).1 = (opcodeRow (Instr.wrLen 0)).2
  decide
theorem Row.rdTick : Row.Statement (.rdTick) := by
  intro _
  rfl
theorem Row.wrTick (w : Word) : Row.Statement (.wrTick w) := by
  intro _
  change (encode (Instr.wrTick 0)).key &&& (opcodeRow (Instr.wrTick 0)).1 = (opcodeRow (Instr.wrTick 0)).2
  decide
theorem Row.rdBuf (i : BitVec 5) : Row.Statement (.rdBuf i) := by
  intro _
  revert i
  decide
theorem Row.wrBuf (i : BitVec 5) (w : Word) : Row.Statement (.wrBuf i w) := by
  intro h
  clear h
  change (encode (Instr.wrBuf i 0)).key &&& (opcodeRow (Instr.wrBuf i 0)).1 = (opcodeRow (Instr.wrBuf i 0)).2
  revert i
  decide
theorem Row.rdRsvd18 (off : Byte) : Row.Statement (.rdRsvd18 off) := by
  change WellFormed (Instr.rdRsvd18 off) = true → (encode (Instr.rdRsvd18 off)).key &&& (opcodeRow (Instr.rdRsvd18 off)).1 = (opcodeRow (Instr.rdRsvd18 off)).2
  revert off
  decide
theorem Row.rdRsvd20 (off : Byte) : Row.Statement (.rdRsvd20 off) := by
  change WellFormed (Instr.rdRsvd20 off) = true → (encode (Instr.rdRsvd20 off)).key &&& (opcodeRow (Instr.rdRsvd20 off)).1 = (opcodeRow (Instr.rdRsvd20 off)).2
  revert off
  decide
theorem Row.rdRsvd40 (off : Byte) : Row.Statement (.rdRsvd40 off) := by
  change WellFormed (Instr.rdRsvd40 off) = true → (encode (Instr.rdRsvd40 off)).key &&& (opcodeRow (Instr.rdRsvd40 off)).1 = (opcodeRow (Instr.rdRsvd40 off)).2
  revert off
  decide
theorem Row.wrRsvd18 (off : Byte) (w : Word) : Row.Statement (.wrRsvd18 off w) := by
  change WellFormed (Instr.wrRsvd18 off 0) = true → (encode (Instr.wrRsvd18 off 0)).key &&& (opcodeRow (Instr.wrRsvd18 off 0)).1 = (opcodeRow (Instr.wrRsvd18 off 0)).2
  revert off
  decide
theorem Row.wrRsvd20 (off : Byte) (w : Word) : Row.Statement (.wrRsvd20 off w) := by
  change WellFormed (Instr.wrRsvd20 off 0) = true → (encode (Instr.wrRsvd20 off 0)).key &&& (opcodeRow (Instr.wrRsvd20 off 0)).1 = (opcodeRow (Instr.wrRsvd20 off 0)).2
  revert off
  decide
theorem Row.wrRsvd40 (off : Byte) (w : Word) : Row.Statement (.wrRsvd40 off w) := by
  change WellFormed (Instr.wrRsvd40 off 0) = true → (encode (Instr.wrRsvd40 off 0)).key &&& (opcodeRow (Instr.wrRsvd40 off 0)).1 = (opcodeRow (Instr.wrRsvd40 off 0)).2
  revert off
  decide
theorem Row.hostfaultOffOdd (data : Option Word) (off : Byte) : Row.Statement (.hostfaultOffOdd data off) := by
  cases data with
  | none =>
    change WellFormed (Instr.hostfaultOffOdd none off) = true → (encode (Instr.hostfaultOffOdd none off)).key &&& (opcodeRow (Instr.hostfaultOffOdd none off)).1 = (opcodeRow (Instr.hostfaultOffOdd none off)).2
    revert off
    decide
  | some w =>
    change WellFormed (Instr.hostfaultOffOdd (some 0) off) = true → (encode (Instr.hostfaultOffOdd (some 0) off)).key &&& (opcodeRow (Instr.hostfaultOffOdd (some 0) off)).1 = (opcodeRow (Instr.hostfaultOffOdd (some 0) off)).2
    revert off
    decide
theorem Row.hostfaultOff2 (data : Option Word) (off : Byte) : Row.Statement (.hostfaultOff2 data off) := by
  cases data with
  | none =>
    change WellFormed (Instr.hostfaultOff2 none off) = true → (encode (Instr.hostfaultOff2 none off)).key &&& (opcodeRow (Instr.hostfaultOff2 none off)).1 = (opcodeRow (Instr.hostfaultOff2 none off)).2
    revert off
    decide
  | some w =>
    change WellFormed (Instr.hostfaultOff2 (some 0) off) = true → (encode (Instr.hostfaultOff2 (some 0) off)).key &&& (opcodeRow (Instr.hostfaultOff2 (some 0) off)).1 = (opcodeRow (Instr.hostfaultOff2 (some 0) off)).2
    revert off
    decide

end Sys2Proof.Laws
end

