-- ==== Sys2Proof/Laws/Sequencer.lean ====
section
/-! SUPPORT. Everything a completed SEQ step can do, once: the transition table of 42_transaction_retry.md R175 as a relation, and
the lemma that a step follows it. Later proofs split on the relation, and unfold no phase. -/

namespace Sys2Proof.Machine

variable {s t : State} {p : BusPins}

/-- The moves of SEQ (42_transaction_retry.md R175): one constructor per row, and the three rows of every wait that do not
succeed said once, over the table of wait sites. -/
inductive SeqMove (p : BusPins) (s : State) : State → Prop
  | idle (h : s.phase = .idle) : SeqMove p s s
  | aInit (h : s.phase = .aInit) :
      SeqMove p s { s with
        status := { s.status with init := true, ok := true, failkind := 0, failsite := 0, done := true, busy := false }
        phase := .idle, hist := s.hist ++ [.act .cfgBus] }
  | aBegin (h : s.phase = .aBegin) :
      SeqMove p s { s with status := { s.status with attempts := s.status.attempts + 1 }, tick := 0, phase := .wBusy }
  | aStart (h : s.phase = .aStart) :
      SeqMove p s { s with
        tick := 0, phase := .wSb
        hist := s.hist ++ [.act .clrTxrdy, .act (.setSla s.sla), .act (.setDir 0), .act .genStart] }
  | aRegaddr (h : s.phase = .aRegaddr) :
      SeqMove p s { s with tick := 0, phase := .wRa, hist := s.hist ++ [.act (.writeDr s.rega)] }
  | aDelayCounts (h : s.phase = .aDelay) (hd : 1 < s.dly) : SeqMove p s { s with dly := s.dly - 1 }
  | aDelayEnds (h : s.phase = .aDelay) (hd : s.dly ≤ 1) : SeqMove p s { s with dly := 0, phase := .aBegin }
  | aWscl (h : s.phase = .aWscl) : SeqMove p s { s with tick := 0, phase := .wWscl }
  | aWdata (h : s.phase = .aWdata) : SeqMove p s { s with tick := 0, idx := 0, phase := .wWtx }
  | aRscl (h : s.phase = .aRscl) : SeqMove p s { s with tick := 0, phase := .wRscl }
  | aRrs (h : s.phase = .aRrs) :
      SeqMove p s { s with
        phase := .wRrx, hist := s.hist ++ [.act .clrTxrdy, .act (.setDir 1), .act .genStart] }
  | aBscl (h : s.phase = .aBscl) : SeqMove p s { s with tick := 0, phase := .wBscl }
  | aBrs (h : s.phase = .aBrs) :
      SeqMove p s { s with
        phase := .wBrs, hist := s.hist ++ [.act .clrTxrdy, .act (.setDir 1), .act .genStart] }
  | spins (r : SiteRow) (h : siteRow s.phase = some r) (hp : pinOf p r.flag ≠ r.value) (ht : s.tick.toNat < r.budget) :
      SeqMove p s { s with hist := s.hist ++ [.sample r.flag (pinOf p r.flag)] }
  | attemptFails (r : SiteRow) (h : siteRow s.phase = some r) (hp : pinOf p r.flag ≠ r.value)
      (ht : r.budget ≤ s.tick.toNat) (hs : r.site ≤ 3) :
      SeqMove p s (attemptFail r.kind r.site { s with hist := s.hist ++ [.sample r.flag (pinOf p r.flag)] })
  | commandFails (r : SiteRow) (h : siteRow s.phase = some r) (hp : pinOf p r.flag ≠ r.value)
      (ht : r.budget ≤ s.tick.toNat) (hs : ¬ r.site ≤ 3) :
      SeqMove p s (finishFail r.kind r.site { s with hist := s.hist ++ [.sample r.flag (pinOf p r.flag)] })
  | busFree (h : s.phase = .wBusy) (hp : p.bbusy = false) :
      SeqMove p s { s with hist := s.hist ++ [.sample .bbusy false], phase := .aStart }
  | started (h : s.phase = .wSb) (hp : p.txrdy = true) :
      SeqMove p s { s with hist := s.hist ++ [.sample .txrdy true], phase := .aRegaddr }
  | startDoneStart (h : s.phase = .wRa) (hp : p.txrdy = true) (ho : s.opc = opcStart) :
      SeqMove p s (finishOk { s with hist := s.hist ++ [.sample .txrdy true] })
  | startDoneWrite (h : s.phase = .wRa) (hp : p.txrdy = true) (ho : s.opc = opcWrite) :
      SeqMove p s { s with hist := s.hist ++ [.sample .txrdy true], phase := .aWscl }
  | startDoneBurst (h : s.phase = .wRa) (hp : p.txrdy = true) (ho : s.opc = opcReadBurst) :
      SeqMove p s { s with hist := s.hist ++ [.sample .txrdy true], phase := .aRscl }
  | startDoneByte (h : s.phase = .wRa) (hp : p.txrdy = true) (ho : s.opc = opcReadByte) :
      SeqMove p s { s with hist := s.hist ++ [.sample .txrdy true], phase := .aBscl }
  | writeSettled (h : s.phase = .wWscl) (hp : p.sclLow = false) :
      SeqMove p s { s with hist := s.hist ++ [.sample .sclLow false], phase := .aWdata }
  | byteSent (b : Byte) (h : s.phase = .wWtx) (hp : p.txrdy = true) (hb : s.buf[s.idx]? = some b) :
      SeqMove p s { s with
        hist := s.hist ++ [.sample .txrdy true, .act (.writeDr b)], idx := s.idx + 1
        phase := if s.idx + 1 < s.len.toNat then .wWtx else .wWdrain }
  | drained (h : s.phase = .wWdrain) (hp : p.txrdy = true) :
      SeqMove p s (finishOk { s with hist := s.hist ++ [.sample .txrdy true, .act .genStop] })
  | burstSettled (h : s.phase = .wRscl) (hp : p.sclLow = false) :
      SeqMove p s { s with hist := s.hist ++ [.sample .sclLow false], phase := .aRrs }
  | byteSettled (h : s.phase = .wBscl) (hp : p.sclLow = false) :
      SeqMove p s { s with hist := s.hist ++ [.sample .sclLow false], phase := .aBrs }
  | repeatedStartCleared (h : s.phase = .wBrs) (hp : p.startPend = false) :
      SeqMove p s { s with hist := s.hist ++ [.sample .startPend false, .act .genNackStop], phase := .wBrx }
  | received (h : s.phase = .wRrx ∨ s.phase = .wBrx) (hp : p.rxrdy = true) :
      SeqMove p s (finishOk { s with
        hist := s.hist ++ [.sample .rxrdy true, .act (.readDr p.rxdata)], buf := s.buf.set 0 p.rxdata })

/-- A wait in which the predicate holds goes its success way. -/
theorem waitOn_ok {f : Flag} {v : Bool} {b : Nat} {ok tt : State → Result} (h : pinOf p f = v) :
    waitOn f v b p ok tt s = ok { s with hist := s.hist ++ [.sample f v] } := by
  subst h; simp [waitOn, State.record]

/-- A completed wait, given what its success does. -/
theorem waitOn_next {r : SiteRow} (hr : siteRow s.phase = some r) {ok : State → Result}
    (hok : pinOf p r.flag = r.value → ok { s with hist := s.hist ++ [.sample r.flag r.value] } = .next t → SeqMove p s t)
    (h : waitOn r.flag r.value r.budget p ok
      (fun s => .next (if r.site ≤ 3 then attemptFail r.kind r.site s else finishFail r.kind r.site s)) s = .next t) :
    SeqMove p s t := by
  rcases waitOn_cases r.flag r.value r.budget p ok
    (fun s => .next (if r.site ≤ 3 then attemptFail r.kind r.site s else finishFail r.kind r.site s)) s with c | c | c
  · rw [c.2] at h
    exact hok c.1 h
  · rw [c.2.2] at h
    by_cases hs : r.site ≤ 3
    · simp only [hs, if_true, Host.Outcome.next.injEq] at h
      exact h ▸ .attemptFails r hr c.1 c.2.1 hs
    · simp only [hs, if_false, Host.Outcome.next.injEq] at h
      exact h ▸ .commandFails r hr c.1 c.2.1 hs
  · rw [c.2.2] at h
    injection h with h
    exact h ▸ .spins r hr c.1 c.2.1

/-- Every completed SEQ step is a move of the table. -/
theorem seqStep_move (h : seqStep p s = .next t) : SeqMove p s t := by
  cases hp : s.phase with
  | idle => rw [seqStep_idle hp] at h; injection h with h; exact h ▸ .idle hp
  | aInit => rw [seqStep_aInit hp] at h; injection h with h; exact h ▸ .aInit hp
  | aBegin => rw [seqStep_aBegin hp] at h; injection h with h; exact h ▸ .aBegin hp
  | aStart =>
    rw [seqStep_aStart hp] at h; injection h with h
    subst h; convert SeqMove.aStart hp using 1
    simp [State.emit, State.record, State.setPhase, State.resetWindow, State.setTick, slaveAddress]
  | aRegaddr => rw [seqStep_aRegaddr hp] at h; injection h with h; exact h ▸ .aRegaddr hp
  | aDelay =>
    rw [seqStep_aDelay hp, phaseADelay] at h
    split at h <;> injection h with h
    · exact h ▸ .aDelayCounts hp ‹_›
    · exact h ▸ .aDelayEnds hp (by omega)
  | aWscl => rw [seqStep_aWscl hp] at h; injection h with h; exact h ▸ .aWscl hp
  | aWdata => rw [seqStep_aWdata hp] at h; injection h with h; exact h ▸ .aWdata hp
  | aRscl => rw [seqStep_aRscl hp] at h; injection h with h; exact h ▸ .aRscl hp
  | aRrs =>
    rw [seqStep_aRrs hp] at h; injection h with h
    subst h; convert SeqMove.aRrs hp using 1
    simp [emitRepeatedStart, State.emit, State.record, State.setPhase]
  | aBscl => rw [seqStep_aBscl hp] at h; injection h with h; exact h ▸ .aBscl hp
  | aBrs =>
    rw [seqStep_aBrs hp] at h; injection h with h
    subst h; convert SeqMove.aBrs hp using 1
    simp [emitRepeatedStart, State.emit, State.record, State.setPhase]
  | wBusy =>
    rw [seqStep_wBusy hp] at h
    refine waitOn_next (r := ⟨1, .bbusy, false, 50, .busBusy⟩) (by rw [hp]; rfl) (fun hv hk => ?_) h
    injection hk with hk; exact hk ▸ .busFree hp hv
  | wSb =>
    rw [seqStep_wSb hp] at h
    refine waitOn_next (r := ⟨2, .txrdy, true, 50, .startCondition⟩) (by rw [hp]; rfl) (fun hv hk => ?_) h
    injection hk with hk; exact hk ▸ .started hp hv
  | wRa =>
    rw [seqStep_wRa hp] at h
    refine waitOn_next (r := ⟨3, .txrdy, true, 50, .addressAck⟩) (ok := startDone) (by rw [hp]; rfl) (fun hv hk => ?_) h
    rcases startDone_cases hk with c | c | c | c <;> rw [c.2]
    · exact .startDoneStart hp hv c.1
    · exact .startDoneWrite hp hv c.1
    · exact .startDoneBurst hp hv c.1
    · exact .startDoneByte hp hv c.1
  | wWscl =>
    rw [seqStep_wWscl hp] at h
    refine waitOn_next (r := ⟨4, .sclLow, false, 10, .clockStretch⟩) (by rw [hp]; rfl) (fun hv hk => ?_) h
    injection hk with hk; exact hk ▸ .writeSettled hp hv
  | wWtx =>
    rw [seqStep_wWtx hp] at h
    refine waitOn_next (r := ⟨5, .txrdy, true, 100, .data⟩) (ok := sendDataByte) (by rw [hp]; rfl) (fun hv hk => ?_) h
    cases hb : s.buf[s.idx]? with
    | none => simp [sendDataByte, dataByte, hb] at hk
    | some b =>
      have hk := (sendDataByte_some (s := { s with hist := s.hist ++ [.sample .txrdy true] }) hb).symm.trans hk
      injection hk with hk
      subst hk; convert SeqMove.byteSent b hp hv hb using 1
      simp [State.emit, State.record, State.setIdx, State.setPhase]
  | wWdrain =>
    rw [seqStep_wWdrain hp] at h
    refine waitOn_next (r := ⟨6, .txrdy, true, 100, .data⟩) (by rw [hp]; rfl) (fun hv hk => ?_) h
    injection hk with hk
    subst hk; convert SeqMove.drained hp hv using 1
    simp [State.emit, State.record]
  | wRscl =>
    rw [seqStep_wRscl hp] at h
    refine waitOn_next (r := ⟨7, .sclLow, false, 100, .clockStretch⟩) (by rw [hp]; rfl) (fun hv hk => ?_) h
    injection hk with hk; exact hk ▸ .burstSettled hp hv
  | wRrx =>
    rw [seqStep_wRrx hp] at h
    refine waitOn_next (r := ⟨8, .rxrdy, true, 100, .data⟩) (by rw [hp]; rfl) (fun hv hk => ?_) h
    injection hk with hk
    subst hk; convert SeqMove.received (.inl hp) hv using 1
    simp [State.receiveByte, State.emit, State.record, State.setBuf]
  | wBscl =>
    rw [seqStep_wBscl hp] at h
    refine waitOn_next (r := ⟨9, .sclLow, false, 100, .clockStretch⟩) (by rw [hp]; rfl) (fun hv hk => ?_) h
    injection hk with hk; exact hk ▸ .byteSettled hp hv
  | wBrs =>
    rw [seqStep_wBrs hp] at h
    refine waitOn_next (r := ⟨10, .startPend, false, 100, .data⟩) (by rw [hp]; rfl) (fun hv hk => ?_) h
    injection hk with hk
    subst hk; convert SeqMove.repeatedStartCleared hp hv using 1
    simp [State.emit, State.record, State.setPhase]
  | wBrx =>
    rw [seqStep_wBrx hp] at h
    refine waitOn_next (r := ⟨11, .rxrdy, true, 100, .data⟩) (by rw [hp]; rfl) (fun hv hk => ?_) h
    injection hk with hk
    subst hk; convert SeqMove.received (.inr hp) hv using 1
    simp [State.receiveByte, State.emit, State.record, State.setBuf]

end Sys2Proof.Machine
end

