-- ==== Sys2Proof/Laws/Polling.lean ====
section
/-! SUPPORT. What the polling assumption gives (40_timebase.md R109, 42_transaction_retry.md R177): a wait entered below its budget
fails with the counter at exactly its budget, and the ticks inside the windows of one command are bounded by the sums of
R177, and by no more than one further tick for each step that leaves a shared window open at its budget (log 15). -/

namespace Sys2Proof.Machine

variable {s t u : State} {p : BusPins} {x : Turn}

/-! ### Turns that are not of SEQ, while a command runs -/

/-- What a turn of the host, TIMER or TB can do to what the windows are counted from: nothing but count a tick. -/
structure KeepsCommand (s t : State) : Prop where
  opc : t.opc = s.opc
  phase : t.phase = s.phase
  busy : t.status.busy = s.status.busy
  attempts : t.status.attempts = s.status.attempts
  len : t.len = s.len
  idx : t.idx = s.idx
  tick : t.tick = s.tick

theorem exec_keepsCommand {i : Instr} (hb : s.status.busy = true) (h : exec i s = .next t) : KeepsCommand s t := by
  cases i <;> simp only [exec] at h <;> first
    | cases h; done
    | (injection h with h
       subst h
       constructor <;>
       simp [requestUnlessBusy, requestReserved, requestCommand, whileIdle, hb, reject, State.setRdata, State.setStatus,
         Status.rejected, readReserved])

/-- A turn of a running command that is neither SEQ's nor reset keeps it, or is a counted tick that adds one to TICK. -/
theorem otherTurn_cases (hb : s.status.busy = true) (hr : x ≠ .reset) (hs : isSeq x = false) (h : runTurn x s = .next t) :
    (tickAck x s = false ∧ KeepsCommand s t) ∨
    (tickAck x s = true ∧ KeepsCommand { s with tick := s.tick + 1 } t) := by
  cases x with
  | reset => exact absurd rfl hr
  | seq p => cases hs
  | host a =>
    refine .inl ⟨rfl, ?_⟩
    simp only [runTurn, hostStep] at h
    split at h
    · exact exec_keepsCommand hb h
    · cases h
  | timer =>
    injection h with h
    exact .inl ⟨rfl, h ▸ ⟨rfl, rfl, rfl, rfl, rfl, rfl, rfl⟩⟩
  | tb =>
    injection h with h
    cases hp : s.tickPend
    · exact .inl ⟨by simp [tickAck, hp], by rw [← h, tbStep_not_pending hp]; exact ⟨rfl, rfl, rfl, rfl, rfl, rfl, rfl⟩⟩
    · exact .inr ⟨by simp [tickAck, hp], by rw [← h, tbStep_pending hp]; exact ⟨rfl, rfl, rfl, rfl, rfl, rfl, rfl⟩⟩

theorem tickAck_seq : tickAck (.seq p) s = false := rfl

/-! ### R109: a polled wait fails at its budget -/

/-- No failure stays in the wait it comes from. -/
theorem attemptFail_leaves {r : SiteRow} (hr : siteRow s.phase = some r) (k : FailKind) (site : BitVec 4) (h : List BusEvent) :
    (attemptFail k site { s with hist := h }).phase ≠ s.phase := by
  intro e
  rcases attemptFail_cases k site { s with hist := h } with c | c | c
  · rw [c.2, finishFail] at e
    rw [← e] at hr; cases hr
  · rw [c.2.2] at e
    rw [← e] at hr; cases hr
  · rw [c.2.2.2] at e
    rw [← e] at hr; cases hr

/-- A step of a wait with the predicate false spins below the budget, or leaves the wait at it. -/
theorem seqStep_waiting {r : SiteRow} (hr : siteRow s.phase = some r) (hp : pinOf p r.flag ≠ r.value)
    (h : seqStep p s = .next t) :
    (s.tick.toNat < r.budget ∧ t = { s with hist := s.hist ++ [.sample r.flag (pinOf p r.flag)] }) ∨
    (r.budget ≤ s.tick.toNat ∧ t.phase ≠ s.phase) := by
  have m := seqStep_move h
  clear h
  cases m with
  | spins r' hr' _ ht => cases hr.symm.trans hr'; exact .inl ⟨ht, rfl⟩
  | attemptFails r' hr' _ ht _ => cases hr.symm.trans hr'; exact .inr ⟨ht, attemptFail_leaves hr _ _ _⟩
  | commandFails r' hr' _ ht _ =>
    cases hr.symm.trans hr'
    refine .inr ⟨ht, fun e => ?_⟩
    rw [finishFail] at e
    rw [← e] at hr; cases hr
  | received h hv =>
    rcases h with h | h <;> rw [h] at hr <;> cases hr <;> exact absurd hv hp
  | busFree h hv | started h hv | startDoneStart h hv | startDoneWrite h hv | startDoneBurst h hv | startDoneByte h hv
  | writeSettled h hv | byteSent _ h hv | drained h hv | burstSettled h hv | byteSettled h hv | repeatedStartCleared h hv =>
    rw [h] at hr; cases hr; exact absurd hv hp
  | idle h | aInit h | aBegin h | aStart h | aRegaddr h | aDelayCounts h | aDelayEnds h | aWscl h | aWdata h | aRscl h
  | aRrs h | aBscl h | aBrs h => rw [h] at hr; cases hr

/-- While a wait entered below its budget is polled and its predicate stays false, TICK does not pass the budget. -/
theorem polled_wait_tick_le {r : SiteRow} (ts : List Turn) (since : Bool) (hr : siteRow s.phase = some r)
    (hb : s.status.busy = true) (hk : s.tick.toNat ≤ r.budget) (hf : since = true → s.tick.toNat < r.budget)
    (hs : ∀ y ∈ trail ts s, y.2.phase = s.phase ∧ y.1 ≠ .reset ∧ ∀ q, y.1 = .seq q → pinOf q r.flag ≠ r.value)
    (hpoll : polled waits since (trail ts s) = true) (hrun : runWhileBusy ts s = .next u) (hu : u.phase = s.phase) :
    u.tick.toNat ≤ r.budget := by
  induction ts generalizing s since with
  | nil => cases hrun; exact hk
  | cons x xs ih =>
    rw [runWhileBusy, if_pos hb] at hrun
    have hbl : r.budget ≤ 100 := by
      cases hph : s.phase <;> rw [hph] at hr <;> cases hr <;> decide
    cases hx : runTurn x s with
    | fault e => rw [hx] at hrun; cases hrun
    | refused e => rw [hx] at hrun; cases hrun
    | next t =>
      rw [hx] at hrun
      have htr : trail (x :: xs) s = (x, s) :: trail xs t := by rw [trail, if_pos hb, hx]
      rw [htr] at hs hpoll
      obtain ⟨-, hxr, hxp⟩ := hs (x, s) (List.mem_cons_self ..)
      have hs' := fun y hy => hs y (List.mem_cons_of_mem _ hy)
      simp only [polled, Bool.and_eq_true, Bool.or_eq_true, Bool.not_eq_true', Bool.and_eq_false_iff] at hpoll
      obtain ⟨hnow, hlater⟩ := hpoll
      have hw : waits s.phase = true := by simp [waits, hr]
      cases hq : isSeq x with
      | false =>
        rcases otherTurn_cases hb hxr hq hx with ⟨ha, hc⟩ | ⟨ha, hc⟩
        · rw [ha, hq] at hlater
          rw [← hc.tick] at hk hf
          rw [← hc.phase] at hr hs' hu
          exact ih _ hr (hc.busy ▸ hb) hk (by simpa using hf) hs' (by simpa using hlater) hrun hu
        · have hsince : since = true := by simpa [ha, hw] using hnow
          have hlt := hf hsince
          have htick : t.tick.toNat = s.tick.toNat + 1 := by
            rw [hc.tick]
            exact BitVec.toNat_add_of_lt (show s.tick.toNat + 1 < 65536 by omega)
          have hph : t.phase = s.phase := hc.phase
          rw [← hph] at hr hs' hu
          exact ih false hr ((show t.status.busy = s.status.busy from hc.busy) ▸ hb) (by omega) (by simp) hs' (by simpa [ha] using hlater) hrun hu
      | true =>
        obtain ⟨q, rfl⟩ : ∃ q, x = .seq q := by cases x <;> first | exact ⟨_, rfl⟩ | cases hq
        rcases seqStep_waiting hr (hxp q rfl) hx with ⟨ht, rfl⟩ | ⟨-, hleft⟩
        · exact ih (s := { s with hist := s.hist ++ [.sample r.flag (pinOf q r.flag)] }) true hr hb hk (fun _ => ht) hs'
            (by simpa [tickAck_seq, isSeq] using hlater) hrun hu
        · exfalso
          cases xs with
          | nil => cases hrun; exact hleft hu
          | cons y ys =>
            cases htb : t.status.busy with
            | false => simp only [runWhileBusy, htb] at hrun; cases hrun; exact hleft hu
            | true =>
              refine hleft (hs' (y, t) ?_).1
              rw [trail, if_pos htb]
              split <;> exact List.mem_cons_self ..

/-- R109: under POLL_FASTER_THAN_TICK a wait entered below its budget, with its predicate false at every poll, fails with TICK at
exactly the budget. -/
theorem polled_wait_fails_at_budget {r : SiteRow} (ts : List Turn) (hr : siteRow s.phase = some r)
    (hb : s.status.busy = true) (hk : s.tick.toNat < r.budget)
    (hs : ∀ y ∈ trail ts s, y.2.phase = s.phase ∧ y.1 ≠ .reset ∧ ∀ q, y.1 = .seq q → pinOf q r.flag ≠ r.value)
    (hpoll : polled waits true (trail ts s) = true) (hrun : runWhileBusy ts s = .next u) (hu : u.phase = s.phase)
    (hp : pinOf p r.flag ≠ r.value) (hstep : runTurn (.seq p) u = .next t) (hleft : t.phase ≠ u.phase) :
    u.tick.toNat = r.budget := by
  have hle := polled_wait_tick_le ts true hr hb (Nat.le_of_lt hk) (fun _ => hk) hs hpoll hrun hu
  rcases seqStep_waiting (hu ▸ hr) hp hstep with ⟨-, rfl⟩ | ⟨hge, -⟩
  · exact absurd rfl hleft
  · omega

/-! ### R177: the ticks inside the windows of one command -/

/-- Further ticks, where windows may be held open past their budget. -/
def further (kept : Bool) (n : Nat) : Nat := if kept then 0 else n

/-- How high TICK can stand in a phase in which a window is open. -/
def tickCap (kept : Bool) (idx : Nat) : Phase → Nat
  | .wBusy | .wSb | .wRa => 50
  | .wWscl => 10
  | .wWtx | .wWdrain => 100 + further kept idx
  | .wRscl | .wBscl => 100
  | .aRrs | .aBrs => 100 + further kept 1
  | .wRrx | .wBrs => 100 + further kept 2
  | .wBrx => 100 + further kept 3
  | .idle | .aInit | .aBegin | .aStart | .aRegaddr | .aDelay | .aWscl | .aWdata | .aRscl | .aBscl => 0

/-- The ticks of the windows after the start attempt. -/
def dataTicks (kept : Bool) (opc : BitVec 4) (len : Nat) : Nat :=
  if opc = opcWrite then 110 + further kept len
  else if opc = opcReadBurst then 100 + further kept 2
  else if opc = opcReadByte then 100 + further kept 3
  else 0

/-- The ticks of the start attempts that may follow the present one. -/
def attemptTicks (opc : BitVec 4) (attempts : Nat) : Nat :=
  if opc = opcStart then 0 else (5 - attempts) * 150

/-- The ticks the windows of a running command can still hold. -/
def ticksLeft (kept : Bool) (s : State) : Nat :=
  let later := attemptTicks s.opc s.status.attempts.toNat + dataTicks kept s.opc s.len.toNat
  match s.phase with
  | .idle | .aInit => 0
  | .aBegin => (if s.opc = opcStart then 150 else 0) + later
  | .aDelay => later
  | .wBusy => (50 - s.tick.toNat) + 100 + later
  | .aStart => 100 + later
  | .wSb => (50 - s.tick.toNat) + 50 + later
  | .aRegaddr => 50 + later
  | .wRa => (50 - s.tick.toNat) + later
  | .aWscl => 110 + further kept s.len.toNat
  | .wWscl => (10 - s.tick.toNat) + 100 + further kept s.len.toNat
  | .aWdata => 100 + further kept s.len.toNat
  | .wWtx | .wWdrain => 100 + further kept s.len.toNat - s.tick.toNat
  | .aRscl => 100 + further kept 2
  | .wRscl | .aRrs | .wRrx => 100 + further kept 2 - s.tick.toNat
  | .aBscl => 100 + further kept 3
  | .wBscl | .aBrs | .wBrs | .wBrx => 100 + further kept 3 - s.tick.toNat

/-- What holds of a running command that is polled: the phase is the command's, an attempt is left where one begins, the data
byte is one of LEN, and TICK is under its cap, below it where SEQ has stepped since the last tick. -/
structure OnTrack (kept since : Bool) (s : State) : Prop where
  phaseFits : phaseOfCommand s.opc s.phase = true
  lengthOk : s.opc = opcWrite → 1 ≤ s.len.toNat
  begins : s.phase = .aBegin ∨ s.phase = .aDelay → s.opc ≠ opcStart → s.status.attempts.toNat < 5
  sends : s.phase = .wWtx → s.idx < s.len.toNat
  sent : s.phase = .wWdrain → s.idx ≤ s.len.toNat
  tickLe : inWindow s.phase = true → s.tick.toNat ≤ tickCap kept s.idx s.phase
  tickLt : since = true → inWindow s.phase = true → s.tick.toNat < tickCap kept s.idx s.phase

/-- A SEQ step keeps a polled command on track and lets its windows hold no more ticks than before. -/
theorem seqMove_onTrack {kept since : Bool} (m : SeqMove p s t) (g : OnTrack kept since s)
    (hk : kept = true → inWindow s.phase = true → inWindow t.phase = true → s.tick.toNat < windowBudget s.phase) :
    (t.status.busy = true → OnTrack kept true t) ∧ ticksLeft kept t ≤ ticksLeft kept s := by
  obtain ⟨g1, gl, g2, g3, g4, g5, g6⟩ := g
  rcases s with ⟨opc, st, sla, rega, len, tick, buf, ph, idx, dly, tp, hist, hr, tu, tn⟩
  cases m with
  | idle h =>
    cases h
    exact ⟨fun _ => ⟨g1, gl, nofun, nofun, nofun, nofun, fun _ => nofun⟩, Nat.le_refl _⟩
  | aInit h => cases h; exact ⟨nofun, Nat.le_refl _⟩
  | aBegin h =>
    cases h
    refine ⟨fun _ => ⟨g1, gl, nofun, nofun, nofun, fun _ => Nat.zero_le _, fun _ _ => by simp [tickCap]⟩, ?_⟩
    by_cases ho : opc = opcStart
    · simp [ticksLeft, attemptTicks, ho]
    · have ha := g2 (.inl rfl) ho
      have h1 : (st.attempts + 1).toNat = st.attempts.toNat + 1 := BitVec.toNat_add_of_lt (show st.attempts.toNat + 1 < 8 by simp at ha; omega)
      simp only [ticksLeft, attemptTicks, ho, h1, if_false] at ha ⊢
      simp
      omega
  | aStart h | aRegaddr h =>
    cases h
    refine ⟨fun _ => ⟨g1, gl, nofun, nofun, nofun, fun _ => Nat.zero_le _, fun _ _ => by simp [tickCap]⟩, ?_⟩
    simp [ticksLeft]
  | aDelayCounts h hd =>
    cases h
    exact ⟨fun _ => ⟨g1, gl, g2, nofun, nofun, nofun, fun _ => nofun⟩, Nat.le_refl _⟩
  | aDelayEnds h hd =>
    cases h
    have ho : opc = opcReadByte := by simpa [phaseOfCommand] using g1
    subst ho
    exact ⟨fun _ => ⟨rfl, gl, fun _ => g2 (.inr rfl), nofun, nofun, nofun, fun _ => nofun⟩, by simp [ticksLeft, opcReadByte, opcStart]⟩
  | aWscl h | aRscl h | aBscl h =>
    cases h
    refine ⟨fun _ => ⟨g1, gl, nofun, nofun, nofun, fun _ => Nat.zero_le _, fun _ _ => by simp [tickCap]⟩, ?_⟩
    simp [ticksLeft]
  | aWdata h =>
    cases h
    have ho : opc = opcWrite := by simpa [phaseOfCommand] using g1
    refine ⟨fun _ => ⟨g1, gl, nofun, fun _ => gl ho, nofun, fun _ => Nat.zero_le _, fun _ _ => by simp [tickCap]⟩, ?_⟩
    simp [ticksLeft]
  | aRrs h | aBrs h | burstSettled h | byteSettled h | repeatedStartCleared h =>
    cases h
    have hk' := fun e => hk e rfl rfl
    have hle := g5 rfl
    refine ⟨fun _ => ⟨g1, gl, nofun, nofun, nofun, fun _ => ?_, fun _ _ => ?_⟩, ?_⟩ <;>
    cases kept <;> simp [tickCap, further, ticksLeft, windowBudget, siteRow] at * <;> omega
  | spins r h hp ht =>
    have hcap : r.budget ≤ tickCap kept idx ph := by
      cases ph <;> cases h <;> simp [tickCap]
    exact ⟨fun _ => ⟨g1, gl, g2, g3, g4, g5, fun _ _ => Nat.lt_of_lt_of_le ht hcap⟩, Nat.le_refl _⟩
  | attemptFails r h hp ht hs =>
    have hw : ph = .wBusy ∨ ph = .wSb ∨ ph = .wRa := by
      cases ph <;> cases h <;> first | exact absurd hs (by decide) | simp
    have hlow : attemptTicks opc st.attempts.toNat + dataTicks kept opc len.toNat ≤
        ticksLeft kept ⟨opc, st, sla, rega, len, tick, buf, ph, idx, dly, tp, hist, hr, tu, tn⟩ := by
      rcases hw with e | e | e <;> subst e <;> exact Nat.le_add_left ..
    have ho : opcStart ≤ opc ∧ opc ≤ opcReadByte := by
      rcases hw with e | e | e <;> subst e <;> simpa [phaseOfCommand] using g1
    rcases attemptFail_cases r.kind r.site ⟨opc, st, sla, rega, len, tick, buf, ph, idx, dly, tp,
      hist ++ [.sample r.flag (pinOf p r.flag)], hr, tu, tn⟩ with c | c | c
    · rw [c.2]
      exact ⟨nofun, Nat.zero_le _⟩
    · obtain ⟨ha, hc, e⟩ := c
      rw [e]
      cases hc
      exact ⟨fun _ => ⟨rfl, gl, fun _ _ => ha, nofun, nofun, nofun, fun _ => nofun⟩, hlow⟩
    · obtain ⟨ha, hs, hb, e⟩ := c
      rw [e]
      refine ⟨fun _ => ⟨by simp [phaseOfCommand, ho.1, ho.2], gl, fun _ _ => ha, nofun, nofun, nofun, fun _ => nofun⟩, ?_⟩
      simpa [ticksLeft, show opc ≠ opcStart from hs] using hlow
  | commandFails r h hp ht hs =>
    exact ⟨nofun, Nat.zero_le _⟩
  | startDoneStart h | drained h => exact ⟨nofun, Nat.zero_le _⟩
  | received h => exact ⟨nofun, Nat.zero_le _⟩
  | busFree h | started h =>
    cases h
    refine ⟨fun _ => ⟨g1, gl, nofun, nofun, nofun, nofun, fun _ => nofun⟩, ?_⟩
    simp [ticksLeft]
  | startDoneWrite h hp ho | startDoneBurst h hp ho | startDoneByte h hp ho =>
    cases h
    simp only at ho
    subst ho
    refine ⟨fun _ => ⟨rfl, gl, nofun, nofun, nofun, nofun, fun _ => nofun⟩, ?_⟩
    simp [ticksLeft, dataTicks, attemptTicks, opcWrite, opcReadBurst, opcReadByte, opcStart]
    omega
  | writeSettled h hp =>
    cases h
    refine ⟨fun _ => ⟨g1, gl, nofun, nofun, nofun, nofun, fun _ => nofun⟩, ?_⟩
    simp [ticksLeft]
  | byteSent b h hp hb =>
    cases h
    have hle := g5 rfl
    have hi := g3 rfl
    have ho : opc = opcWrite := by simpa [phaseOfCommand] using g1
    by_cases hn : idx + 1 < len.toNat <;> simp only [hn, if_true, if_false] at hk ⊢ <;>
    have hk' := fun e => hk e rfl rfl
    · refine ⟨fun _ => ⟨by subst ho; rfl, gl, nofun, fun _ => hn, nofun, fun _ => ?_, fun _ _ => ?_⟩, Nat.le_refl _⟩ <;>
      cases kept <;> simp [tickCap, further, windowBudget, siteRow] at * <;> omega
    · refine ⟨fun _ => ⟨by subst ho; rfl, gl, nofun, nofun, fun _ => hi, fun _ => ?_, fun _ _ => ?_⟩, Nat.le_refl _⟩ <;>
      cases kept <;> simp [tickCap, further, windowBudget, siteRow] at * <;> omega

theorem KeepsCommand.onTrack {kept since : Bool} (c : KeepsCommand s t) (g : OnTrack kept since s) :
    OnTrack kept since t ∧ ticksLeft kept t = ticksLeft kept s := by
  obtain ⟨c1, c2, c3, c4, c5, c6, c7⟩ := c
  refine ⟨?_, by simp only [ticksLeft, c1, c2, c4, c5, c7]⟩
  obtain ⟨g1, gl, g2, g3, g4, g5, g6⟩ := g
  constructor <;> simpa only [c1, c2, c4, c5, c6, c7]

/-- A counted tick inside a window that is polled takes one from what the windows can still hold. -/
theorem tick_onTrack {kept since : Bool} (g : OnTrack kept since s) (h : inWindow s.phase = true → since = true) :
    OnTrack kept false { s with tick := s.tick + 1 } ∧
    ticksLeft kept { s with tick := s.tick + 1 } + (if inWindow s.phase = true then 1 else 0) ≤ ticksLeft kept s := by
  obtain ⟨g1, gl, g2, g3, g4, g5, g6⟩ := g
  rcases s with ⟨opc, st, sla, rega, len, tick, buf, ph, idx, dly, tp, hist, hr, tu, tn⟩
  have hl : len.toNat < 256 := len.isLt
  have hwr : inWindow ph = true → tick.toNat < tickCap kept idx ph ∧ (tick + 1).toNat = tick.toNat + 1 := by
    intro hw
    have hlt : tick.toNat < tickCap kept idx ph := g6 (h hw) hw
    refine ⟨hlt, BitVec.toNat_add_of_lt (show tick.toNat + 1 < 65536 from ?_)⟩
    have hcap : tickCap kept idx ph ≤ 355 := by
      cases ph <;> cases kept <;> simp [tickCap, further] at * <;> omega
    omega
  refine ⟨⟨g1, gl, g2, g3, g4, fun hw => ?_, nofun⟩, ?_⟩
  · rw [show State.tick _ = tick + 1 from rfl, (hwr hw).2]
    exact (hwr hw).1
  · cases ph <;> first
    | exact Nat.le_refl _
    | (obtain ⟨hlt, e⟩ := hwr rfl
       cases kept <;> simp [ticksLeft, inWindow, waits, siteRow, tickCap, further] at * <;> omega)

/-- The opcode of a running command stays. -/
theorem turn_opc (hb : s.status.busy = true) (hr : x ≠ .reset) (h : runTurn x s = .next t) : t.opc = s.opc := by
  cases hq : isSeq x with
  | true =>
    obtain ⟨q, rfl⟩ : ∃ q, x = .seq q := by cases x <;> first | exact ⟨_, rfl⟩ | cases hq
    have m := seqStep_move h
    clear h
    cases m with
    | attemptFails r =>
      rcases attemptFail_cases r.kind r.site { s with hist := s.hist ++ [.sample r.flag (pinOf q r.flag)] } with c | c | c
      · rw [c.2]; rfl
      · rw [c.2.2]; rfl
      · rw [c.2.2.2]; rfl
    | _ => rfl
  | false =>
    rcases otherTurn_cases hb hr hq h with ⟨-, c⟩ | ⟨-, c⟩
    · exact c.opc
    · exact c.opc

/-- What a turn does to a running command that is polled: the command stays on track, and the ticks its windows can still hold
fall by the one that is counted. -/
theorem turn_onTrack {kept since : Bool} (g : OnTrack kept since s) (hb : s.status.busy = true) (hr : x ≠ .reset)
    (h : runTurn x s = .next t) (hpoll : tickAck x s = true → inWindow s.phase = true → since = true)
    (hk : kept = true → isSeq x = true → inWindow s.phase = true → inWindow t.phase = true →
      s.tick.toNat < windowBudget s.phase) :
    (t.status.busy = true → OnTrack kept (if tickAck x s then false else since || isSeq x) t) ∧
    ticksLeft kept t + (if tickAck x s && inWindow s.phase then 1 else 0) ≤ ticksLeft kept s := by
  cases hq : isSeq x with
  | true =>
    obtain ⟨q, rfl⟩ : ∃ q, x = .seq q := by cases x <;> first | exact ⟨_, rfl⟩ | cases hq
    simpa [tickAck_seq] using seqMove_onTrack (seqStep_move h) g fun e => hk e rfl
  | false =>
    rcases otherTurn_cases hb hr hq h with ⟨ha, c⟩ | ⟨ha, c⟩
    · obtain ⟨g', e⟩ := c.onTrack g
      rw [ha, e]
      exact ⟨fun _ => by simpa using g', Nat.le_refl _⟩
    · obtain ⟨g', hle⟩ := tick_onTrack g (hpoll ha)
      obtain ⟨g'', e⟩ := c.onTrack g'
      rw [ha, e]
      exact ⟨fun _ => by simpa using g'', by simpa using hle⟩

/-- Along the turns of a running command that is polled in the phases of its windows, the windows hold no more ticks than they
can. -/
theorem windowTicks_le_ticksLeft {kept since : Bool} {phases : Phase → Bool} (ts : List Turn)
    (g : s.status.busy = true → OnTrack kept since s)
    (hph : ∀ ph, phaseOfCommand s.opc ph = true → inWindow ph = true → phases ph = true)
    (hr : ∀ x ∈ ts, x ≠ .reset) (hpoll : polled phases since (trail ts s) = true)
    (hk : kept = true → windowsKept (trail ts s) = true) :
    windowTicks (trail ts s) ≤ ticksLeft kept s := by
  induction ts generalizing s since with
  | nil => exact Nat.zero_le _
  | cons x xs ih =>
    rw [trail] at hpoll hk ⊢
    cases hb : s.status.busy with
    | false => simp [windowTicks]
    | true =>
      simp only [hb, if_true] at hpoll hk ⊢
      cases hx : runTurn x s with
      | fault e | refused e =>
        cases x <;> first | exact Nat.zero_le _ | cases hx
      | next t =>
        simp only [hx] at hpoll hk ⊢
        simp only [polled, Bool.and_eq_true, Bool.or_eq_true, Bool.not_eq_true', Bool.and_eq_false_iff] at hpoll
        obtain ⟨hnow, hlater⟩ := hpoll
        have hstep := turn_onTrack (x := x) (g hb) hb (hr x (List.mem_cons_self ..)) hx
          (fun ha hw => by simpa [ha, hph _ (g hb).phaseFits hw] using hnow)
          (fun e hq hw hw' => by
            have := hk e
            simp only [windowsKept, List.all_cons, hx, hq, hw, hw', Bool.and_true, Bool.not_true, Bool.false_or,
              Bool.and_eq_true, decide_eq_true_eq] at this
            exact this.1)
        have hrest := ih hstep.1 (by rwa [turn_opc hb (hr x (List.mem_cons_self ..)) hx]) (fun y hy => hr y (List.mem_cons_of_mem _ hy)) hlater
          (fun e => by
            have := hk e
            simp only [windowsKept, List.all_cons, Bool.and_eq_true] at this
            exact this.2)
        have hone := hstep.2
        simp only [windowTicks, List.countP_cons] at hrest ⊢
        omega

/-- A command whose first attempt is to begin, SEQ polling from there on in the phases of its windows: they hold at most its sum and the further
ticks of `windowOverrun`, and no more than the sum where the windows are kept. -/
theorem windowTicks_of_command {phases : Phase → Bool} (ts : List Turn) (hs : s.phase = .aBegin) (ha : s.status.attempts = 0)
    (ho : opcStart ≤ s.opc ∧ s.opc ≤ opcReadByte) (hl : s.opc = opcWrite → 1 ≤ s.len.toNat)
    (hph : ∀ ph, phaseOfCommand s.opc ph = true → inWindow ph = true → phases ph = true)
    (hr : ∀ x ∈ ts, x ≠ .reset) (hpoll : polled phases false (trail ts s) = true) :
    windowTicks (trail ts s) ≤ windowTickSum s.opc + windowOverrun s.opc s.len.toNat ∧
    (windowsKept (trail ts s) = true → windowTicks (trail ts s) ≤ windowTickSum s.opc) := by
  have htrack (kept : Bool) : OnTrack kept false s := by
    refine ⟨by rw [hs]; simp [phaseOfCommand, ho.1, ho.2], hl, fun _ _ => by rw [ha]; decide, ?_, ?_, ?_, nofun⟩ <;>
    rw [hs] <;> nofun
  have hleft (kept : Bool) :
      ticksLeft kept s = windowTickSum s.opc + further kept (windowOverrun s.opc s.len.toNat) := by
    have hcase : s.opc = opcStart ∨ s.opc = opcWrite ∨ s.opc = opcReadBurst ∨ s.opc = opcReadByte := by
      generalize s.opc = o at ho
      revert o
      decide
    rcases hcase with h | h | h | h <;> cases kept <;>
      simp [ticksLeft, attemptTicks, dataTicks, windowTickSum, windowOverrun, further, hs, ha, h, opcStart, opcWrite,
        opcReadBurst, opcReadByte]
    omega
  refine ⟨?_, fun hk => ?_⟩
  · have := windowTicks_le_ticksLeft (kept := false) ts (fun _ => htrack false) hph hr hpoll nofun
    rw [hleft] at this
    simpa [further] using this
  · have := windowTicks_le_ticksLeft (kept := true) ts (fun _ => htrack true) hph hr hpoll fun _ => hk
    rw [hleft] at this
    simpa [further] using this

/-- R177: from the acceptance of a START, WRITE, READ_BURST or READ_BYTE, SEQ polling in the phases of its windows and nothing being
asked elsewhere, the windows of the command hold at most the sum R177 gives for it and the further ticks of `windowOverrun`; and no more than the sum where every step that leaves a
window open is taken before the window's budget (log 15). -/
theorem windowTicks_of_accepted {phases : Phase → Bool} (opc : BitVec 4) (ts : List Turn)
    (ho : opcStart ≤ opc ∧ opc ≤ opcReadByte) (hl : opc = opcWrite → 1 ≤ s.len.toNat)
    (hph : ∀ ph, phaseOfCommand opc ph = true → inWindow ph = true → phases ph = true) (hr : ∀ x ∈ ts, x ≠ .reset)
    (hpoll : polled phases false (trail ts (accept opc s)) = true) :
    windowTicks (trail ts (accept opc s)) ≤ windowTickSum opc + windowOverrun opc s.len.toNat ∧
    (windowsKept (trail ts (accept opc s)) = true → windowTicks (trail ts (accept opc s)) ≤ windowTickSum opc) := by
  have hi : opc ≠ opcInit := by rintro rfl; exact absurd ho.1 (by decide)
  exact windowTicks_of_command (s := accept opc s) ts (if_neg hi) rfl ho hl hph hr hpoll

/-- R177 for START, SEQ polling while it waits (R109) and no more: 150. -/
theorem windowTicks_of_start (ts : List Turn) (hr : ∀ x ∈ ts, x ≠ .reset)
    (hpoll : polled waits false (trail ts (accept opcStart s)) = true) :
    windowTicks (trail ts (accept opcStart s)) ≤ 150 :=
  (windowTicks_of_accepted opcStart ts (by decide) nofun (fun ph => by cases ph <;> decide) hr hpoll).1

/-- R177 for WRITE, SEQ polling while it waits (R109) and no more: 860 where the windows are kept, and at most LEN further ticks
elsewhere. -/
theorem windowTicks_of_write (ts : List Turn) (hl : 1 ≤ s.len.toNat) (hr : ∀ x ∈ ts, x ≠ .reset)
    (hpoll : polled waits false (trail ts (accept opcWrite s)) = true) :
    windowTicks (trail ts (accept opcWrite s)) ≤ 860 + s.len.toNat ∧
    (windowsKept (trail ts (accept opcWrite s)) = true → windowTicks (trail ts (accept opcWrite s)) ≤ 860) :=
  windowTicks_of_accepted opcWrite ts (by decide) (fun _ => hl) (fun ph => by cases ph <;> decide) hr hpoll

/-- R177 for READ_BURST, SEQ polling in the window, its repeated start included: 850 where the window is kept, and at most 2 further
ticks elsewhere. -/
theorem windowTicks_of_readBurst (ts : List Turn) (hr : ∀ x ∈ ts, x ≠ .reset)
    (hpoll : polled inWindow false (trail ts (accept opcReadBurst s)) = true) :
    windowTicks (trail ts (accept opcReadBurst s)) ≤ 852 ∧
    (windowsKept (trail ts (accept opcReadBurst s)) = true → windowTicks (trail ts (accept opcReadBurst s)) ≤ 850) :=
  windowTicks_of_accepted opcReadBurst ts (by decide) nofun (fun _ _ => id) hr hpoll

/-- R177 for READ_BYTE, likewise: 850 where the window is kept, and at most 3 further ticks elsewhere. -/
theorem windowTicks_of_readByte (ts : List Turn) (hr : ∀ x ∈ ts, x ≠ .reset)
    (hpoll : polled inWindow false (trail ts (accept opcReadByte s)) = true) :
    windowTicks (trail ts (accept opcReadByte s)) ≤ 853 ∧
    (windowsKept (trail ts (accept opcReadByte s)) = true → windowTicks (trail ts (accept opcReadByte s)) ≤ 850) :=
  windowTicks_of_accepted opcReadByte ts (by decide) nofun (fun _ _ => id) hr hpoll

/-- R177, "at most one TB step falls in each gap": between two SEQ steps, in phases that are polled, at most one tick is counted. -/
theorem polled_gap_ticks_le {phases : Phase → Bool} {since : Bool} (tr : List (Turn × State))
    (hpoll : polled phases since tr = true) (hgap : ∀ y ∈ tr, isSeq y.1 = false ∧ phases y.2.phase = true) :
    tr.countP (fun y => tickAck y.1 y.2) ≤ since.toNat := by
  induction tr generalizing since with
  | nil => exact Nat.zero_le _
  | cons y ys ih =>
    obtain ⟨hq, hp⟩ := hgap y (List.mem_cons_self ..)
    simp only [polled, hq, hp, Bool.and_true, Bool.or_false, Bool.and_eq_true] at hpoll
    have hrest := ih hpoll.2 fun z hz => hgap z (List.mem_cons_of_mem _ hz)
    cases ha : tickAck y.1 y.2 <;> simp [ha] at hpoll hrest ⊢
    · exact hrest
    · simpa [hpoll.1] using hrest

/-- `n` ticks that are counted, with no other step. -/
def tickTurns : Nat → List Turn
  | 0 => []
  | n + 1 => .timer :: .tb :: tickTurns n

/-- R109 asks nothing of the repeated start of READ_BURST, which is no wait: any number of ticks may come in it, inside the
window. -/
theorem repeated_start_takes_any_ticks (n : Nat) (since : Bool) (hs : s.phase = .aRrs) (hb : s.status.busy = true) :
    polled waits since (trail (tickTurns n) s) = true ∧ windowTicks (trail (tickTurns n) s) = n := by
  induction n generalizing s since with
  | zero => exact ⟨rfl, rfl⟩
  | succ n ih =>
    have hw : waits Phase.aRrs = false := rfl
    have hin : inWindow Phase.aRrs = true := rfl
    have hrest := ih (s := tbStep (timerStep s)) false (by simpa [tbStep, timerStep] using hs)
      (by simpa [tbStep, timerStep] using hb)
    have htr : trail (tickTurns (n + 1)) s =
        (.timer, s) :: (.tb, timerStep s) :: trail (tickTurns n) (tbStep (timerStep s)) := by
      simp [tickTurns, trail, runTurn, hb, timerStep]
    rw [htr]
    constructor
    · simpa [polled, tickAck, timerStep, hs, hw] using hrest.1
    · have h2 := hrest.2
      have htick : tickAck .tb (timerStep s) = true := rfl
      have htimer : tickAck .timer s = false := rfl
      have hph : (timerStep s).phase = .aRrs := hs
      simp only [windowTicks] at h2 ⊢
      simp only [List.countP_cons, htick, htimer, hph, hin, h2]
      rfl

/-! ### R177 to the letter -/

/-- R177, "each window holds at most its budget of TB steps", to the letter: in a window that has just begun and is polled
throughout, no more ticks are counted than its budget. -/
def EachWindowHoldsItsBudget : Prop :=
  ∀ (s : State) (ts : List Turn), Inv s → s.tick = 0 → waits s.phase = true →
    polled outsideDelay true (trail ts s) = true →
    (trail ts s).all (fun y => inWindow y.2.phase && y.1 != .reset) = true →
    windowTicks (trail ts s) ≤ windowBudget s.phase

/-- A READ_BURST at the begin of its data window. -/
def lateBurst : State :=
  { State.reset with opc := opcReadBurst, phase := .wRscl, status := { Status.reset with busy := true, attempts := 1 } }

/-- A bus that stretches the clock for ever. -/
def stretchingBus : BusPins :=
  { bbusy := false, txrdy := false, rxrdy := false, sclLow := true, startPend := false, rxdata := 0 }

/-- A poll after each of a hundred ticks, the last of which finds the clock released; and one more tick. -/
def lateTurns : List Turn :=
  (List.replicate 99 [.timer, .tb, .seq stretchingBus]).flatten ++ [.timer, .tb, .seq (readyBus 0), .timer, .tb]

/-- R107 refutes that reading: the step that samples the predicate true at TICK = 100 succeeds, the window stays open, and the
next tick is its 101st (log 15). -/
theorem shared_window_passes_its_budget : ¬ EachWindowHoldsItsBudget := by
  have hrun : polled outsideDelay true (trail lateTurns lateBurst) = true ∧
      (trail lateTurns lateBurst).all (fun y => inWindow y.2.phase && y.1 != .reset) = true ∧
      windowTicks (trail lateTurns lateBurst) = 101 := by
    set_option maxRecDepth 100000 in decide
  intro h
  have hle := h lateBurst lateTurns (by constructor <;> decide) rfl rfl hrun.1 hrun.2.1
  rw [hrun.2.2] at hle
  exact absurd hle (by decide)

end Sys2Proof.Machine
end

