-- ==== Sys2Proof/Tests/Slice0.lean ====
section
/-! SUPPORT. The model's own tests, and for every statement that has hypotheses a state and operands that meet them. Expected
values come from spec/95_test_vectors.md (the vector is named) or by hand from the rule named. -/

namespace Sys2Proof.Tests

open Sys2Proof.Machine

/-! ### Helpers -/

/-- The next state of a result, if it is one. -/
def ns : Result → Option State
  | .next s => some s
  | .fault _ => none
  | .refused _ => none

/-- What is read of the next state of a result. -/
def look {α : Type} (f : State → α) (r : Result) : Option α := (ns r).map f

/-- An idle state with a descriptor: SLA 0x68, REGA 0x75, LEN 2, BUF 0x11, 0x22. -/
def idleState : State :=
  { State.reset with sla := 0x68, rega := 0x75, len := 2, buf := (State.reset.buf.set 0 0x11).set 1 0x22 }

/-- A command with one attempt made, in the given phase with the given counter. -/
def running (opc : BitVec 4) (ph : Phase) (tick : BitVec 16) : State :=
  { idleState with opc := opc, phase := ph, tick := tick, status := { Status.reset with busy := true, attempts := 1 } }

/-- The same after the given count of attempts. -/
def attempted (n : BitVec 3) (s : State) : State := { s with status := { s.status with attempts := n } }

/-- The bus on which every wait waits. -/
def stuckBus : BusPins :=
  { bbusy := true, txrdy := false, rxrdy := false, sclLow := true, startPend := true, rxdata := 0x5A }

/-- The bus on which none does. -/
def goodBus : BusPins := readyBus 0x5A

/-- One host access of 4 bytes. -/
def access (h : HostWord) : Turn := .host { word := h, width := 4 }

/-! ### WellFormed refuses -/

theorem test_illformed_cmdRsvd67 : WellFormed (.cmdRsvd67 0x5 0) = false ∧ WellFormed (.cmdRsvd67 0x8 0) = false := by decide
theorem test_illformed_cmdRsvd8F : WellFormed (.cmdRsvd8F 0x7 0) = false := by decide
theorem test_illformed_rsvd18 :
    WellFormed (.rdRsvd18 0x14) = false ∧ WellFormed (.rdRsvd18 0x19) = false ∧ WellFormed (.wrRsvd18 0x20 0) = false := by
  decide
theorem test_illformed_rsvd20 :
    WellFormed (.rdRsvd20 0x1C) = false ∧ WellFormed (.rdRsvd20 0x22) = false ∧ WellFormed (.wrRsvd20 0x40 0) = false := by
  decide
theorem test_illformed_rsvd40 :
    WellFormed (.rdRsvd40 0x3C) = false ∧ WellFormed (.rdRsvd40 0x41) = false ∧ WellFormed (.wrRsvd40 0x80 0) = false := by
  decide
theorem test_illformed_hostfault :
    WellFormed (.hostfaultOffOdd none 0x02) = false ∧ WellFormed (.hostfaultOff2 (some 0) 0x03) = false ∧
    WellFormed (.hostfaultOff2 none 0x04) = false := by decide

/-! ### Decoding, one word for every constructor, written out from R70 to R72 -/

theorem test_decode_cmd_rows :
    decode (.cmd 0b00000000000000000000000000000001) = .init 0 ∧
    decode (.cmd 0b11111111111111111111111111110010) = .start 0xFFFFFFF ∧
    decode (.cmd 0b00000000000000000000000000010011) = .write 1 ∧
    decode (.cmd 0b00000000000000000000000000000100) = .readBurst 0 ∧
    decode (.cmd 0b10000000000000000000000000000101) = .readByte 0x8000000 := by decide
theorem test_decode_reserved_cmd_rows :
    decode (.cmd 0b00000000000000000000000000010000) = .cmdRsvd0 1 ∧
    decode (.cmd 0b00000000000000000000000000000110) = .cmdRsvd67 0x6 0 ∧
    decode (.cmd 0b00000000000000000000000000100111) = .cmdRsvd67 0x7 2 ∧
    decode (.cmd 0b00000000000000000000000000001000) = .cmdRsvd8F 0x8 0 ∧
    decode (.cmd 0b00000000000000000000000000001111) = .cmdRsvd8F 0xF 0 := by decide
theorem test_decode_reads :
    decode (.hop 0b000000000 7) = .rdCmd ∧ decode (.hop 0b000000100 7) = .rdStatus ∧
    decode (.hop 0b000001000 7) = .rdSla ∧ decode (.hop 0b000001100 7) = .rdRega ∧
    decode (.hop 0b000010000 7) = .rdLen ∧ decode (.hop 0b000010100 7) = .rdTick ∧
    decode (.hop 0b010000000 7) = .rdBuf 0 ∧ decode (.hop 0b011111100 7) = .rdBuf 31 := by decide
theorem test_decode_writes :
    decode (.hop 0b100000000 7) = .wrCmd 7 ∧ decode (.hop 0b100000100 7) = .wrStatus 7 ∧
    decode (.hop 0b100001000 7) = .wrSla 7 ∧ decode (.hop 0b100001100 7) = .wrRega 7 ∧
    decode (.hop 0b100010000 7) = .wrLen 7 ∧ decode (.hop 0b100010100 7) = .wrTick 7 ∧
    decode (.hop 0b110000000 7) = .wrBuf 0 7 ∧ decode (.hop 0b111111100 7) = .wrBuf 31 7 := by decide
theorem test_decode_reserved_offsets :
    decode (.hop 0b000011000 7) = .rdRsvd18 0x18 ∧ decode (.hop 0b000011100 7) = .rdRsvd18 0x1C ∧
    decode (.hop 0b000100000 7) = .rdRsvd20 0x20 ∧ decode (.hop 0b000111100 7) = .rdRsvd20 0x3C ∧
    decode (.hop 0b001000000 7) = .rdRsvd40 0x40 ∧ decode (.hop 0b001111100 7) = .rdRsvd40 0x7C ∧
    decode (.hop 0b100011000 7) = .wrRsvd18 0x18 7 ∧ decode (.hop 0b100111100 7) = .wrRsvd20 0x3C 7 ∧
    decode (.hop 0b101000000 7) = .wrRsvd40 0x40 7 := by decide
theorem test_decode_refused :
    decode (.hop 0b000000001 7) = .hostfaultOffOdd none 0x01 ∧ decode (.hop 0b111111111 7) = .hostfaultOffOdd (some 7) 0xFF ∧
    decode (.hop 0b000000110 7) = .hostfaultOff2 none 0x06 ∧ decode (.hop 0b110000010 7) = .hostfaultOff2 (some 7) 0x82 := by
  decide
theorem test_decode_bytes :
    decodeBytes .hop [0x08, 0x01, 0xE8, 0x02, 0x00, 0x00, 0xAA] = .ok (.wrSla 0x000002E8, [0xAA]) ∧
    decodeBytes .cmd [0xF2, 0xFF, 0xFF, 0xFF] = .ok (.start 0xFFFFFFF, []) := ⟨rfl, rfl⟩
theorem test_decode_bytes_rejects :
    decodeBytes .hop [0x08, 0x02] = .error .hopAboveNineBits ∧ decodeBytes .hop [0x08] = .error .tooFewBytes ∧
    decodeBytes .hop [0x08, 0x01, 0xE8] = .error .tooFewBytes ∧ decodeBytes .cmd [0x01] = .error .tooFewBytes :=
  ⟨rfl, rfl, rfl, rfl⟩
theorem test_decode_table_words :
    decodeTableWord 8 0x3 = some (.write 0) ∧ decodeTableWord 16 0x10C = some (.wrRega 0) ∧
    decodeTableWord 16 0x082 = some (.hostfaultOff2 none 0x82) := by decide

/-! ### One step of each host operation -/

/-- V-C3: STATUS 0x00000001 after acceptance, and bits 31:4 do not matter. -/
theorem test_start_accepted :
    look (fun t => (t.status.word, t.phase, t.opc)) (exec (.start 0xFFFFFFF) State.reset) = some (0x00000001, .aBegin, 2) := by
  decide
/-- V-C1, V-C2: the reserved opcodes; STATUS 0x00200008. -/
theorem test_reserved_rejected :
    look (fun t => (t.status.word, t.phase)) (exec (.cmdRsvd0 0) State.reset) = some (0x00200008, .idle) ∧
    look (·.status.word) (exec (.cmdRsvd67 0x6 0) State.reset) = some 0x00200008 ∧
    look (·.status.word) (exec (.cmdRsvd8F 0xF 0) State.reset) = some 0x00200008 := by decide
/-- V-C4, V-C5: a busy rejection, tested before the opcode; STATUS 0x00110009. -/
theorem test_busy_rejected :
    look (·.status.word) (exec (.readByte 0) (running 2 .wBusy 0)) = some 0x00110009 ∧
    look (·.status.word) (exec (.wrCmd 0) (running 2 .wBusy 0)) = some 0x00110009 ∧
    look (·.phase) (exec (.cmdRsvd0 0) (running 2 .wBusy 0)) = some .wBusy := by decide
/-- V-C8: acceptance clears the rejection, the result and the count; INIT is kept. -/
theorem test_init_accepted :
    look (fun t => (t.status.word, t.phase))
      (exec (.init 0) { State.reset with status := { Status.reset with
        done := true, ok := true, init := true, cmderr := true, cerr := 2, attempts := 3 } }) =
      some (0x00000011, .aInit) := by decide
/-- V-WR8, V-WR9, V-WR10: the length check. -/
theorem test_write_length :
    look (·.status.word) (exec (.write 0) State.reset) = some 0x00300008 ∧
    look (·.status.word) (exec (.write 0) { State.reset with len := 33 }) = some 0x00300008 ∧
    look (·.status.word) (exec (.wrCmd 0x3) { State.reset with len := 0x40 }) = some 0x00300008 ∧
    look (·.phase) (exec (.write 0) { State.reset with len := 32 }) = some .aBegin := by decide
/-- R197: the reads are accepted with any LEN. -/
theorem test_reads_accepted :
    look (fun t => (t.opc, t.phase)) (exec (.readBurst 0) State.reset) = some (4, .aBegin) ∧
    look (fun t => (t.opc, t.phase)) (exec (.readByte 0) { State.reset with len := 0xFF }) = some (5, .aBegin) := by decide
/-- V-R1, V-R2, V-R9, V-TB4: the low bits are stored. -/
theorem test_writes_truncate :
    look (·.sla) (exec (.wrSla 0x000000E8) State.reset) = some 0x68 ∧
    look (·.rega) (exec (.wrRega 0x00000175) State.reset) = some 0x75 ∧
    look (·.len) (exec (.wrLen 0x00000140) State.reset) = some 0x40 ∧
    look (·.tick) (exec (.wrTick 0x00012345) State.reset) = some 0x2345 := by decide
/-- V-R7, V-TB5: the writes are ignored while BUSY. -/
theorem test_writes_ignored_while_busy :
    look (fun t => (t.sla, t.rega, t.len)) (exec (.wrSla 0x11) (running 5 .wBrx 3)) = some (0x68, 0x75, 2) ∧
    look (·.rega) (exec (.wrRega 0x11) (running 5 .wBrx 3)) = some 0x75 ∧
    look (·.len) (exec (.wrLen 0x11) (running 5 .wBrx 3)) = some 2 ∧
    look (·.tick) (exec (.wrTick 0) (running 2 .wBusy 3)) = some 3 ∧
    look (fun t => t.buf[1]) (exec (.wrBuf 1 0x33) (running 5 .wBrx 3)) = some 0x22 := by decide
/-- V-R3: BUF[3] takes the low byte, and its neighbours nothing. -/
theorem test_wrBuf :
    look (fun t => (t.buf[2], t.buf[3], t.buf[4])) (exec (.wrBuf 3 0x0000ABCD) State.reset) = some (0, 0xCD, 0) := by decide
/-- V-C7, V-TB6, V-R8 and R202 to R204: the reads. -/
theorem test_reads :
    look (·.hRdata) (exec .rdCmd (running 5 .wBrx 17)) = some 5 ∧
    look (·.hRdata) (exec .rdSla (running 5 .wBrx 17)) = some 0x68 ∧
    look (·.hRdata) (exec .rdRega (running 5 .wBrx 17)) = some 0x75 ∧
    look (·.hRdata) (exec .rdLen (running 5 .wBrx 17)) = some 2 ∧
    look (·.hRdata) (exec .rdTick (running 2 .wBusy 17)) = some 0x00000011 ∧
    look (·.hRdata) (exec (.rdBuf 1) (running 5 .wBrx 17)) = some 0x22 := by decide
/-- R201's example: 0x00015512. -/
theorem test_rdStatus :
    look (·.hRdata) (exec .rdStatus { State.reset with status := { Status.reset with
      done := true, init := true, failkind := 5, failsite := 5, attempts := 1 } }) = some 0x00015512 := by decide
/-- V-R5: WR_STATUS has no effect. -/
theorem test_wrStatus : ns (exec (.wrStatus 0xFFFFFFFF) idleState) = some idleState := by decide
/-- V-R4: the reserved offsets. -/
theorem test_reserved_offsets :
    look (·.hRdata) (runTurn (access (.hop 0x040 0)) { idleState with hRdata := 9 }) = some 0 ∧
    look (·.hRdata) (exec (.rdRsvd18 0x18) { idleState with hRdata := 9 }) = some 0 ∧
    look (·.hRdata) (exec (.rdRsvd20 0x20) { idleState with hRdata := 9 }) = some 0 ∧
    ns (runTurn (access (.hop 0x140 0xFFFFFFFF)) idleState) = some idleState ∧
    ns (exec (.wrRsvd18 0x1C 7) idleState) = some idleState ∧ ns (exec (.wrRsvd20 0x3C 7) idleState) = some idleState := by
  decide
/-- V-R6: the refused accesses. -/
theorem test_hostfault :
    runTurn (access (.hop 0x006 0)) idleState = .fault (.hostFault 0x06 4) ∧
    runTurn (.host ⟨.hop 0x108 0x11, 1⟩) idleState = .fault (.hostFault 0x08 1) ∧
    runTurn (access (.hop 0x1FF 0)) idleState = .fault (.hostFault 0xFF 4) := ⟨rfl, rfl, rfl⟩

/-! ### One step of the other agents -/

/-- V-TB1, V-TB2, V-TB8: a tick and the wrap. -/
theorem test_tb :
    look (fun t => (t.tick, t.tickPend)) (runTurn .tb { State.reset with tick := 5, tickPend := true }) = some (6, false) ∧
    look (·.tick) (runTurn .tb { State.reset with tick := 0xFFFF, tickPend := true }) = some 0 := by decide
/-- V-X1: a reset in the middle of a WRITE. -/
theorem test_reset_abandons : ns (runTurn .reset (running 3 .wWtx 9)) = some State.reset := by decide
/-- V-W1 to V-W4: the bus-busy boundary. -/
theorem test_wBusy :
    ns (runTurn (.seq stuckBus) (running 2 .wBusy 49)) =
      some { running 2 .wBusy 49 with hist := [.sample .bbusy true] } ∧
    look (fun t => (t.status.word, t.phase)) (runTurn (.seq stuckBus) (running 2 .wBusy 50)) = some (0x00011102, .idle) ∧
    look (·.phase) (runTurn (.seq goodBus) (running 2 .wBusy 50)) = some .aStart ∧
    look (·.phase) (runTurn (.seq goodBus) (running 2 .wBusy 49)) = some .aStart := by decide
/-- V-W5, V-W6: the clock settle of WRITE. -/
theorem test_wWscl :
    look (·.phase) (runTurn (.seq stuckBus) (running 3 .wWscl 9)) = some .wWscl ∧
    look (·.status.word) (runTurn (.seq stuckBus) (running 3 .wWscl 10)) = some 0x00014402 := by decide
/-- V-W7: the last data byte, at the budget. -/
theorem test_wWtx :
    look (fun t => (t.hist, t.idx, t.phase)) (runTurn (.seq goodBus) { running 3 .wWtx 100 with len := 1 }) =
      some ([.sample .txrdy true, .act (.writeDr 0x11)], 1, .wWdrain) := by decide
/-- V-W8: a wait far past its budget, TICK kept. -/
theorem test_wRrx :
    look (fun t => (t.status.word, t.tick)) (runTurn (.seq stuckBus) (running 4 .wRrx 250)) = some (0x00018502, 250) := by
  decide
/-- V-S3, V-S4, V-RB3, V-RY2, V-RY3, V-RY4, V-WR4, V-WR5: STATUS after a failure at each of the other sites. -/
theorem test_failing_sites :
    look (·.status.word) (runTurn (.seq stuckBus) (running 2 .wSb 50)) = some 0x00012202 ∧
    look (·.status.word) (runTurn (.seq stuckBus) (running 2 .wRa 50)) = some 0x00013302 ∧
    look (·.status.word) (runTurn (.seq stuckBus) (running 4 .wRscl 100)) = some 0x00017402 ∧
    look (·.status.word) (runTurn (.seq stuckBus) (running 5 .wBscl 100)) = some 0x00019402 ∧
    look (·.status.word) (runTurn (.seq stuckBus) (running 5 .wBrs 100)) = some 0x0001A502 ∧
    look (·.status.word) (runTurn (.seq stuckBus) (running 5 .wBrx 100)) = some 0x0001B502 ∧
    look (·.status.word) (runTurn (.seq stuckBus) (running 3 .wWdrain 100)) = some 0x00016502 ∧
    look (·.status.word) (runTurn (.seq stuckBus) (running 3 .wWtx 100)) = some 0x00015502 := by decide
/-- V-RB1, V-RY1: the received byte, in BUF[0] alone. -/
theorem test_received :
    look (fun t => (t.buf[0], t.buf[1], t.status.word, t.hist)) (runTurn (.seq goodBus) (running 5 .wBrx 0)) =
      some (0x5A, 0x22, 0x00010006, [.sample .rxrdy true, .act (.readDr 0x5A)]) ∧
    look (fun t => (t.buf[0], t.status.word)) (runTurn (.seq goodBus) (running 4 .wRrx 0)) = some (0x5A, 0x00010006) := by
  decide
/-- V-I1, V-I3: INIT. -/
theorem test_aInit :
    look (fun t => (t.status.word, t.hist, t.phase)) (runTurn (.seq stuckBus) (attempted 0 (running 1 .aInit 7))) =
      some (0x00000016, [.act .cfgBus], .idle) := by decide
/-- V-RY5: W_BRS looks at START_PEND alone. -/
theorem test_wBrs_ignores_rxrdy :
    look (·.hist) (runTurn (.seq { goodBus with startPend := true }) (running 5 .wBrs 0)) = some [.sample .startPend true] := by
  decide
/-- V-RT1 to V-RT5: where a failed attempt leads. -/
theorem test_attempt_fails :
    look (·.phase) (runTurn (.seq stuckBus) (attempted 4 (running 3 .wSb 50))) = some .aBegin ∧
    look (·.phase) (runTurn (.seq stuckBus) (attempted 4 (running 5 .wSb 50))) = some .aDelay ∧
    look (fun t => (t.status.word)) (runTurn (.seq stuckBus) (attempted 5 (running 4 .wSb 50))) = some 0x00052202 := by decide
/-- R172: the last step of the delay, and the one before it. -/
theorem test_aDelay :
    look (fun t => (t.phase, t.dly)) (runTurn (.seq stuckBus) { running 5 .aDelay 0 with dly := 1 }) = some (.aBegin, 0) ∧
    look (fun t => (t.phase, t.dly)) (runTurn (.seq stuckBus) { running 5 .aDelay 0 with dly := 2 }) = some (.aDelay, 1) := by
  decide

/-- R34: the codes and arguments on the action port. -/
theorem test_action_port :
    ([.cfgBus, .clrTxrdy, .setSla 0x68, .setDir 1, .genStart, .writeDr 0xA1, .genStop, .genNackStop, .readDr 0x5A].map
      fun a => (actionCode a, actionArg a)) =
      [(1, 0), (2, 0), (3, 0x68), (4, 1), (5, 0), (6, 0xA1), (7, 0), (8, 0), (9, 0)] := by decide
/-- R102: tick_ack pulses with a request alone; R53: the bytes of a register; R70: h_we and h_addr. -/
theorem test_ports :
    tickAck .tb { idleState with tickPend := true } = true ∧ tickAck .tb idleState = false ∧
    windowByte { idleState with tick := 0x1234 } 0x14 = 0x34 ∧ windowByte { idleState with tick := 0x1234 } 0x15 = 0x12 ∧
    (hostWe (.hop 0x108 0), hostOff (.hop 0x108 0)) = (true, 0x08) ∧ hostWe (.hop 0x008 0) = false := by decide
/-- R78, R79: `write_bytes 0x68, 0x6B, [0xA1, 0xB2]` (the writes of program P2). -/
theorem test_asm_write_bytes :
    asmWriteBytes 0x68 0x6B [0xA1, 0xB2] =
      [.line (.wr .sla 0x68), .line (.wr .rega 0x6B), .line (.wr .len 2), .line (.wr (.buf 0) 0xA1),
       .line (.wr (.buf 1) 0xB2), .line (.cmd .write), .waitIdle] ∧
    lineWord (.wr (.buf 1) 0xB2) = .hop 0x184 0xB2 ∧ runResult 0x00010016 = true ∧ runResult 0x00015512 = false ∧
    waitIdleReads [0x00000001, 0x00010016] = true := by decide
/-- R79, V-I1: `run INIT` from reset reads STATUS while BUSY reads 1, once more after SEQ's step, and then is at its end. -/
theorem test_asm_run_init :
    runProgram [none, none, some (.seq goodBus), none] { todo := asmInit, state := .reset, reads := [] } =
      .next { todo := [], reads := [(.status, 0x00000001), (.status, 0x00000016)]
              state := { State.reset with
                opc := 1, hist := [.act .cfgBus], hRdata := 0x00000016
                status := { Status.reset with done := true, ok := true, init := true } } } := rfl

/-! ### Witnesses: states and operands that meet the hypotheses of the statements -/

/-- A running START, three ticks into its first window. -/
def busyState : State := running 2 .wBusy 3

/-- A READ_BYTE in its delay, with all its steps left. -/
def delayed : State := { running 5 .aDelay 50 with dly := Config.retryDelay }

/-- The invariant in states that run. -/
theorem inv_busyState : Inv busyState := by constructor <;> decide
theorem inv_write : Inv (running 3 .wWtx 100) := by constructor <;> decide
theorem inv_drain : Inv { running 3 .wWdrain 100 with idx := 2 } := by constructor <;> decide
theorem inv_brs : Inv (running 5 .wBrs 100) := by constructor <;> decide
theorem inv_fifth : Inv (attempted 5 (running 4 .wSb 50)) := by constructor <;> decide
theorem inv_idle : Inv idleState := by constructor <;> decide
theorem inv_delayed : Inv delayed := by
  constructor
  case delayRuns => exact fun _ => ⟨Nat.le_add_left _ _, Nat.le_refl _⟩
  case delayRests => exact fun h => absurd rfl h
  all_goals decide

theorem witness_DecodeEncodeAgree :
    WellFormed (.cmdRsvd67 0x6 0) = true ∧ WellFormed (.cmdRsvd8F 0xF 0) = true ∧ WellFormed (.rdRsvd18 0x1C) = true ∧
    WellFormed (.wrRsvd20 0x20 7) = true ∧ WellFormed (.wrRsvd40 0x7C 7) = true ∧
    WellFormed (.hostfaultOffOdd (some 7) 0xFF) = true ∧ WellFormed (.hostfaultOff2 none 0x02) = true := by decide
theorem witness_HostTurnRunsDecodedInstr :
    ({ idleState with turns := [access (.hop 0x108 0x11), .tb] } : State).turns = .host ⟨.hop 0x108 0x11, 4⟩ :: [.tb] := rfl
theorem witness_FetchWordIsNextInstr :
    decodeTableWord 16 0x10C = some (.wrRega 0) ∧ decodeTableWord 8 0x5 = some (.readByte 0) := by decide
theorem witness_HostStepFaultsExactlyWhenUndefined :
    (∀ off ∈ [0x01#8, 0x02#8, 0x03#8, 0xFF#8], off.extractLsb' 0 2 ≠ 0#2) ∧
    (∀ off ∈ [0x00#8, 0x04#8, 0xFC#8], off.extractLsb' 0 2 = 0#2) ∧ (1 ≠ 4 ∧ 8 ≠ 4) := by decide
theorem witness_CmdReadsBackOpcode :
    look (fun t => (t.status.cmderr, t.opc)) (exec (.wrCmd 0x5) idleState) = some (false, 5) ∧
    look (fun t => (t.status.cmderr, t.opc)) (exec (.wrCmd 0x6) busyState) = some (true, 2) ∧
    look (·.opc) (runTurn (access (.hop 0x108 0)) busyState) = some 2 ∧ 0x00 ∉ mayWrite (decode (.hop 0x108 0)) := by decide
/-- The two sides of the busy-write rule, for SlaAccess, RegaAccess, LenAccess, TickAccess, BufAccess, WrCmdRejectsOrAccepts,
ReservedOpcodesRejected, InitRuns and the runs on the ready bus. -/
theorem witness_idle_and_busy : idleState.status.busy = false ∧ busyState.status.busy = true := by decide
theorem witness_BufAccess :
    (running 4 .wRrx 3).phase = .wRrx ∧ (running 5 .wBrx 3).phase = .wBrx ∧ goodBus.rxrdy = true := by decide
theorem witness_ReservedOffsetsReadZeroWriteIgnored :
    ∀ off ∈ [0x18#8, 0x1C#8, 0x20#8, 0x3C#8, 0x40#8, 0x7C#8],
      0x18#8 ≤ off ∧ off ≤ 0x7C#8 ∧ off.extractLsb' 0 2 = 0#2 := by decide
theorem witness_ReadsReturnTheWindow : (0xFC#8).extractLsb' 0 2 = 0#2 ∧ windowWord idleState 0x84 = 0x22 := by decide
theorem witness_HostOperationFrame :
    (∃ t, exec (.wrBuf 31 7) idleState = .next t) ∧
    ((0x80#8).extractLsb' 2 6 ++ 0#2 : Byte) ∉ mayWrite (.wrBuf 31 7) ∧ readOffset (.wrBuf 31 7) = none ∧
    0x00 ∉ mayWrite (.wrBuf 31 7) := ⟨⟨_, rfl⟩, by decide, by decide, by decide⟩
theorem witness_HostLeavesRunningCommandAlone :
    (∃ t, exec (.readBurst 0) busyState = .next t) ∧ 0x04 ∈ mayWrite (.readBurst 0) ∧
    (∃ t, exec (.wrTick 0) busyState = .next t) ∧ 0x04 ∉ mayWrite (.wrTick 0) ∧ readOffset (.wrTick 0) = none ∧
    (∃ t, exec (.rdRsvd40 0x7C) busyState = .next t) ∧ readOffset (.rdRsvd40 0x7C) = some 0x7C :=
  ⟨⟨_, rfl⟩, by decide, ⟨_, rfl⟩, by decide, by decide, ⟨_, rfl⟩, by decide⟩
theorem witness_WrCmdRejectsOrAccepts :
    (0x00000006#32).extractLsb' 0 4 ∉ [0x1#4, 0x2#4, 0x3#4, 0x4#4, 0x5#4] ∧
    (0xFFFFFFF3#32).extractLsb' 0 4 = 0x3#4 ∧ (0x00000005#32).extractLsb' 0 4 ∈ [0x1#4, 0x2#4, 0x3#4, 0x4#4, 0x5#4] ∧
    (∀ n ∈ [0x00#8, 0x21#8, 0xFF#8], ¬(1 ≤ n.toNat ∧ n.toNat ≤ 32)) ∧
    (∀ n ∈ [0x01#8, 0x20#8], 1 ≤ n.toNat ∧ n.toNat ≤ 32) := by decide
theorem witness_WriteSendsBufferInOrderThenStops :
    ∀ n ∈ [0x01#8, 0x20#8], ({ idleState with len := n } : State).status.busy = false ∧
      1 ≤ ({ idleState with len := n } : State).len.toNat ∧ ({ idleState with len := n } : State).len.toNat ≤ 32 := by decide
/-- A successful WRITE and a successful READ_BYTE, with a host write and a tick in the middle. -/
theorem witness_SuccessfulWriteSendsExactlyItsBytes :
    look (fun t => (t.status.busy, t.status.ok, actionsOf t.hist))
      (runWhileBusy (seqTurns 7 goodBus ++ [.timer, access (.hop 0x108 0x11), .tb] ++ seqTurns 5 goodBus)
        (accept opcWrite idleState)) =
      some (false, true, startActions 0x68 0x75 ++ [.writeDr 0x11, .writeDr 0x22, .genStop]) := by decide
theorem witness_SuccessfulReadByteReadsExactlyOneByte :
    look (fun t => (t.status.busy, t.status.ok, t.buf[0]))
      (runWhileBusy (seqTurns 7 goodBus ++ [.timer, access (.hop 0x180 0x11), .tb] ++ seqTurns 4 goodBus)
        (accept opcReadByte idleState)) = some (false, true, 0x5A) := by decide
theorem witness_TimerAndTbSteps : ({ idleState with tick := 0xFFFF, tickPend := true } : State).tickPend = true := rfl
theorem witness_TicksAreCounted : idleState.tickPend = false := rfl
theorem witness_ActionPhases :
    ∀ ph ∈ [Phase.aBegin, .aStart, .aRegaddr, .aWscl, .aWdata, .aRscl, .aRrs, .aBscl, .aBrs],
      (running 3 ph 9).phase = ph := by decide
/-- For BusBusyAndStartWaits, RegisterAddressWait, WriteWaits, ReadBurstWaits, ReadByteWaits and WaitSitesFollowTheTable: in every
wait phase, the flag with the value and without it, and the counter one below the budget and at it. -/
theorem witness_waits :
    ∀ ph ∈ [Phase.wBusy, .wSb, .wRa, .wWscl, .wWtx, .wWdrain, .wRscl, .wRrx, .wBscl, .wBrs, .wBrx],
      ∀ r ∈ (siteRow (running 3 ph 0).phase).toList,
        pinOf goodBus r.flag = r.value ∧ pinOf stuckBus r.flag ≠ r.value ∧
        (running 3 ph (BitVec.ofNat 16 (r.budget - 1))).tick.toNat < r.budget ∧
        r.budget ≤ (running 3 ph (BitVec.ofNat 16 r.budget)).tick.toNat := by decide
theorem witness_WaitSitesFollowTheTable :
    look (fun t => some t == waitSuccess goodBus (running 3 .wRa 50)) (runTurn (.seq goodBus) (running 3 .wRa 50)) =
      some true ∧ Inv (running 3 .wWtx 100) ∧ (waitSuccess goodBus (running 3 .wWtx 100)).map (·.idx) = some 1 :=
  ⟨by decide, inv_write, by decide⟩
theorem witness_waits_have_rows :
    ∀ ph ∈ [Phase.wBusy, .wSb, .wRa, .wWscl, .wWtx, .wWdrain, .wRscl, .wRrx, .wBscl, .wBrs, .wBrx],
      (siteRow ph).isSome = true := by decide
theorem witness_RegisterAddressWait :
    ∀ opc ∈ [0x2#4, 0x3#4, 0x4#4, 0x5#4], (running opc .wRa 50).phase = .wRa ∧ (running opc .wRa 50).opc = opc ∧
      goodBus.txrdy = true ∧ stuckBus.txrdy = false := by decide
theorem witness_ReservedOpcodesRejected : (0x7#4 = 0x6#4 ∨ 0x7#4 = 0x7#4) ∧ 0x8#4 ≤ 0x8#4 ∧ 0x8#4 ≤ 0xF#4 := by decide
theorem witness_WriteWaits_byte : ({ running 3 .wWtx 0 with idx := 31 } : State).buf[31]? = some 0x00 := by decide
theorem witness_AttemptFailRetriesOrFinishes :
    (running 2 .wSb 50).opc = 0x2 ∧ (running 5 .wSb 50).opc = 0x5 ∧ (running 5 .wSb 50).opc ≠ 0x2 ∧
    (running 3 .wSb 50).opc ≠ 0x2 ∧ (running 3 .wSb 50).opc ≠ 0x5 ∧
    (attempted 4 (running 3 .wSb 50)).status.attempts.toNat < 5 ∧
    5 ≤ (attempted 5 (running 3 .wSb 50)).status.attempts.toNat := by decide
theorem witness_DelayTakesItsSteps : delayed.phase = .aDelay ∧ 0 < delayed.dly ∧ 1 ≤ delayed.dly ∧
    ({ delayed with dly := 1 } : State).dly ≤ 1 :=
  ⟨rfl, Nat.succ_pos _, Nat.succ_pos _, Nat.le_refl _⟩
theorem witness_AgentsStepExactlyWhenEnabled :
    idleState.phase = .idle ∧ busyState.phase ≠ .idle ∧ (∃ t, runTurn (.seq stuckBus) busyState = .next t) ∧
    idleState.tickPend = false ∧ ({ idleState with tickPend := true } : State).tickPend = true :=
  ⟨rfl, by decide, ⟨_, rfl⟩, rfl, rfl⟩
theorem witness_FailuresArePrecise :
    (running 3 .wWtx 100).phase ≠ .idle ∧
    look (fun t => (t.phase, t.status.ok)) (runTurn (.seq stuckBus) (running 3 .wWtx 100)) = some (.idle, false) := by decide
theorem witness_SeqStepFrame :
    (∃ t, runTurn (.seq goodBus) (running 3 .aWdata 7) = .next t) ∧ (running 3 .aWdata 7).phase ≠ .aInit ∧
    (running 3 .aWdata 7).phase ≠ .aBegin := ⟨⟨_, rfl⟩, by decide, by decide⟩
theorem witness_StopsOnlyWhereTheSpecPutsThem :
    Inv { running 3 .wWdrain 100 with idx := 2 } ∧ Inv (running 5 .wBrs 100) ∧
    look (·.hist) (runTurn (.seq goodBus) { running 3 .wWdrain 100 with idx := 2 }) =
      some ([] ++ [.sample .txrdy true, .act .genStop]) ∧
    look (·.hist) (runTurn (.seq goodBus) (running 5 .wBrs 100)) =
      some ([] ++ [.sample .startPend false, .act .genNackStop]) := ⟨inv_drain, inv_brs, by decide, by decide⟩
theorem witness_HistoryOnlyGrows :
    (∃ t, runTurn (.seq goodBus) busyState = .next t) ∧ (∃ t, runTurn .timer busyState = .next t) ∧
    (Turn.seq goodBus ≠ .reset) ∧ (∀ p, Turn.timer ≠ .seq p) := ⟨⟨_, rfl⟩, ⟨_, rfl⟩, by decide, fun _ => by simp⟩
theorem witness_RetriedCommandFailsAfterFiveAttempts :
    Inv (attempted 5 (running 4 .wSb 50)) ∧ (attempted 5 (running 4 .wSb 50)).opc ≠ opcStart ∧
    look (fun t => (t.phase, t.status.ok, t.status.failsite)) (runTurn (.seq stuckBus) (attempted 5 (running 4 .wSb 50))) =
      some (.idle, false, 2) := ⟨inv_fifth, by decide, by decide⟩
theorem witness_PolledWaitEndsAtItsBudget :
    siteRow (running 3 .wWscl 0).phase = some ⟨4, .sclLow, false, 10, .clockStretch⟩ ∧ (running 3 .wWscl 0).tick = 0 ∧
    (running 3 .wWscl 0).tickPend = false ∧ pinOf stuckBus .sclLow ≠ false ∧ 9 ≤ 10 ∧ 10 ≤ 10 := by decide
theorem witness_StepKeepsInvariant :
    Inv { running 3 .wWtx 100 with turns := [.seq goodBus] } ∧
    look (fun t => (t.phase, t.idx)) (step { running 3 .wWtx 100 with turns := [.seq goodBus] }) = some (.wWtx, 1) :=
  ⟨by constructor <;> decide, by decide⟩
theorem witness_StepsStopOnlyForUndefinedAccess :
    Inv busyState ∧ Inv { busyState with turns := [access (.hop 0x006 0)] } ∧
    step { busyState with turns := [access (.hop 0x006 0)] } = .fault (.hostFault 0x06 4) :=
  ⟨inv_busyState, by constructor <;> decide, rfl⟩
theorem witness_SeqStepSpinsOrLowersMeasure :
    Inv busyState ∧ busyState.phase ≠ .idle ∧ (∃ t, runTurn (.seq stuckBus) busyState = .next t) ∧
    Inv delayed ∧ delayed.phase ≠ .idle :=
  ⟨inv_busyState, by decide, ⟨_, rfl⟩, inv_delayed, by decide⟩
theorem witness_CommandEndsWithinItsBound :
    Inv (running 3 .wWtx 100) ∧ (List.replicate 3434 stuckBus).length = 101 * rank (running 3 .wWtx 100) :=
  ⟨inv_write, List.length_replicate⟩

/-- An execution: a START takes its last step, and then the timer and TB take turns for ever, with no turn of SEQ in IDLE. -/
def fairTurn : Nat → Turn
  | 0 => .seq goodBus
  | n + 1 => if n % 2 = 0 then .timer else .tb
/-- The states of that execution. -/
def fairState : Nat → State
  | 0 => running 2 .wRa 0
  | n + 1 =>
    { finishOk { running 2 .wRa 0 with hist := [.sample .txrdy true] } with
      tick := BitVec.ofNat 16 (n / 2), tickPend := n % 2 == 1 }

theorem fairState_idle (n : Nat) : (fairState (n + 1)).phase = .idle := rfl

theorem witness_EveryRunningCommandEnds :
    IsRun fairState fairTurn ∧ Inv (fairState 0) ∧ TimerKeepsFiring fairTurn ∧ TbFair fairState fairTurn ∧
    SeqFair fairState fairTurn ∧ PollFasterThanTick fairState fairTurn ∧ NoWaitSeesAWrap fairState fairTurn ∧
    (fairState 0).phase ≠ .idle := by
  refine ⟨?_, by constructor <;> decide, fun n => ⟨2 * n + 1, by omega, by simp [fairTurn]⟩,
    fun n _ => ⟨2 * n + 2, by omega, by simp [fairTurn]⟩, ?_, ?_, ?_, by decide⟩
  · intro n
    cases n with
    | zero => rfl
    | succ n =>
      rcases (by omega : n % 2 = 0 ∨ n % 2 = 1) with h | h
      · simp [fairTurn, fairState, runTurn, timerStep, State.setTickPend, h, show (n + 1) % 2 = 1 by omega,
          show (n + 1) / 2 = n / 2 by omega]
      · simp [fairTurn, fairState, runTurn, tbStep, State.setTickPend, State.setTick, h, show (n + 1) % 2 = 0 by omega,
          show (n + 1) / 2 = n / 2 + 1 by omega, BitVec.ofNat_add]
  · intro n hn
    cases n with
    | zero => exact ⟨0, Nat.le_refl _, goodBus, rfl⟩
    | succ n => exact absurd (fairState_idle n) hn
  · intro m n hmn _ _ hw
    cases n with
    | zero => omega
    | succ n => exact absurd (hw (n + 1) hmn (Nat.le_refl _)) (by rw [fairState_idle]; decide)
  · intro n _ hw
    cases n with
    | zero => decide
    | succ n => exact absurd hw (by rw [fairState_idle]; decide)

end Sys2Proof.Tests
end

section
/-! SUPPORT. The schedule (log 2): a step takes the first listed turn, and no turn of any agent reads or alters the turns listed
after it. -/

namespace Sys2Proof.Machine

variable {s : State} {x : Turn} {ts : List Turn}

/-! ### The next turn -/

/-- A step with a listed turn is that turn, on the state with the turns after it. -/
theorem step_of_turns_cons (h : s.turns = x :: ts) : step s = runTurn x { s with turns := ts } := by
  rw [step, takeTurn_cons h]

/-- A 4-byte host access executes what its word decodes to. -/
theorem runTurn_host_fourBytes (h : HostWord) (s : State) : runTurn (.host ⟨h, 4⟩) s = exec (decode h) s := rfl

theorem step_of_hostTurn {h : HostWord} (ht : s.turns = .host ⟨h, 4⟩ :: ts) :
    step s = exec (decode h) { s with turns := ts } := by
  rw [step_of_turns_cons ht, runTurn_host_fourBytes]

/-- A table word the decoder accepts is placed as the host's next access. -/
theorem withFetchWord_of_tableHostWord {nbits w : Nat} {h : HostWord} (hw : tableHostWord nbits w = some h) :
    s.withFetchWord nbits w = { s with turns := .host ⟨h, 4⟩ :: s.turns } := by
  rw [State.withFetchWord, hw]

/-- The decoder reads a table word as the host access that is placed for it. -/
theorem decodeTableWord_eq_map (nbits w : Nat) : decodeTableWord nbits w = (tableHostWord nbits w).map decode := by
  rw [decodeTableWord, decodeBytes, tableHostWord]
  cases hostWordOfBytes (formOfTableBits nbits) (tableBytes nbits w) <;> rfl

/-! ### No operation reads or alters the listed turns -/

/-- The state with other turns to come. -/
def State.withTurns (ts : List Turn) (s : State) : State := { s with turns := ts }

/-- A result with other turns to come in its next state; a fault or a refusal has none. -/
def resultWithTurns (ts : List Turn) : Result → Result
  | .next s => .next (s.withTurns ts)
  | .fault r => .fault r
  | .refused r => .refused r

@[simp] theorem resultWithTurns_next (t : State) : resultWithTurns ts (.next t) = .next (t.withTurns ts) := rfl

/-- A write that does not see the turns still does not under the busy-write rule. -/
theorem whileIdle_withTurns {f : State → State} (hf : f (s.withTurns ts) = (f s).withTurns ts) :
    whileIdle (s.withTurns ts) f = (whileIdle s f).withTurns ts := by
  rw [whileIdle, hf, whileIdle, apply_ite (State.withTurns ts)]
  rfl

theorem requestUnlessBusy_withTurns (opc : BitVec 4) :
    requestUnlessBusy opc (s.withTurns ts) = (requestUnlessBusy opc s).withTurns ts := by
  rw [requestUnlessBusy.eq_def opc s, apply_ite (State.withTurns ts)]
  rfl

theorem requestReserved_withTurns : requestReserved (s.withTurns ts) = (requestReserved s).withTurns ts := by
  rw [requestReserved.eq_def s, apply_ite (State.withTurns ts)]
  rfl

theorem requestCommand_withTurns (opc : BitVec 4) :
    requestCommand opc (s.withTurns ts) = (requestCommand opc s).withTurns ts := by
  rw [requestCommand.eq_def opc s]
  simp only [apply_ite (State.withTurns ts)]
  rfl

theorem execWrite_withTurns (ign : BitVec 28) :
    execWrite ign (s.withTurns ts) = resultWithTurns ts (execWrite ign s) := by
  rw [execWrite.eq_def ign s, resultWithTurns_next]
  simp only [apply_ite (State.withTurns ts)]
  rfl

theorem exec_withTurns (i : Instr) : exec i (s.withTurns ts) = resultWithTurns ts (exec i s) := by
  cases i with
  | init | start | readBurst | readByte => exact congrArg Host.Outcome.next (requestUnlessBusy_withTurns _)
  | cmdRsvd0 | cmdRsvd67 | cmdRsvd8F => exact congrArg Host.Outcome.next requestReserved_withTurns
  | write ign => exact execWrite_withTurns ign
  | wrCmd => exact congrArg Host.Outcome.next (requestCommand_withTurns _)
  | wrSla | wrRega | wrLen | wrTick | wrBuf => exact congrArg Host.Outcome.next (whileIdle_withTurns rfl)
  | rdCmd | rdStatus | rdSla | rdRega | rdLen | rdTick | rdBuf | rdRsvd18 | rdRsvd20 | rdRsvd40
  | wrStatus | wrRsvd18 | wrRsvd20 | wrRsvd40 | hostfaultOffOdd | hostfaultOff2 => rfl

theorem attemptFail_withTurns (k : FailKind) (site : BitVec 4) :
    attemptFail k site (s.withTurns ts) = (attemptFail k site s).withTurns ts := by
  rw [attemptFail.eq_def k site s]
  simp only [apply_ite (State.withTurns ts)]
  rfl

theorem startDone_withTurns : startDone (s.withTurns ts) = resultWithTurns ts (startDone s) := by
  rw [startDone.eq_def s]
  simp only [apply_ite (resultWithTurns ts)]
  rfl

theorem sendDataByte_withTurns : sendDataByte (s.withTurns ts) = resultWithTurns ts (sendDataByte s) := by
  have hb : dataByte (s.withTurns ts) (s.withTurns ts).idx = dataByte s s.idx := rfl
  rw [sendDataByte, sendDataByte, hb]
  cases dataByte s s.idx <;> rfl

theorem phaseADelay_withTurns : phaseADelay (s.withTurns ts) = resultWithTurns ts (phaseADelay s) := by
  rw [phaseADelay.eq_def s, apply_ite (resultWithTurns ts)]
  rfl

/-- A wait does not see the turns where neither of its ways out does. -/
theorem waitOn_withTurns {f : Flag} {v : Bool} {b : Nat} {p : BusPins} {ok timeout : State → Result}
    (hok : ∀ t : State, ok (t.withTurns ts) = resultWithTurns ts (ok t))
    (htimeout : ∀ t : State, timeout (t.withTurns ts) = resultWithTurns ts (timeout t)) :
    waitOn f v b p ok timeout (s.withTurns ts) = resultWithTurns ts (waitOn f v b p ok timeout s) := by
  have hrecord : (s.withTurns ts).record (.sample f (pinOf p f)) = (s.record (.sample f (pinOf p f))).withTurns ts := rfl
  rw [waitOn, waitOn, hrecord, hok, htimeout, apply_ite (resultWithTurns ts), apply_ite (resultWithTurns ts)]
  rfl

theorem seqStep_withTurns (p : BusPins) : seqStep p (s.withTurns ts) = resultWithTurns ts (seqStep p s) := by
  have hattempt (k : FailKind) (site : BitVec 4) (t : State) :
      (.next (attemptFail k site (t.withTurns ts)) : Result) = resultWithTurns ts (.next (attemptFail k site t)) :=
    congrArg Host.Outcome.next (attemptFail_withTurns k site)
  have hphase : (s.withTurns ts).phase = s.phase := rfl
  rw [seqStep, seqStep, hphase]
  cases s.phase with
  | idle | aInit | aBegin | aStart | aRegaddr | aWscl | aWdata | aRscl | aRrs | aBscl | aBrs => rfl
  | aDelay => exact phaseADelay_withTurns
  | wBusy | wSb => exact waitOn_withTurns (fun _ => rfl) (hattempt _ _)
  | wRa => exact waitOn_withTurns (fun _ => startDone_withTurns) (hattempt _ _)
  | wWtx => exact waitOn_withTurns (fun _ => sendDataByte_withTurns) fun _ => rfl
  | wWscl | wWdrain | wRscl | wRrx | wBscl | wBrs | wBrx => exact waitOn_withTurns (fun _ => rfl) fun _ => rfl

theorem tbStep_withTurns : tbStep (s.withTurns ts) = (tbStep s).withTurns ts := by
  rw [tbStep.eq_def s, apply_ite (State.withTurns ts)]
  rfl

theorem hostStep_withTurns (a : HostAccess) : hostStep a (s.withTurns ts) = resultWithTurns ts (hostStep a s) := by
  rw [hostStep, exec_withTurns, hostStep, apply_ite (resultWithTurns ts)]
  rfl

/-- A turn of any agent, reset included, does the same whatever turns are listed after it, and leaves them. -/
theorem runTurn_withTurns (x : Turn) (s : State) : runTurn x (s.withTurns ts) = resultWithTurns ts (runTurn x s) := by
  cases x with
  | host a => exact hostStep_withTurns a
  | seq p => exact seqStep_withTurns p
  | tb => exact congrArg Host.Outcome.next tbStep_withTurns
  | timer | reset => rfl

/-- Steps over listed turns are those turns, in order. -/
theorem runSteps_listedTurns (ts rest : List Turn) (s : State) :
    runSteps ts.length (s.withTurns (ts ++ rest)) = runTurns ts (s.withTurns rest) := by
  induction ts generalizing s with
  | nil => rfl
  | cons x xs ih =>
    have hstep : step (s.withTurns (x :: xs ++ rest)) = runTurn x (s.withTurns (xs ++ rest)) := step_of_turns_cons rfl
    rw [List.length_cons, runSteps, hstep, runTurns, runTurn_withTurns, runTurn_withTurns]
    cases runTurn x s with
    | next t => exact ih t
    | fault r | refused r => rfl

end Sys2Proof.Machine

namespace Sys2Proof.Proofs

open Sys2Proof.Machine

/-- Settles O8: the first listed turn is taken, and it is a 4-byte host access. -/
theorem hostTurnRunsDecodedInstr : Obligations.HostTurnRunsDecodedInstr := by
  intro s h ts hturns
  exact step_of_hostTurn hturns

/-- Settles O9: the placed word is the first listed turn, so O8's lemma says what the step runs. -/
theorem fetchWordIsNextInstr : Obligations.FetchWordIsNextInstr := by
  intro s nbits w i hdecode
  rw [decodeTableWord_eq_map] at hdecode
  obtain ⟨h, hword, rfl⟩ := Option.map_eq_some_iff.1 hdecode
  rw [withFetchWord_of_tableHostWord hword]
  exact step_of_hostTurn rfl

/-- Settles O10, by induction on the listed turns: a turn does the same whatever turns come after it. -/
theorem stepsFollowListedTurns : Obligations.StepsFollowListedTurns := by
  intro ts rest s
  exact runSteps_listedTurns ts rest s

end Sys2Proof.Proofs
end

section
/-! SUPPORT. What a host operation can do and what it leaves (43_host_access.md R190 to R206): its moves as a relation, and
the frame lemmas over it. -/

namespace Sys2Proof.Machine

variable {i : Instr} {s t : State}

/-! ### The moves of the host -/

/-- The moves of a host operation that completes: what it may do, and when. -/
inductive HostMove (i : Instr) (s : State) : State → Prop
  | unchanged : HostMove i s s
  | reads (off : Byte) (w : Word) (h : readOffset i = some off) : HostMove i s (s.setRdata w)
  | rejects (c : RejectCause) (h : 0x04#8 ∈ mayWrite i) : HostMove i s (reject c s)
  | accepts (opc : BitVec 4) (hcmd : 0x00#8 ∈ mayWrite i) (hstatus : 0x04#8 ∈ mayWrite i) (hb : s.status.busy = false)
      (hlo : opcInit ≤ opc) (hhi : opc ≤ opcReadByte) (hl : opc = opcWrite → lengthAllowed s = true) :
      HostMove i s (accept opc s)
  | setsSla (v : BitVec 7) (h : 0x08#8 ∈ mayWrite i) (hb : s.status.busy = false) : HostMove i s (s.setSla v)
  | setsRega (v : Byte) (h : 0x0C#8 ∈ mayWrite i) (hb : s.status.busy = false) : HostMove i s (s.setRega v)
  | setsLen (v : Byte) (h : 0x10#8 ∈ mayWrite i) (hb : s.status.busy = false) : HostMove i s (s.setLen v)
  | setsTick (v : BitVec 16) (h : 0x14#8 ∈ mayWrite i) (hb : s.status.busy = false) : HostMove i s (s.setTick v)
  | setsBuf (k : BitVec 5) (v : Byte) (h : 1#1 ++ k ++ 0#2 ∈ mayWrite i) (hb : s.status.busy = false) :
      HostMove i s (s.setBuf k v)

theorem whileIdle_move {f : State → State} (hf : s.status.busy = false → HostMove i s (f s)) :
    HostMove i s (whileIdle s f) := by
  cases hb : s.status.busy with
  | true => rw [whileIdle_busy hb]; exact .unchanged
  | false => rw [whileIdle_idle hb]; exact hf hb

/-- A command without a length check is a move of an instruction that may write CMD and STATUS. -/
theorem requestUnlessBusy_move {opc : BitVec 4} (hw : mayWrite i = [0x00, 0x04]) (hlo : opcInit ≤ opc)
    (hhi : opc ≤ opcReadByte) (hne : opc ≠ opcWrite) : HostMove i s (requestUnlessBusy opc s) := by
  rcases requestUnlessBusy_cases opc s with ⟨-, e⟩ | ⟨hb, e⟩ <;> rw [e]
  · exact .rejects _ (by simp [hw])
  · exact .accepts opc (by simp [hw]) (by simp [hw]) hb hlo hhi fun h => absurd h hne

theorem requestReserved_move (hw : 0x04#8 ∈ mayWrite i) : HostMove i s (requestReserved s) := by
  rcases requestReserved_cases s with ⟨-, e⟩ | ⟨-, e⟩ <;> rw [e]
  · exact .rejects _ hw
  · exact .rejects _ hw

theorem requestCommand_move {opc : BitVec 4} (hw : mayWrite i = [0x00, 0x04]) : HostMove i s (requestCommand opc s) := by
  rcases requestCommand_cases opc s with ⟨-, e⟩ | ⟨-, -, e⟩ | ⟨-, -, -, e⟩ | ⟨hb, ho, hl, e⟩ <;> rw [e]
  · exact .rejects _ (by simp [hw])
  · exact .rejects _ (by simp [hw])
  · exact .rejects _ (by simp [hw])
  · rw [not_or, BitVec.not_lt, BitVec.not_lt] at ho
    exact .accepts opc (by simp [hw]) (by simp [hw]) hb ho.1 ho.2 hl

theorem execWrite_move {ign : BitVec 28} (hw : mayWrite i = [0x00, 0x04]) (h : execWrite ign s = .next t) :
    HostMove i s t := by
  rcases execWrite_cases ign s with ⟨-, e⟩ | ⟨hb, hl, e⟩ | ⟨-, -, e⟩ <;> cases e.symm.trans h
  · exact .rejects _ (by simp [hw])
  · exact .accepts _ (by simp [hw]) (by simp [hw]) hb (by decide) (by decide) fun _ => hl
  · exact .rejects _ (by simp [hw])

/-- Every host operation that completes is one of the moves. -/
theorem exec_move (h : exec i s = .next t) : HostMove i s t := by
  cases i with
  | init | start | readBurst | readByte =>
    exact Host.Outcome.next.inj h ▸ requestUnlessBusy_move rfl (by decide) (by decide) (by decide)
  | write ign => exact execWrite_move (ign := ign) rfl h
  | wrCmd => exact Host.Outcome.next.inj h ▸ requestCommand_move rfl
  | cmdRsvd0 | cmdRsvd67 | cmdRsvd8F => exact Host.Outcome.next.inj h ▸ requestReserved_move (.head _)
  | rdCmd | rdStatus | rdSla | rdRega | rdLen | rdTick | rdBuf | rdRsvd18 | rdRsvd20 | rdRsvd40 =>
    exact Host.Outcome.next.inj h ▸ .reads _ _ rfl
  | wrStatus | wrRsvd18 | wrRsvd20 | wrRsvd40 => exact Host.Outcome.next.inj h ▸ .unchanged
  | wrSla => exact Host.Outcome.next.inj h ▸ whileIdle_move (.setsSla _ (.head _))
  | wrRega => exact Host.Outcome.next.inj h ▸ whileIdle_move (.setsRega _ (.head _))
  | wrLen => exact Host.Outcome.next.inj h ▸ whileIdle_move (.setsLen _ (.head _))
  | wrTick => exact Host.Outcome.next.inj h ▸ whileIdle_move (.setsTick _ (.head _))
  | wrBuf => exact Host.Outcome.next.inj h ▸ whileIdle_move (.setsBuf _ _ (.head _))
  | hostfaultOffOdd | hostfaultOff2 => cases h

/-! ### The window of a host operation -/

/-- The offset of the word that holds an offset (20_memory.md R51). -/
def wordOffset (off : Byte) : Byte := off.extractLsb' 2 6 ++ 0#2

/-- Below BUF it is the word number, times four. -/
theorem wordOffset_of_low (off : Byte) (h : off.extractLsb' 7 1 ≠ 1#1) :
    wordOffset off = 0#1 ++ off.extractLsb' 2 5 ++ 0#2 := by
  revert off
  decide

theorem wordOffset_of_buf (off : Byte) (h : off.extractLsb' 7 1 = 1#1) :
    wordOffset off = 1#1 ++ off.extractLsb' 2 5 ++ 0#2 := by
  revert off
  decide

/-- A word of the window reads the same in two states that agree on the register it stands for. -/
theorem windowWord_congr {off : Byte}
    (opc : wordOffset off = 0x00#8 → t.opc = s.opc := by exact fun _ => rfl)
    (status : wordOffset off = 0x04#8 → t.status = s.status := by exact fun _ => rfl)
    (sla : wordOffset off = 0x08#8 → t.sla = s.sla := by exact fun _ => rfl)
    (rega : wordOffset off = 0x0C#8 → t.rega = s.rega := by exact fun _ => rfl)
    (len : wordOffset off = 0x10#8 → t.len = s.len := by exact fun _ => rfl)
    (tick : wordOffset off = 0x14#8 → t.tick = s.tick := by exact fun _ => rfl)
    (buf : ∀ k, wordOffset off = 1#1 ++ k ++ 0#2 → bufWord t k = bufWord s k := by exact fun _ _ => rfl) :
    windowWord t off = windowWord s off := by
  unfold windowWord
  by_cases hbuf : off.extractLsb' 7 1 = 1#1
  · rw [if_pos hbuf, if_pos hbuf, buf _ (wordOffset_of_buf off hbuf)]
  · rw [if_neg hbuf, if_neg hbuf]
    rw [wordOffset_of_low off hbuf] at opc status sla rega len tick
    generalize off.extractLsb' 2 5 = word at *
    dsimp only
    split
    · subst word; rw [opc rfl]
    split
    · subst word; rw [status rfl]
    split
    · subst word; rw [sla rfl]
    split
    · subst word; rw [rega rfl]
    split
    · subst word; rw [len rfl]
    split
    · subst word; rw [tick rfl]
    · rfl

theorem bufWord_setBuf_ne {k j : BitVec 5} {v : Byte} (h : k ≠ j) : bufWord (s.setBuf k v) j = bufWord s j := by
  have hne : k.toNat ≠ j.toNat := fun e => h (BitVec.eq_of_toNat_eq e)
  simp [bufWord, hne]

/-- A host operation changes no word of the window outside those it may write. -/
theorem HostMove.windowWord_eq (m : HostMove i s t) {off : Byte} (hoff : wordOffset off ∉ mayWrite i) :
    windowWord t off = windowWord s off := by
  cases m with
  | unchanged | reads => rfl
  | rejects c h => exact windowWord_congr (status := fun e => absurd h (e ▸ hoff))
  | accepts opc hcmd hstatus =>
    exact windowWord_congr (opc := fun e => absurd hcmd (e ▸ hoff)) (status := fun e => absurd hstatus (e ▸ hoff))
  | setsSla v h => exact windowWord_congr (sla := fun e => absurd h (e ▸ hoff))
  | setsRega v h => exact windowWord_congr (rega := fun e => absurd h (e ▸ hoff))
  | setsLen v h => exact windowWord_congr (len := fun e => absurd h (e ▸ hoff))
  | setsTick v h => exact windowWord_congr (tick := fun e => absurd h (e ▸ hoff))
  | setsBuf k v h =>
    exact windowWord_congr (buf := fun j e => bufWord_setBuf_ne fun hkj => absurd h (hkj ▸ e ▸ hoff))

/-! ### The rest of the state -/

theorem HostMove.hRdata_eq (m : HostMove i s t) (h : readOffset i = none) : t.hRdata = s.hRdata := by
  cases m with
  | reads off w hr => cases hr.symm.trans h
  | _ => rfl

/-- Only an accepted command moves SEQ. -/
theorem HostMove.hidden_eq (m : HostMove i s t) (h : 0x00#8 ∉ mayWrite i) :
    t.phase = s.phase ∧ t.idx = s.idx ∧ t.dly = s.dly := by
  cases m with
  | accepts opc hcmd => exact absurd hcmd h
  | _ => exact ⟨rfl, rfl, rfl⟩

theorem HostMove.hist_eq (m : HostMove i s t) : t.hist = s.hist := by
  cases m <;> rfl

theorem HostMove.tickPend_eq (m : HostMove i s t) : t.tickPend = s.tickPend := by
  cases m <;> rfl

theorem HostMove.schedule_eq (m : HostMove i s t) : t.turns = s.turns ∧ t.turnNo = s.turnNo := by
  cases m <;> exact ⟨rfl, rfl⟩

end Sys2Proof.Machine

namespace Sys2Proof.Proofs

open Sys2Proof.Machine

/-- Settles O22: each clause holds of every move a host operation can make. -/
theorem hostOperationFrame : Obligations.HostOperationFrame := by
  intro i s t h
  have m := exec_move h
  exact ⟨fun _ => m.windowWord_eq, m.hRdata_eq, m.hidden_eq, m.hist_eq, m.tickPend_eq, m.schedule_eq⟩

end Sys2Proof.Proofs
end

section
/-! SUPPORT. What a SEQ step leaves unchanged, and the frame of every turn on the bus history (10_state.md R30, R31;
20_memory.md R65; 40_timebase.md R105). -/

namespace Sys2Proof.Machine

variable {s t : State} {p : BusPins} {x : Turn}

/-! ### A SEQ step -/

/-- What no SEQ step changes: CMD and the descriptor, the tick request, the rejection fields, and the host's own fields. -/
structure SeqKeeps (s t : State) : Prop where
  opc : t.opc = s.opc
  sla : t.sla = s.sla
  rega : t.rega = s.rega
  len : t.len = s.len
  tickPend : t.tickPend = s.tickPend
  hRdata : t.hRdata = s.hRdata
  turns : t.turns = s.turns
  turnNo : t.turnNo = s.turnNo
  cmderr : t.status.cmderr = s.status.cmderr
  cerr : t.status.cerr = s.status.cerr

/-- What a failed start attempt leaves, besides: it writes st.phase, st.dly and the result fields of STATUS alone. -/
structure AttemptKeeps (s t : State) : Prop extends SeqKeeps s t where
  init : t.status.init = s.status.init
  attempts : t.status.attempts = s.status.attempts
  tick : t.tick = s.tick
  buf : t.buf = s.buf
  hist : t.hist = s.hist

theorem attemptFail_keeps (k : FailKind) (site : BitVec 4) (s : State) : AttemptKeeps s (attemptFail k site s) := by
  rcases attemptFail_cases k site s with ⟨-, e⟩ | ⟨-, -, e⟩ | ⟨-, -, -, e⟩ <;> rw [e] <;>
    exact ⟨⟨rfl, rfl, rfl, rfl, rfl, rfl, rfl, rfl, rfl, rfl⟩, rfl, rfl, rfl, rfl, rfl⟩

theorem SeqMove.keeps (m : SeqMove p s t) : SeqKeeps s t := by
  cases m with
  | attemptFails r =>
    obtain ⟨hopc, hsla, hrega, hlen, hpend, hrdata, hturns, hturnNo, hcmderr, hcerr⟩ :=
      (attemptFail_keeps r.kind r.site { s with hist := s.hist ++ [.sample r.flag (pinOf p r.flag)] }).toSeqKeeps
    exact ⟨hopc, hsla, hrega, hlen, hpend, hrdata, hturns, hturnNo, hcmderr, hcerr⟩
  | _ => exact ⟨rfl, rfl, rfl, rfl, rfl, rfl, rfl, rfl, rfl, rfl⟩

theorem SeqMove.init_eq (m : SeqMove p s t) (hs : s.phase ≠ .aInit) : t.status.init = s.status.init := by
  cases m with
  | aInit h => exact absurd h hs
  | attemptFails => exact (attemptFail_keeps ..).init
  | _ => rfl

theorem SeqMove.attempts_eq (m : SeqMove p s t) (hs : s.phase ≠ .aBegin) : t.status.attempts = s.status.attempts := by
  cases m with
  | aBegin h => exact absurd h hs
  | attemptFails => exact (attemptFail_keeps ..).attempts
  | _ => rfl

/-- The phases that begin a window (40_timebase.md R105). -/
def beginsWindow : Phase → Bool
  | .aBegin | .aStart | .aRegaddr | .aWscl | .aWdata | .aRscl | .aBscl => true
  | _ => false

theorem beginsWindow_iff (ph : Phase) :
    beginsWindow ph = true ↔ ph ∈ [.aBegin, .aStart, .aRegaddr, .aWscl, .aWdata, .aRscl, .aBscl] := by
  cases ph <;> decide

/-- No wait begins a window. -/
theorem beginsWindow_of_siteRow {ph : Phase} {r : SiteRow} (hr : siteRow ph = some r) : beginsWindow ph = false := by
  cases ph <;> cases hr <;> rfl

/-- TICK is zeroed where a window begins, and only there. -/
theorem SeqMove.tick_eq (m : SeqMove p s t) : t.tick = if beginsWindow s.phase then 0 else s.tick := by
  cases m with
  | aBegin h | aStart h | aRegaddr h | aWscl h | aWdata h | aRscl h | aBscl h => rw [h]; rfl
  | attemptFails r hr => rw [(attemptFail_keeps ..).tick, beginsWindow_of_siteRow hr]; rfl
  | spins r hr | commandFails r hr => rw [beginsWindow_of_siteRow hr]; rfl
  | received h => rcases h with h | h <;> rw [h] <;> rfl
  | idle h | aInit h | aDelayCounts h | aDelayEnds h | aRrs h | aBrs h | busFree h | started h | startDoneStart h
  | startDoneWrite h | startDoneBurst h | startDoneByte h | writeSettled h | byteSent _ h | drained h | burstSettled h
  | byteSettled h | repeatedStartCleared h => rw [h]; rfl

/-- BUF changes by a received byte alone. -/
theorem SeqMove.buf_cases (m : SeqMove p s t) :
    t.buf = s.buf ∨ ((s.phase = .wRrx ∨ s.phase = .wBrx) ∧ p.rxrdy = true ∧ t.buf = s.buf.set 0 p.rxdata) := by
  cases m with
  | received h hp => exact .inr ⟨h, hp, rfl⟩
  | attemptFails => exact .inl (attemptFail_keeps ..).buf
  | _ => exact .inl rfl

theorem SeqMove.hist_isPrefix (m : SeqMove p s t) : s.hist <+: t.hist := by
  cases m with
  | idle | aBegin | aDelayCounts | aDelayEnds | aWscl | aWdata | aRscl | aBscl => exact List.prefix_rfl
  | attemptFails => rw [(attemptFail_keeps ..).hist]; exact List.prefix_append ..
  | _ => exact List.prefix_append ..

/-! ### A turn of any other agent -/

/-- A host access that completes is a 4-byte one, and executes what it decodes to. -/
theorem hostStep_next {a : HostAccess} (h : hostStep a s = .next t) : exec (decode a.word) s = .next t := by
  rw [hostStep] at h
  split at h
  · exact h
  · cases h

theorem tbStep_hist (s : State) : (tbStep s).hist = s.hist := by
  cases h : s.tickPend with
  | true => rw [tbStep_pending h]; rfl
  | false => rw [tbStep_not_pending h]

/-- A turn that is neither SEQ's nor reset records nothing. -/
theorem runTurn_hist_eq (h : runTurn x s = .next t) (hr : x ≠ .reset) (hq : ∀ p, x ≠ .seq p) : t.hist = s.hist := by
  cases x with
  | host a => exact (exec_move (hostStep_next h)).hist_eq
  | seq p => exact absurd rfl (hq p)
  | timer => exact Host.Outcome.next.inj h ▸ rfl
  | tb => exact Host.Outcome.next.inj h ▸ tbStep_hist s
  | reset => exact absurd rfl hr

end Sys2Proof.Machine

namespace Sys2Proof.Proofs

open Sys2Proof.Machine

/-- Settles O49: a SEQ step is a move of the transition table, and each clause holds of every move. -/
theorem seqStepFrame : Obligations.SeqStepFrame := by
  intro s t p h
  have m : SeqMove p s t := seqStep_move h
  obtain ⟨hopc, hsla, hrega, hlen, hpend, hrdata, hturns, hturnNo, hcmderr, hcerr⟩ := m.keeps
  have htick := m.tick_eq
  simp only [beginsWindow_iff] at htick
  exact ⟨hopc, hsla, hrega, hlen, hpend, hrdata, hturns, hturnNo, hcmderr, hcerr, m.init_eq, m.attempts_eq, htick,
    m.buf_cases⟩

/-- Settles O51: a SEQ step appends to the history, and no other turn but reset changes it. -/
theorem historyOnlyGrows : Obligations.HistoryOnlyGrows := by
  intro x s t h hr
  refine ⟨?_, runTurn_hist_eq h hr⟩
  cases x with
  | seq p => exact (seqStep_move h).hist_isPrefix
  | host | timer | tb => rw [runTurn_hist_eq h hr nofun]
  | reset => exact absurd rfl hr

end Sys2Proof.Proofs
end

section
/-! SUPPORT. The invariant: it holds at reset, and every move of every agent keeps it. -/

namespace Sys2Proof.Machine

variable {i : Instr} {s t : State} {p : BusPins} {x : Turn}

/-! ### Ways to meet the invariant -/

/-- The phases in which neither st.idx nor st.dly stands for anything. -/
def countsNothing : Phase → Bool
  | .aDelay | .wWtx | .wWdrain => false
  | _ => true

/-- The part of the invariant that speaks of st.idx and st.dly. -/
structure CountersFit (s : State) : Prop where
  indexInRange : s.idx ≤ 32
  indexBelowLength : s.phase = .wWtx → s.idx < lengthOf s
  indexAtLength : s.phase = .wWdrain → s.idx = lengthOf s
  delayRuns : s.phase = .aDelay → 1 ≤ s.dly ∧ s.dly ≤ Config.retryDelay
  delayRests : s.phase ≠ .aDelay → s.dly = 0

theorem CountersFit.of_countsNothing (h : countsNothing s.phase = true) (hi : s.idx ≤ 32) (hd : s.dly = 0) :
    CountersFit s := by
  refine ⟨hi, fun e => ?_, fun e => ?_, fun e => ?_, fun _ => hd⟩ <;> rw [e] at h <;> cases h

/-- The invariant speaks of CMD.OPC, STATUS, LEN, st.phase, st.idx and st.dly alone. -/
theorem Inv.congr (g : Inv s) (hopc : t.opc = s.opc := by rfl) (hstatus : t.status = s.status := by rfl)
    (hlen : t.len = s.len := by rfl) (hphase : t.phase = s.phase := by rfl) (hidx : t.idx = s.idx := by rfl)
    (hdly : t.dly = s.dly := by rfl) : Inv t := by
  have hlength : lengthOf t = lengthOf s := congrArg BitVec.toNat hlen
  obtain ⟨g1, g2, g3, g4, g5, g6, g7, g8, g9, g10, g11, g12⟩ := g
  constructor <;> simpa only [hopc, hstatus, hlength, hphase, hidx, hdly]

theorem Inv.phase_eq_idle_iff (g : Inv s) : s.phase = .idle ↔ s.status.busy = false := by
  rw [← Bool.not_eq_true, g.busyNamesPhase, not_not]

/-- What fits the phase, where the phase is known. -/
theorem Inv.fits {a : Phase} (g : Inv s) (h : s.phase = a) :
    phaseOfCommand s.opc a = true ∧ attemptsOfPhase s.opc s.status.attempts.toNat a = true :=
  h ▸ ⟨g.phaseFits, g.attemptsFit⟩

/-- A WRITE that sends its data has a legal length. -/
theorem Inv.lengthOfWrite {a : Phase} (g : Inv s) (h : s.phase = a) (ha : a ≠ .idle := by decide)
    (hw : phaseOfCommand s.opc a = true → s.opc = opcWrite := by exact eq_of_beq) : 1 ≤ lengthOf s ∧ lengthOf s ≤ 32 :=
  g.lengthFits (g.busyNamesPhase.2 (h ▸ ha)) (hw (g.fits h).1)

theorem opc_le_of_phaseOfCommand {opc : BitVec 4} {ph : Phase} (h : phaseOfCommand opc ph = true) : opc ≤ opcReadByte := by
  revert opc
  cases ph <;> decide

theorem attemptsOfPhase_aDelay {opc : BitVec 4} {n : Nat} :
    attemptsOfPhase opc n .aDelay = true ↔ 1 ≤ n ∧ n < 5 := by
  rw [attemptsOfPhase, Bool.and_eq_true, decide_eq_true_iff, decide_eq_true_iff]

theorem attemptsOfPhase_aBegin {opc : BitVec 4} {n : Nat} (ho : opc ≠ opcStart) :
    attemptsOfPhase opc n .aBegin = true ↔ n < 5 := by
  rw [attemptsOfPhase, if_neg ho, decide_eq_true_iff]

/-- Past A_BEGIN an attempt has been made, and of START no more than one: the phases but those above, IDLE and A_INIT share
this equation of W_BUSY. -/
theorem attemptsOfPhase_made {opc : BitVec 4} {n : Nat} :
    attemptsOfPhase opc n .wBusy = true ↔ 1 ≤ n ∧ n ≤ 5 ∧ (opc ≠ opcStart ∨ n = 1) := by
  simp [attemptsOfPhase, and_assoc]

theorem attempts_le_of_attemptsOfPhase {opc : BitVec 4} {n : Nat} {ph : Phase} (h : attemptsOfPhase opc n ph = true) :
    n ≤ 5 := by
  cases ph with
  | idle => exact of_decide_eq_true h
  | aInit => rw [attemptsOfPhase, beq_iff_eq] at h; omega
  | aBegin =>
    rw [attemptsOfPhase] at h
    split at h
    · rw [beq_iff_eq] at h; omega
    · rw [decide_eq_true_iff] at h; omega
  | aDelay => exact Nat.le_of_lt (attemptsOfPhase_aDelay.1 h).2
  | _ => exact (attemptsOfPhase_made.1 h).2.1

/-- Where no command runs, the invariant asks only that the values left there are in range. -/
theorem inv_of_idle (hphase : s.phase = .idle) (hbusy : s.status.busy = false) (hopc : s.opc ≤ opcReadByte)
    (hattempts : s.status.attempts.toNat ≤ 5) (hresult : resultFits s.status = true)
    (hreject : s.status.cmderr = true ↔ s.status.cerr ≠ 0) (hidx : s.idx ≤ 32) (hdly : s.dly = 0) : Inv s := by
  have c : CountersFit s := .of_countsNothing (by rw [hphase]; rfl) hidx hdly
  have hnot : s.status.busy ≠ true := by rw [hbusy]; decide
  exact ⟨by rw [hbusy, hphase]; decide, by rw [hphase]; exact decide_eq_true hopc,
    by rw [hphase]; exact decide_eq_true hattempts, fun h => absurd h hnot, hresult, hreject, fun h => absurd h hnot,
    c.indexInRange, c.indexBelowLength, c.indexAtLength, c.delayRuns, c.delayRests⟩

/-- A command that ends, with a result that fits, meets the invariant. -/
theorem Inv.ended (g : Inv s) (hs : s.phase ≠ .aDelay) (hresult : Machine.resultFits t.status = true)
    (hphase : t.phase = .idle := by rfl) (hbusy : t.status.busy = false := by rfl) (hopc : t.opc = s.opc := by rfl)
    (hattempts : t.status.attempts = s.status.attempts := by rfl) (hcmderr : t.status.cmderr = s.status.cmderr := by rfl)
    (hcerr : t.status.cerr = s.status.cerr := by rfl) (hidx : t.idx = s.idx := by rfl) (hdly : t.dly = s.dly := by rfl) :
    Inv t :=
  inv_of_idle hphase hbusy (hopc ▸ opc_le_of_phaseOfCommand g.phaseFits)
    (hattempts ▸ attempts_le_of_attemptsOfPhase g.attemptsFit) hresult (by rw [hcmderr, hcerr]; exact g.rejectionFits)
    (hidx ▸ g.indexInRange) (hdly ▸ g.delayRests hs)

/-- A command that goes on, in a phase and with counts that fit it, keeps the invariant. -/
theorem Inv.goesOn (g : Inv s) (hs : s.phase ≠ .idle) (ht : t.phase ≠ .idle) (c : CountersFit t)
    (hfit : phaseOfCommand s.opc t.phase = true)
    (hatt : attemptsOfPhase s.opc t.status.attempts.toNat t.phase = true)
    (hopc : t.opc = s.opc := by rfl) (hlen : t.len = s.len := by rfl)
    (hstatus : t.status = { s.status with attempts := t.status.attempts } := by rfl) : Inv t := by
  have hb : s.status.busy = true := g.busyNamesPhase.2 hs
  have hlength : lengthOf t = lengthOf s := congrArg BitVec.toNat hlen
  rw [← hopc] at hfit hatt
  refine ⟨?_, hfit, hatt, fun _ => ?_, ?_, ?_, fun _ ho => ?_,
    c.indexInRange, c.indexBelowLength, c.indexAtLength, c.delayRuns, c.delayRests⟩
  · rw [hstatus]; exact ⟨fun _ => ht, fun _ => hb⟩
  · rw [hstatus]; exact g.notDoneWhileBusy hb
  · rw [hstatus]; exact g.resultFits
  · rw [hstatus]; exact g.rejectionFits
  · rw [hlength]; exact g.lengthFits hb (hopc ▸ ho)

/-- The same between two phases in which nothing is counted, and that both fit the command where the first does. -/
theorem Inv.moves {a : Phase} (g : Inv s) (h : s.phase = a) (ha : countsNothing a = true := by rfl)
    (ht : countsNothing t.phase = true := by rfl) (hs : a ≠ .idle := by decide) (ht' : t.phase ≠ .idle := by nofun)
    (hfit : phaseOfCommand s.opc a = true → phaseOfCommand s.opc t.phase = true := by exact id)
    (hatt : attemptsOfPhase s.opc s.status.attempts.toNat a = true →
      attemptsOfPhase s.opc t.status.attempts.toNat t.phase = true := by exact id)
    (hidx : t.idx = s.idx := by rfl) (hdly : t.dly = s.dly := by rfl)
    (hopc : t.opc = s.opc := by rfl) (hlen : t.len = s.len := by rfl)
    (hstatus : t.status = { s.status with attempts := t.status.attempts } := by rfl) : Inv t := by
  subst h
  have hd : s.dly = 0 := g.delayRests fun e => by rw [e] at ha; cases ha
  exact g.goesOn hs ht' (.of_countsNothing ht (hidx ▸ g.indexInRange) (hdly ▸ hd)) (hfit g.phaseFits)
    (hatt g.attemptsFit) hopc hlen hstatus

/-! ### Moves of SEQ -/

/-- The kind a wait fails with is the kind of its site (60_exceptions.md R230, R231). -/
theorem kindOfSite_of_siteRow {ph : Phase} {r : SiteRow} (hr : siteRow ph = some r) :
    kindOfSite r.site = some (failKindCode r.kind) := by
  cases ph <;> cases hr <;> rfl

theorem ne_idle_of_siteRow {ph : Phase} {r : SiteRow} (hr : siteRow ph = some r) : ph ≠ .idle := by
  rintro rfl
  cases hr

theorem ne_aDelay_of_siteRow {ph : Phase} {r : SiteRow} (hr : siteRow ph = some r) : ph ≠ .aDelay := by
  rintro rfl
  cases hr

theorem finishFail_inv {r : SiteRow} (g : Inv s) (hr : siteRow s.phase = some r) : Inv (finishFail r.kind r.site s) :=
  g.ended (ne_aDelay_of_siteRow hr) (by simp [resultFits, finishFail, kindOfSite_of_siteRow hr])

theorem finishOk_inv (g : Inv s) (hs : s.phase ≠ .aDelay) : Inv (finishOk s) :=
  g.ended hs rfl

/-- The waits of a start attempt, those of sites 1 to 3 (42_transaction_retry.md R170). -/
theorem startWait_of_site_le {ph : Phase} {r : SiteRow} (hr : siteRow ph = some r) (hs : r.site ≤ 3) :
    ph = .wBusy ∨ ph = .wSb ∨ ph = .wRa := by
  cases ph with
  | wBusy | wSb | wRa => decide
  | _ => cases hr <;> exact absurd hs (by decide)

/-- In a wait of a start attempt an attempt has been made, and the command is one that has them. -/
theorem Inv.startWait (g : Inv s) (h : s.phase = .wBusy ∨ s.phase = .wSb ∨ s.phase = .wRa) :
    phaseOfCommand s.opc .aBegin = true ∧ 1 ≤ s.status.attempts.toNat := by
  rcases h with h | h | h <;> obtain ⟨hfit, hatt⟩ := g.fits h <;> exact ⟨hfit, (attemptsOfPhase_made.1 hatt).1⟩

theorem attemptFail_inv {r : SiteRow} (g : Inv s) (hr : siteRow s.phase = some r) (hs : r.site ≤ 3) :
    Inv (attemptFail r.kind r.site s) := by
  obtain ⟨hcmd, hmade⟩ := g.startWait (startWait_of_site_le hr hs)
  have hidle := ne_idle_of_siteRow hr
  rcases attemptFail_cases r.kind r.site s with ⟨-, e⟩ | ⟨hleft, ho, e⟩ | ⟨hleft, ho, -, e⟩ <;> rw [e]
  · exact finishFail_inv g hr
  · have c : CountersFit ((s.setDly Config.retryDelay).setPhase .aDelay) :=
      ⟨g.indexInRange, nofun, nofun, fun _ => ⟨Nat.le_add_left .., Nat.le_refl _⟩, fun h => absurd rfl h⟩
    exact g.goesOn hidle nofun c (by rw [ho]; rfl) (attemptsOfPhase_aDelay.2 ⟨hmade, hleft⟩)
  · have hdly : s.dly = 0 := g.delayRests (ne_aDelay_of_siteRow hr)
    exact g.goesOn hidle nofun (.of_countsNothing rfl g.indexInRange hdly) hcmd ((attemptsOfPhase_aBegin ho).2 hleft)

/-- One more attempt is counted where one begins (41_bus_controller.md R125; 42_transaction_retry.md R171). -/
theorem attemptsOfPhase_begun {opc : BitVec 4} {n : BitVec 3} (h : attemptsOfPhase opc n.toNat .aBegin = true) :
    attemptsOfPhase opc (n + 1).toNat .wBusy = true := by
  revert opc n
  decide

theorem SeqMove.inv (m : SeqMove p s t) (g : Inv s) : Inv t := by
  cases m with
  | idle => exact g
  | spins => exact g.congr
  | aBegin h => exact g.moves h (hatt := attemptsOfPhase_begun)
  | aStart h | aRegaddr h | aWscl h | aRscl h | aRrs h | aBscl h | aBrs h | busFree h | started h | writeSettled h
  | burstSettled h | byteSettled h | repeatedStartCleared h => exact g.moves h
  | startDoneWrite h hp ho | startDoneBurst h hp ho | startDoneByte h hp ho =>
    exact g.moves h (hfit := fun _ => by rw [ho]; rfl)
  | aDelayCounts h hd =>
    obtain ⟨-, hle⟩ := g.delayRuns h
    have c : CountersFit { s with dly := s.dly - 1 } :=
      ⟨g.indexInRange, g.indexBelowLength, g.indexAtLength, fun _ => by dsimp only; omega, fun hn => absurd h hn⟩
    exact g.goesOn (by rw [h]; nofun) (by rw [h]; nofun) c g.phaseFits g.attemptsFit
  | aDelayEnds h =>
    obtain ⟨hfit, hatt⟩ := g.fits h
    have ho : s.opc = opcReadByte := eq_of_beq hfit
    have hne : s.opc ≠ opcStart := by rw [ho]; decide
    exact g.goesOn (by rw [h]; nofun) nofun (.of_countsNothing rfl g.indexInRange rfl) (by rw [ho]; rfl)
      ((attemptsOfPhase_aBegin hne).2 (attemptsOfPhase_aDelay.1 hatt).2)
  | aWdata h =>
    obtain ⟨hfit, hatt⟩ := g.fits h
    obtain ⟨hlen, -⟩ := g.lengthOfWrite h
    have hdly : s.dly = 0 := g.delayRests (by rw [h]; nofun)
    exact g.goesOn (by rw [h]; nofun) nofun ⟨Nat.zero_le _, fun _ => hlen, nofun, nofun, fun _ => hdly⟩ hfit hatt
  | byteSent b h =>
    obtain ⟨hfit, hatt⟩ := g.fits h
    obtain ⟨-, hlen⟩ := g.lengthOfWrite h
    have hrun : s.phase ≠ .idle := by rw [h]; nofun
    have hdly : s.dly = 0 := g.delayRests (by rw [h]; nofun)
    have hi : s.idx + 1 ≤ lengthOf s := g.indexBelowLength h
    have hidx : s.idx + 1 ≤ 32 := Nat.le_trans hi hlen
    split
    next hmore => exact g.goesOn hrun nofun ⟨hidx, fun _ => hmore, nofun, nofun, fun _ => hdly⟩ hfit hatt
    next hlast =>
      have hend : s.idx + 1 = lengthOf s := Nat.le_antisymm hi (Nat.le_of_not_lt hlast)
      exact g.goesOn hrun nofun ⟨hidx, nofun, fun _ => hend, nofun, fun _ => hdly⟩ hfit hatt
  | aInit h => exact g.ended (by rw [h]; nofun) rfl
  | attemptFails r hr hp ht hs => exact attemptFail_inv g.congr hr hs
  | commandFails r hr => exact finishFail_inv g.congr hr
  | startDoneStart h | drained h => exact finishOk_inv g.congr (by dsimp only; rw [h]; nofun)
  | received h => exact finishOk_inv g.congr (by dsimp only; rcases h with h | h <;> rw [h] <;> nofun)

/-! ### Moves of the host -/

theorem reject_inv (c : RejectCause) (g : Inv s) : Inv (reject c s) := by
  have hcode : rejectCode c ≠ 0 := by cases c <;> decide
  obtain ⟨g1, g2, g3, g4, g5, g6, g7, g8, g9, g10, g11, g12⟩ := g
  exact ⟨g1, g2, g3, g4, g5, ⟨fun _ => hcode, fun _ => rfl⟩, g7, g8, g9, g10, g11, g12⟩

theorem accept_phase (opc : BitVec 4) (s : State) :
    (accept opc s).phase = if opc = opcInit then .aInit else .aBegin := rfl

/-- An accepted command starts in the first phase of its opcode, with no attempt made. -/
theorem accept_inv {opc : BitVec 4} (hlo : opcInit ≤ opc) (hhi : opc ≤ opcReadByte)
    (hl : opc = opcWrite → lengthAllowed s = true) : Inv (accept opc s) := by
  have hfirst : phaseOfCommand opc (accept opc s).phase = true ∧ attemptsOfPhase opc 0 (accept opc s).phase = true ∧
      (accept opc s).phase ≠ .idle ∧ countsNothing (accept opc s).phase = true := by
    simp only [accept_phase]
    clear hl
    revert opc
    decide
  obtain ⟨hfit, hatt, hrun, hnone⟩ := hfirst
  have c : CountersFit (accept opc s) := .of_countsNothing hnone (Nat.zero_le _) rfl
  exact ⟨⟨fun _ => hrun, fun _ => rfl⟩, hfit, hatt, fun _ => rfl, rfl, ⟨nofun, fun h => absurd rfl h⟩,
    fun _ ho => (lengthAllowed_iff s).1 (hl ho),
    c.indexInRange, c.indexBelowLength, c.indexAtLength, c.delayRuns, c.delayRests⟩

/-- LEN is written only while no command runs, and the invariant asks nothing of it then. -/
theorem setLen_inv (v : Byte) (g : Inv s) (hb : s.status.busy = false) : Inv (s.setLen v) := by
  have hphase : s.phase = .idle := g.phase_eq_idle_iff.2 hb
  have hd : s.phase ≠ .aDelay := by rw [hphase]; nofun
  exact g.ended hd g.resultFits hphase hb

theorem HostMove.inv (m : HostMove i s t) (g : Inv s) : Inv t := by
  cases m with
  | unchanged => exact g
  | reads | setsSla | setsRega | setsTick | setsBuf => exact g.congr
  | rejects c => exact reject_inv c g
  | accepts opc _ _ _ hlo hhi hl => exact accept_inv hlo hhi hl
  | setsLen v _ hb => exact setLen_inv v g hb

/-! ### Turns and steps -/

theorem reset_inv : Inv State.reset :=
  inv_of_idle rfl rfl (by decide) (by decide) rfl (by decide) (by decide) rfl

theorem tbStep_inv (g : Inv s) : Inv (tbStep s) := by
  cases h : s.tickPend with
  | true => rw [tbStep_pending h]; exact g.congr
  | false => rw [tbStep_not_pending h]; exact g

theorem runTurn_inv (g : Inv s) (h : runTurn x s = .next t) : Inv t := by
  cases x with
  | host a => exact (exec_move (hostStep_next h)).inv g
  | seq p => exact (seqStep_move h).inv g
  | timer => exact Host.Outcome.next.inj h ▸ g.congr
  | tb => exact Host.Outcome.next.inj h ▸ tbStep_inv g
  | reset => exact Host.Outcome.next.inj h ▸ reset_inv.congr

theorem takeTurn_inv (g : Inv s) : Inv (takeTurn s).2 := by
  rw [takeTurn]
  split <;> exact g.congr

end Sys2Proof.Machine

namespace Sys2Proof.Proofs

open Sys2Proof.Machine

/-- Settles O1: each field of the reset state is the value written in the reset table. -/
theorem resetLeavesStatedValues : Obligations.ResetLeavesStatedValues :=
  ⟨rfl, rfl, rfl, rfl, rfl, rfl, rfl, by decide, rfl, rfl, rfl, rfl, rfl⟩

/-- Settles O54: no command runs at reset, and every value is in range. -/
theorem resetMeetsInvariant : Obligations.ResetMeetsInvariant :=
  reset_inv

/-- Settles O55: taking a turn leaves what the invariant speaks of, and every move of every agent keeps it. -/
theorem stepKeepsInvariant : Obligations.StepKeepsInvariant := by
  intro s t g h
  exact runTurn_inv (takeTurn_inv g) h

end Sys2Proof.Proofs
end

section
/-! SUPPORT. The reserved offsets of the window (20_memory.md R52, 43_host_access.md R206): an access there decodes to one of
the reserved rows, and each of these reads as zero and ignores writes. -/

namespace Sys2Proof

variable {off : Byte}

/-- A word-aligned offset below BUF is neither refused nor a buffer byte (30_encoding.md R72). -/
theorem lowOffset_fields (halign : off.extractLsb' 0 2 = 0#2) (hhi : off ≤ 0x7C#8) :
    off.extractLsb' 0 1 ≠ 1#1 ∧ off.extractLsb' 0 2 ≠ 2#2 ∧ off.extractLsb' 7 1 ≠ 1#1 := by
  revert off
  decide

theorem decode_read_low (w : Word) (halign : off.extractLsb' 0 2 = 0#2) (hhi : off ≤ 0x7C#8) :
    decode (.hop (0#1 ++ off) w) = decodeLowRead off := by
  obtain ⟨hodd, htwo, hbuf⟩ := lowOffset_fields halign hhi
  rw [decode_read, if_neg hodd, if_neg htwo, if_neg hbuf]

theorem decode_write_low (w : Word) (halign : off.extractLsb' 0 2 = 0#2) (hhi : off ≤ 0x7C#8) :
    decode (.hop (1#1 ++ off) w) = decodeLowWrite off w := by
  obtain ⟨hodd, htwo, hbuf⟩ := lowOffset_fields halign hhi
  rw [decode_write, if_neg hodd, if_neg htwo, if_neg hbuf]

/-- From 0x18 on no offset is that of a named register. -/
theorem ne_registerOffset_of_ge (hlo : 0x18#8 ≤ off) :
    off ≠ 0x00#8 ∧ off ≠ 0x04#8 ∧ off ≠ 0x08#8 ∧ off ≠ 0x0C#8 ∧ off ≠ 0x10#8 ∧ off ≠ 0x14#8 := by
  revert off
  decide

theorem decodeLowRead_of_ge (hlo : 0x18#8 ≤ off) :
    decodeLowRead off = if off < 0x20#8 then .rdRsvd18 off else if off < 0x40#8 then .rdRsvd20 off else .rdRsvd40 off := by
  obtain ⟨hcmd, hstatus, hsla, hrega, hlen, htick⟩ := ne_registerOffset_of_ge hlo
  rw [decodeLowRead, if_neg hcmd, if_neg hstatus, if_neg hsla, if_neg hrega, if_neg hlen, if_neg htick]

theorem decodeLowWrite_of_ge (w : Word) (hlo : 0x18#8 ≤ off) :
    decodeLowWrite off w =
      if off < 0x20#8 then .wrRsvd18 off w else if off < 0x40#8 then .wrRsvd20 off w else .wrRsvd40 off w := by
  obtain ⟨hcmd, hstatus, hsla, hrega, hlen, htick⟩ := ne_registerOffset_of_ge hlo
  rw [decodeLowWrite, if_neg hcmd, if_neg hstatus, if_neg hsla, if_neg hrega, if_neg hlen, if_neg htick]

end Sys2Proof

namespace Sys2Proof.Machine

variable {off : Byte} {s : State}

/-- What the three reserved read rows do. -/
theorem exec_rdRsvd (off : Byte) (s : State) :
    exec (.rdRsvd18 off) s = .next (s.setRdata 0) ∧ exec (.rdRsvd20 off) s = .next (s.setRdata 0) ∧
    exec (.rdRsvd40 off) s = .next (s.setRdata 0) := ⟨rfl, rfl, rfl⟩

/-- What the three reserved write rows do. -/
theorem exec_wrRsvd (off : Byte) (w : Word) (s : State) :
    exec (.wrRsvd18 off w) s = .next s ∧ exec (.wrRsvd20 off w) s = .next s ∧ exec (.wrRsvd40 off w) s = .next s :=
  ⟨rfl, rfl, rfl⟩

/-- A read of a reserved offset answers 0, whichever of the three rows it falls in. -/
theorem runTurn_read_reserved (w : Word) (hlo : 0x18#8 ≤ off) (hhi : off ≤ 0x7C#8) (halign : off.extractLsb' 0 2 = 0#2) :
    runTurn (.host ⟨.hop (0#1 ++ off) w, 4⟩) s = .next (s.setRdata 0) := by
  obtain ⟨h18, h20, h40⟩ := exec_rdRsvd off s
  rw [runTurn_host_fourBytes, decode_read_low w halign hhi, decodeLowRead_of_ge hlo]
  split
  · exact h18
  split
  · exact h20
  · exact h40

/-- A write of a reserved offset changes nothing, whichever of the three rows it falls in. -/
theorem runTurn_write_reserved (w : Word) (hlo : 0x18#8 ≤ off) (hhi : off ≤ 0x7C#8) (halign : off.extractLsb' 0 2 = 0#2) :
    runTurn (.host ⟨.hop (1#1 ++ off) w, 4⟩) s = .next s := by
  obtain ⟨h18, h20, h40⟩ := exec_wrRsvd off w s
  rw [runTurn_host_fourBytes, decode_write_low w halign hhi, decodeLowWrite_of_ge w hlo]
  split
  · exact h18
  split
  · exact h20
  · exact h40

end Sys2Proof.Machine

namespace Sys2Proof.Proofs

open Sys2Proof.Machine

/-- Settles O20: every reserved offset decodes to a reserved row, and the rows read as zero and ignore writes. -/
theorem reservedOffsetsReadZeroWriteIgnored : Obligations.ReservedOffsetsReadZeroWriteIgnored := by
  refine ⟨fun off w s hlo hhi halign => ?_, fun off w s => ?_⟩
  · exact ⟨runTurn_read_reserved w hlo hhi halign, runTurn_write_reserved w hlo hhi halign⟩
  · obtain ⟨hr18, hr20, hr40⟩ := exec_rdRsvd off s
    exact ⟨hr18, hr20, hr40, exec_wrRsvd off w s⟩

end Sys2Proof.Proofs
end

section
/-! SUPPORT. The encodings (30_encoding.md R70 to R72): what each encoded form decodes to, that every encoded form is the encoding
of a well-formed instruction, and that a write of CMD does what the row of its data word does. -/

namespace Sys2Proof

variable {i : Instr} {off : Byte} {opc : BitVec 4}

/-! ### CMD words -/

/-- Every CMD word is an opcode below 28 ignored bits (30_encoding.md R70). -/
theorem exists_eq_cmdWord (w : Word) : ∃ opc ign, w = cmdWord opc ign :=
  ⟨w.extractLsb' 0 4, w.extractLsb' 4 28, (BitVec.extractLsb'_append_extractLsb' (w := 28) (len := 4)).symm⟩

/-- The opcodes by the rows they fall in (30_encoding.md R71, R75). -/
theorem opcode_cases (opc : BitVec 4) :
    opc = 0x0#4 ∨ opc = 0x1#4 ∨ opc = 0x2#4 ∨ opc = 0x3#4 ∨ opc = 0x4#4 ∨ opc = 0x5#4 ∨
    (opc = 0x6#4 ∨ opc = 0x7#4) ∨ 0x8#4 ≤ opc := by
  revert opc
  decide

/-- What a CMD word decodes to (30_encoding.md R71). -/
theorem decode_cmdWord (opc : BitVec 4) (ign : BitVec 28) :
    decode (.cmd (cmdWord opc ign)) =
      if opc = 0x0#4 then .cmdRsvd0 ign
      else if opc = 0x1#4 then .init ign
      else if opc = 0x2#4 then .start ign
      else if opc = 0x3#4 then .write ign
      else if opc = 0x4#4 then .readBurst ign
      else if opc = 0x5#4 then .readByte ign
      else if opc < 0x8#4 then .cmdRsvd67 opc ign
      else .cmdRsvd8F opc ign := by
  simp only [decode, decodeCmd, extract_cmd_opc, extract_cmd_ign]

theorem decode_cmdWord_rsvd67 (h : opc = 0x6#4 ∨ opc = 0x7#4) (ign : BitVec 28) :
    decode (.cmd (cmdWord opc ign)) = .cmdRsvd67 opc ign := by
  rcases h with rfl | rfl
  · exact decode_cmdWord 0x6#4 ign
  · exact decode_cmdWord 0x7#4 ign

theorem ne_commandOpcode_of_ge (h : 0x8#4 ≤ opc) :
    opc ≠ 0x0#4 ∧ opc ≠ 0x1#4 ∧ opc ≠ 0x2#4 ∧ opc ≠ 0x3#4 ∧ opc ≠ 0x4#4 ∧ opc ≠ 0x5#4 := by
  revert opc
  decide

theorem decode_cmdWord_rsvd8F (h : 0x8#4 ≤ opc) (ign : BitVec 28) :
    decode (.cmd (cmdWord opc ign)) = .cmdRsvd8F opc ign := by
  obtain ⟨h0, h1, h2, h3, h4, h5⟩ := ne_commandOpcode_of_ge h
  rw [decode_cmdWord, if_neg h0, if_neg h1, if_neg h2, if_neg h3, if_neg h4, if_neg h5, if_neg (BitVec.not_lt.2 h)]

/-! ### HOPs -/

theorem offsetIn_iff (lo hi off : Byte) :
    offsetIn lo hi off = true ↔ lo ≤ off ∧ off ≤ hi ∧ off.extractLsb' 0 2 = 0#2 := by
  simp [offsetIn, and_assoc]

/-- The offsets by the rows they fall in (30_encoding.md R72). -/
theorem offset_cases (off : Byte) :
    off = 0x00#8 ∨ off = 0x04#8 ∨ off = 0x08#8 ∨ off = 0x0C#8 ∨ off = 0x10#8 ∨ off = 0x14#8 ∨
    off = 1#1 ++ off.extractLsb' 2 5 ++ 0#2 ∨ offsetIn 0x18#8 0x1C#8 off = true ∨ offsetIn 0x20#8 0x3C#8 off = true ∨
    offsetIn 0x40#8 0x7C#8 off = true ∨ off.extractLsb' 0 1 = 1#1 ∨ off.extractLsb' 0 2 = 2#2 := by
  revert off
  decide

/-- The data word of a read plays no part (30_encoding.md R70). -/
theorem decode_hop_read (off : Byte) (w : Word) : decode (.hop (0#1 ++ off) w) = decode (hopRead off) :=
  (decode_read off w).trans (decode_read off 0#32).symm

/-- The offset of BUF[i], read and written. -/
theorem decode_buf (i : BitVec 5) (w : Word) :
    decode (hopRead (1#1 ++ i ++ 0#2)) = .rdBuf i ∧ decode (hopWrite (1#1 ++ i ++ 0#2) w) = .wrBuf i w := by
  obtain ⟨hodd, htwo, hbuf, hi⟩ := bufOffset_fields i
  rw [hopRead, hopWrite, decode_read, decode_write, hodd, htwo, hbuf, hi]
  exact ⟨rfl, rfl⟩

/-- What a read of a reserved offset decodes to, by the three ranges. -/
theorem decode_hopRead_rsvd (hlo : 0x18#8 ≤ off) (hhi : off ≤ 0x7C#8) (halign : off.extractLsb' 0 2 = 0#2) :
    decode (hopRead off) =
      if off < 0x20#8 then .rdRsvd18 off else if off < 0x40#8 then .rdRsvd20 off else .rdRsvd40 off :=
  (decode_read_low 0#32 halign hhi).trans (decodeLowRead_of_ge hlo)

theorem decode_hopWrite_rsvd (w : Word) (hlo : 0x18#8 ≤ off) (hhi : off ≤ 0x7C#8) (halign : off.extractLsb' 0 2 = 0#2) :
    decode (hopWrite off w) =
      if off < 0x20#8 then .wrRsvd18 off w else if off < 0x40#8 then .wrRsvd20 off w else .wrRsvd40 off w :=
  (decode_write_low w halign hhi).trans (decodeLowWrite_of_ge w hlo)

/-- The offsets from 0x18 to 0x1C, read and written. -/
theorem decode_rsvd18 (h : offsetIn 0x18#8 0x1C#8 off = true) (w : Word) :
    decode (hopRead off) = .rdRsvd18 off ∧ decode (hopWrite off w) = .wrRsvd18 off w := by
  obtain ⟨hlo, hhi, halign⟩ := (offsetIn_iff _ _ _).1 h
  have h20 : off < 0x20#8 := Std.lt_of_le_of_lt hhi (by decide)
  have h7C : off ≤ 0x7C#8 := BitVec.le_trans hhi (by decide)
  rw [decode_hopRead_rsvd hlo h7C halign, decode_hopWrite_rsvd w hlo h7C halign, if_pos h20, if_pos h20]
  exact ⟨rfl, rfl⟩

/-- The offsets from 0x20 to 0x3C, read and written. -/
theorem decode_rsvd20 (h : offsetIn 0x20#8 0x3C#8 off = true) (w : Word) :
    decode (hopRead off) = .rdRsvd20 off ∧ decode (hopWrite off w) = .wrRsvd20 off w := by
  obtain ⟨hlo, hhi, halign⟩ := (offsetIn_iff _ _ _).1 h
  have h18 : 0x18#8 ≤ off := BitVec.le_trans (by decide) hlo
  have h20 : ¬off < 0x20#8 := BitVec.not_lt.2 hlo
  have h40 : off < 0x40#8 := Std.lt_of_le_of_lt hhi (by decide)
  have h7C : off ≤ 0x7C#8 := BitVec.le_trans hhi (by decide)
  rw [decode_hopRead_rsvd h18 h7C halign, decode_hopWrite_rsvd w h18 h7C halign, if_neg h20, if_neg h20, if_pos h40,
    if_pos h40]
  exact ⟨rfl, rfl⟩

/-- The offsets from 0x40 to 0x7C, read and written. -/
theorem decode_rsvd40 (h : offsetIn 0x40#8 0x7C#8 off = true) (w : Word) :
    decode (hopRead off) = .rdRsvd40 off ∧ decode (hopWrite off w) = .wrRsvd40 off w := by
  obtain ⟨hlo, hhi, halign⟩ := (offsetIn_iff _ _ _).1 h
  have h18 : 0x18#8 ≤ off := BitVec.le_trans (by decide) hlo
  have h20 : ¬off < 0x20#8 := BitVec.not_lt.2 (BitVec.le_trans (by decide) hlo)
  have h40 : ¬off < 0x40#8 := BitVec.not_lt.2 hlo
  rw [decode_hopRead_rsvd h18 hhi halign, decode_hopWrite_rsvd w h18 hhi halign, if_neg h20, if_neg h20, if_neg h40,
    if_neg h40]
  exact ⟨rfl, rfl⟩

theorem decode_hopRefused_odd (data : Option Word) (h : off.extractLsb' 0 1 = 1#1) :
    decode (hopRefused data off) = .hostfaultOffOdd data off := by
  cases data with
  | none => exact (decode_read off 0#32).trans (if_pos h)
  | some w => exact (decode_write off w).trans (if_pos h)

theorem offset_even_of_two (h : off.extractLsb' 0 2 = 2#2) : off.extractLsb' 0 1 ≠ 1#1 := by
  revert off
  decide

theorem decode_hopRefused_two (data : Option Word) (h : off.extractLsb' 0 2 = 2#2) :
    decode (hopRefused data off) = .hostfaultOff2 data off := by
  have heven := offset_even_of_two h
  cases data with
  | none => exact (decode_read off 0#32).trans ((if_neg heven).trans (if_pos h))
  | some w => exact (decode_write off w).trans ((if_neg heven).trans (if_pos h))

/-! ### Decoding an encoding -/

/-- The encoding of a well-formed instruction decodes to it, row by row. -/
theorem decode_encode (h : WellFormed i = true) : decode (encode i) = i := by
  cases i with
  | init ign | start ign | write ign | readBurst ign | readByte ign | cmdRsvd0 ign => exact decode_cmdWord _ ign
  | cmdRsvd67 opc ign => exact decode_cmdWord_rsvd67 (by simpa [WellFormed] using h) ign
  | cmdRsvd8F opc ign => exact decode_cmdWord_rsvd8F (of_decide_eq_true h) ign
  | rdCmd | rdStatus | rdSla | rdRega | rdLen | rdTick => rfl
  | wrCmd | wrStatus | wrSla | wrRega | wrLen | wrTick => rfl
  | rdBuf i => exact (decode_buf i 0#32).1
  | wrBuf i w => exact (decode_buf i w).2
  | rdRsvd18 off => exact (decode_rsvd18 h 0#32).1
  | rdRsvd20 off => exact (decode_rsvd20 h 0#32).1
  | rdRsvd40 off => exact (decode_rsvd40 h 0#32).1
  | wrRsvd18 off w => exact (decode_rsvd18 h w).2
  | wrRsvd20 off w => exact (decode_rsvd20 h w).2
  | wrRsvd40 off w => exact (decode_rsvd40 h w).2
  | hostfaultOffOdd data off => exact decode_hopRefused_odd data (eq_of_beq h)
  | hostfaultOff2 data off => exact decode_hopRefused_two data (eq_of_beq h)

/-- An encoding is a CMD word, a read without data, or a write (30_encoding.md R70). -/
theorem encode_cases (i : Instr) :
    (∃ w, encode i = .cmd w) ∨ (∃ off, encode i = hopRead off) ∨ ∃ off w, encode i = hopWrite off w := by
  cases i with
  | init | start | write | readBurst | readByte | cmdRsvd0 | cmdRsvd67 | cmdRsvd8F => exact .inl ⟨_, rfl⟩
  | rdCmd | rdStatus | rdSla | rdRega | rdLen | rdTick | rdBuf | rdRsvd18 | rdRsvd20 | rdRsvd40 =>
    exact .inr (.inl ⟨_, rfl⟩)
  | wrCmd | wrStatus | wrSla | wrRega | wrLen | wrTick | wrBuf | wrRsvd18 | wrRsvd20 | wrRsvd40 =>
    exact .inr (.inr ⟨_, _, rfl⟩)
  | hostfaultOffOdd data off | hostfaultOff2 data off =>
    cases data with
    | none => exact .inr (.inl ⟨off, rfl⟩)
    | some w => exact .inr (.inr ⟨off, w, rfl⟩)

theorem bytes_hopRead (off : Byte) : (hopRead off).bytes = [off, 0#8] := by
  rw [hopRead, HostWord.bytes, extract_hop_dir, extract_hop_off]
  rfl

theorem bytes_hopWrite (off : Byte) (w : Word) : (hopWrite off w).bytes = off :: 1#8 :: bytesOfWord w := by
  rw [hopWrite, HostWord.bytes, extract_hop_dir, extract_hop_off]
  rfl

/-- The bytes of an encoding give the encoded form back, with what follows (log 4). -/
theorem hostWordOfBytes_encode (i : Instr) (rest : List Byte) :
    hostWordOfBytes (encode i).form ((encode i).bytes ++ rest) = .ok (encode i, rest) := by
  rcases encode_cases i with ⟨w, e⟩ | ⟨off, e⟩ | ⟨off, w, e⟩ <;> rw [e]
  · change hostWordOfBytes .cmd (bytesOfWord w ++ rest) = _
    rw [hostWordOfBytes, wordOfBytes_bytesOfWord]
  · rw [bytes_hopRead]
    rfl
  · rw [bytes_hopWrite]
    change hostWordOfBytes .hop (off :: 1#8 :: (bytesOfWord w ++ rest)) = _
    rw [hostWordOfBytes, if_neg (by decide), if_pos rfl, wordOfBytes_bytesOfWord]
    rfl

theorem decodeBytes_encode (h : WellFormed i = true) (rest : List Byte) :
    decodeBytes (encode i).form ((encode i).bytes ++ rest) = .ok (i, rest) := by
  rw [decodeBytes, hostWordOfBytes_encode]
  exact congrArg (fun j => Except.ok (j, rest)) (decode_encode h)

/-! ### Every encoded form is an encoding -/

theorem exists_encode_cmd (w : Word) : ∃ i, WellFormed i = true ∧ encode i = .cmd w := by
  obtain ⟨opc, ign, rfl⟩ := exists_eq_cmdWord w
  rcases opcode_cases opc with rfl | rfl | rfl | rfl | rfl | rfl | h | h
  · exact ⟨.cmdRsvd0 ign, rfl, rfl⟩
  · exact ⟨.init ign, rfl, rfl⟩
  · exact ⟨.start ign, rfl, rfl⟩
  · exact ⟨.write ign, rfl, rfl⟩
  · exact ⟨.readBurst ign, rfl, rfl⟩
  · exact ⟨.readByte ign, rfl, rfl⟩
  · exact ⟨.cmdRsvd67 opc ign, by simpa [WellFormed] using h, rfl⟩
  · exact ⟨.cmdRsvd8F opc ign, decide_eq_true h, rfl⟩

theorem exists_encode_hop (off : Byte) (w : Word) :
    (∃ i, WellFormed i = true ∧ encode i = hopRead off) ∧ ∃ i, WellFormed i = true ∧ encode i = hopWrite off w := by
  rcases offset_cases off with rfl | rfl | rfl | rfl | rfl | rfl | h | h | h | h | h | h
  · exact ⟨⟨.rdCmd, rfl, rfl⟩, .wrCmd w, rfl, rfl⟩
  · exact ⟨⟨.rdStatus, rfl, rfl⟩, .wrStatus w, rfl, rfl⟩
  · exact ⟨⟨.rdSla, rfl, rfl⟩, .wrSla w, rfl, rfl⟩
  · exact ⟨⟨.rdRega, rfl, rfl⟩, .wrRega w, rfl, rfl⟩
  · exact ⟨⟨.rdLen, rfl, rfl⟩, .wrLen w, rfl, rfl⟩
  · exact ⟨⟨.rdTick, rfl, rfl⟩, .wrTick w, rfl, rfl⟩
  · exact ⟨⟨.rdBuf (off.extractLsb' 2 5), rfl, congrArg hopRead h.symm⟩,
      .wrBuf (off.extractLsb' 2 5) w, rfl, congrArg (hopWrite · w) h.symm⟩
  · exact ⟨⟨.rdRsvd18 off, h, rfl⟩, .wrRsvd18 off w, h, rfl⟩
  · exact ⟨⟨.rdRsvd20 off, h, rfl⟩, .wrRsvd20 off w, h, rfl⟩
  · exact ⟨⟨.rdRsvd40 off, h, rfl⟩, .wrRsvd40 off w, h, rfl⟩
  · exact ⟨⟨.hostfaultOffOdd none off, beq_iff_eq.2 h, rfl⟩, .hostfaultOffOdd (some w) off, beq_iff_eq.2 h, rfl⟩
  · exact ⟨⟨.hostfaultOff2 none off, beq_iff_eq.2 h, rfl⟩, .hostfaultOff2 (some w) off, beq_iff_eq.2 h, rfl⟩

/-- What is the encoding of a well-formed instruction is the encoding of what it decodes to. -/
theorem encode_decode_of_exists {h : HostWord} (hex : ∃ i, WellFormed i = true ∧ encode i = h) :
    encode (decode h) = h := by
  obtain ⟨i, hwf, rfl⟩ := hex
  rw [decode_encode hwf]

/-- A HOP is a read or a write at an offset (30_encoding.md R70). -/
theorem hop_cases (h : BitVec 9) : ∃ off : Byte, h = 0#1 ++ off ∨ h = 1#1 ++ off := by
  refine ⟨h.extractLsb' 0 8, ?_⟩
  have heq := hop_eq_append h
  rcases BitVec.eq_zero_or_eq_one (h.extractLsb' 8 1) with hd | hd <;> rw [hd] at heq
  · exact .inl heq
  · exact .inr heq

/-- Every encoded form decodes like the encoding of a well-formed instruction that has its key; the two differ at most in the
data word of a read. -/
theorem exists_encode (h : HostWord) :
    ∃ i, WellFormed i = true ∧ decode h = decode (encode i) ∧ h.key = (encode i).key := by
  cases h with
  | cmd w =>
    obtain ⟨i, hwf, he⟩ := exists_encode_cmd w
    exact ⟨i, hwf, by rw [he], by rw [he]⟩
  | hop h w =>
    obtain ⟨off, rfl | rfl⟩ := hop_cases h
    · obtain ⟨⟨i, hwf, he⟩, -⟩ := exists_encode_hop off w
      exact ⟨i, hwf, by rw [he, decode_hop_read], by rw [he]; rfl⟩
    · obtain ⟨-, i, hwf, he⟩ := exists_encode_hop off w
      exact ⟨i, hwf, by rw [he]; rfl, by rw [he]; rfl⟩

/-- Every instruction's encoding lies in its row of the opcode table. -/
theorem rowStatement (i : Instr) : Laws.Row.Statement i :=
  match i with
  | .init ign => Laws.Row.init ign
  | .start ign => Laws.Row.start ign
  | .write ign => Laws.Row.write ign
  | .readBurst ign => Laws.Row.readBurst ign
  | .readByte ign => Laws.Row.readByte ign
  | .cmdRsvd0 ign => Laws.Row.cmdRsvd0 ign
  | .cmdRsvd67 opc ign => Laws.Row.cmdRsvd67 opc ign
  | .cmdRsvd8F opc ign => Laws.Row.cmdRsvd8F opc ign
  | .rdCmd => Laws.Row.rdCmd
  | .wrCmd w => Laws.Row.wrCmd w
  | .rdStatus => Laws.Row.rdStatus
  | .wrStatus w => Laws.Row.wrStatus w
  | .rdSla => Laws.Row.rdSla
  | .wrSla w => Laws.Row.wrSla w
  | .rdRega => Laws.Row.rdRega
  | .wrRega w => Laws.Row.wrRega w
  | .rdLen => Laws.Row.rdLen
  | .wrLen w => Laws.Row.wrLen w
  | .rdTick => Laws.Row.rdTick
  | .wrTick w => Laws.Row.wrTick w
  | .rdBuf k => Laws.Row.rdBuf k
  | .wrBuf k w => Laws.Row.wrBuf k w
  | .rdRsvd18 off => Laws.Row.rdRsvd18 off
  | .rdRsvd20 off => Laws.Row.rdRsvd20 off
  | .rdRsvd40 off => Laws.Row.rdRsvd40 off
  | .wrRsvd18 off w => Laws.Row.wrRsvd18 off w
  | .wrRsvd20 off w => Laws.Row.wrRsvd20 off w
  | .wrRsvd40 off w => Laws.Row.wrRsvd40 off w
  | .hostfaultOffOdd data off => Laws.Row.hostfaultOffOdd data off
  | .hostfaultOff2 data off => Laws.Row.hostfaultOff2 data off

end Sys2Proof

namespace Sys2Proof.Machine

variable {s : State} {opc : BitVec 4}

/-! ### A write of CMD and the CMD rows -/

theorem exec_wrCmd_cmdWord (opc : BitVec 4) (ign : BitVec 28) (s : State) :
    exec (.wrCmd (cmdWord opc ign)) s = .next (requestCommand opc s) := by
  change Host.Outcome.next (requestCommand (opcOf (cmdWord opc ign)) s) = _
  rw [opcOf, extract_cmd_opc]

/-- What the three reserved CMD rows do (30_encoding.md R75). -/
theorem exec_cmdRsvd (opc : BitVec 4) (ign : BitVec 28) (s : State) :
    exec (.cmdRsvd0 ign) s = .next (requestReserved s) ∧ exec (.cmdRsvd67 opc ign) s = .next (requestReserved s) ∧
    exec (.cmdRsvd8F opc ign) s = .next (requestReserved s) := ⟨rfl, rfl, rfl⟩

/-- A request of an opcode without a command is that of a reserved row. -/
theorem requestCommand_reserved (h : opc < opcInit ∨ opcReadByte < opc) : requestCommand opc s = requestReserved s := by
  simp [requestCommand, requestReserved, h]

/-- A request of a command other than WRITE has no length check. -/
theorem requestCommand_unchecked (hr : ¬(opc < opcInit ∨ opcReadByte < opc)) (hw : opc ≠ opcWrite) :
    requestCommand opc s = requestUnlessBusy opc s := by
  simp [requestCommand, requestUnlessBusy, hr, hw]

/-- A request of WRITE is the WRITE row. -/
theorem execWrite_eq_requestCommand (ign : BitVec 28) (s : State) :
    execWrite ign s = .next (requestCommand opcWrite s) := by
  rcases execWrite_cases ign s with ⟨hb, e⟩ | ⟨hb, hl, e⟩ | ⟨hb, hl, e⟩ <;> rw [e]
  · simp [requestCommand, hb]
  · simp [requestCommand, hb, hl, opcInit, opcReadByte, opcWrite]
  · simp [requestCommand, hb, hl, opcInit, opcReadByte, opcWrite]

/-- The row a CMD word decodes to makes the request of its opcode. -/
theorem exec_decode_cmdWord (opc : BitVec 4) (ign : BitVec 28) (s : State) :
    exec (decode (.cmd (cmdWord opc ign))) s = .next (requestCommand opc s) := by
  obtain ⟨h0, h67, h8F⟩ := exec_cmdRsvd opc ign s
  rcases opcode_cases opc with rfl | rfl | rfl | rfl | rfl | rfl | h | h
  · rw [requestCommand_reserved (by decide), ← h0, decode_cmdWord]
    rfl
  · rw [requestCommand_unchecked (by decide) (by decide), decode_cmdWord]
    rfl
  · rw [requestCommand_unchecked (by decide) (by decide), decode_cmdWord]
    rfl
  · rw [decode_cmdWord]
    exact execWrite_eq_requestCommand ign s
  · rw [requestCommand_unchecked (by decide) (by decide), decode_cmdWord]
    rfl
  · rw [requestCommand_unchecked (by decide) (by decide), decode_cmdWord]
    rfl
  · have hr : opc < opcInit ∨ opcReadByte < opc := by rcases h with rfl | rfl <;> decide
    rw [requestCommand_reserved hr, decode_cmdWord_rsvd67 h, h67]
  · have hr : opc < opcInit ∨ opcReadByte < opc := .inr (Std.lt_of_lt_of_le (by decide) h)
    rw [requestCommand_reserved hr, decode_cmdWord_rsvd8F h, h8F]

theorem requestReserved_idle (hb : s.status.busy = false) :
    requestReserved s = { s with status := { s.status with cmderr := true, cerr := 2 } } := by
  rw [requestReserved, hb]
  rfl

/-! ### Assembler lines -/

/-- The data word of `cmd OP` is the opcode, with zeros above (30_encoding.md R78). -/
theorem cmdWord_zero (opc : BitVec 4) : cmdWord opc 0 = opc.setWidth 32 := by
  revert opc
  decide

end Sys2Proof.Machine

namespace Sys2Proof.Proofs

open Sys2Proof.Machine

/-- Settles O4: each row's encoding decodes to that row, and its bytes give the encoding back. -/
theorem decodeEncodeAgree : Obligations.DecodeEncodeAgree := by
  intro i hwf
  exact ⟨decode_encode hwf, decodeBytes_encode hwf⟩

/-- Settles O5: every such form is the encoding of some well-formed instruction, which is then what it decodes to. -/
theorem encodeDecodeAgree : Obligations.EncodeDecodeAgree := by
  refine ⟨fun w => ?_, fun off w => ?_, fun off w => ?_⟩
  · exact encode_decode_of_exists (exists_encode_cmd w)
  · exact encode_decode_of_exists (exists_encode_hop off w).2
  · rw [decode_hop_read]
    exact encode_decode_of_exists (exists_encode_hop off w).1

/-- Settles O6: the form decodes to the well-formed instruction whose encoding has its key, and that encoding lies in its row. -/
theorem decodedMatchesItsRow : Obligations.DecodedMatchesItsRow := by
  intro h
  obtain ⟨i, hwf, hdecode, hkey⟩ := exists_encode h
  rw [hdecode, decode_encode hwf, hkey]
  exact ⟨hwf, rowStatement i hwf⟩

/-- Settles O25: both make the request of the word's opcode. -/
theorem wrCmdAgreesWithCmdRows : Obligations.WrCmdAgreesWithCmdRows := by
  intro s w
  obtain ⟨opc, ign, rfl⟩ := exists_eq_cmdWord w
  rw [exec_wrCmd_cmdWord, exec_decode_cmdWord]

/-- Settles O7: each word is the encoding of the operation, with its operands written out. -/
theorem specWordsDecode : Obligations.SpecWordsDecode :=
  ⟨decode_encode (i := .init 0) rfl, decode_encode (i := .start 0xFFFFFFF#28) rfl, decode_encode (i := .rdStatus) rfl,
    decode_encode (i := .wrSla 0x00000068#32) rfl, decode_encode (i := .wrTick 0x00012345#32) rfl,
    decode_encode (i := .wrBuf 3 0x0000ABCD#32) rfl, decode_encode (i := .rdRsvd40 0x40#8) rfl,
    decode_encode (i := .hostfaultOff2 none 0x06#8) rfl⟩

/-- Settles O26: the three rows make a reserved request, which an idle block rejects with cause 2. -/
theorem reservedOpcodesRejected : Obligations.ReservedOpcodesRejected := by
  intro s opc ign
  refine ⟨fun hb => ?_, decode_cmdWord 0x0#4 ign, fun h => decode_cmdWord_rsvd67 h ign,
    fun h => decode_cmdWord_rsvd8F h ign⟩
  obtain ⟨h0, h67, h8F⟩ := exec_cmdRsvd opc ign s
  rw [h0, h67, h8F, requestReserved_idle hb]
  exact ⟨rfl, rfl, rfl⟩

/-- Settles O60: the lines are HOPs at the register's offset; only the data word of `cmd` and the offset of BUF[i] need a
computation. -/
theorem assemblerLinesEncode : Obligations.AssemblerLinesEncode := by
  refine ⟨fun _ => rfl, fun _ _ => rfl, fun c => ?_, rfl, rfl, rfl, rfl, rfl, rfl, rfl, rfl,
    fun i => ?_, rfl, rfl, rfl, rfl, rfl⟩
  · rw [lineWord, cmdWord_zero]
    rfl
  · change (1#1 ++ i ++ 0#2 : Byte) = _
    revert i
    decide

end Sys2Proof.Proofs
end

section
/-! SUPPORT. The TimeBase (40_timebase.md R101 to R104, R112): what a turn of TIMER and one of TB do, alone and round after round,
and what RD_TICK and WR_TICK do. -/

namespace Sys2Proof.Machine

variable {s t : State} {x : Turn} {ts us : List Turn}

/-! ### Turns taken one after another -/

/-- A run goes on from the state its first turn leads to. -/
theorem runTurns_cons (h : runTurn x s = .next t) : runTurns (x :: ts) s = runTurns ts t := by
  rw [runTurns, h]

theorem runTurns_append (h : runTurns ts s = .next t) : runTurns (ts ++ us) s = runTurns us t := by
  induction ts generalizing s with
  | nil => exact Host.Outcome.next.inj h ▸ rfl
  | cons x xs ih =>
    rw [runTurns] at h
    cases hx : runTurn x s with
    | next u =>
      rw [hx] at h
      rw [List.cons_append, runTurns_cons hx, ih h]
    | fault r | refused r =>
      rw [hx] at h
      cases h

/-- The same turns `n` times over, one round after another. -/
def rounds (n : Nat) (round : List Turn) : List Turn := (List.replicate n round).flatten

/-- Rounds that lead from each state of a sequence to the next lead along the sequence. -/
theorem runTurns_rounds {round : List Turn} {f : Nat → State} (n : Nat)
    (h : ∀ j < n, runTurns round (f j) = .next (f (j + 1))) : runTurns (rounds n round) (f 0) = .next (f n) := by
  induction n with
  | zero => rfl
  | succ n ih =>
    have hn : runTurns (rounds n round) (f 0) = .next (f n) := ih fun j hj => h j (Nat.lt_succ_of_lt hj)
    have hsplit : rounds (n + 1) round = rounds n round ++ round := by simp [rounds, List.replicate_succ']
    rw [hsplit, runTurns_append hn, h n (Nat.lt_succ_self n)]

/-! ### TIMER and TB -/

theorem timerStep_pending (h : s.tickPend = true) : timerStep s = s := by
  rw [timerStep, State.setTickPend, ← h]

theorem tbStep_status (s : State) : (tbStep s).status = s.status := by
  cases h : s.tickPend with
  | true => rw [tbStep_pending h]; rfl
  | false => rw [tbStep_not_pending h]

/-- TIMER and then TB count one tick, whether a request was pending before or not. -/
theorem runTurns_timer_tb (s : State) :
    runTurns [.timer, .tb] s = .next { s with tick := s.tick + 1, tickPend := false } := rfl

/-- The state `n` ticks later, where each has been counted as it came. -/
def State.ticked (n : Nat) (s : State) : State :=
  { s with tick := s.tick + BitVec.ofNat 16 n, tickPend := s.tickPend && n == 0 }

theorem ticked_zero (s : State) : s.ticked 0 = s := by
  simp [State.ticked]

theorem runTurns_timer_tb_ticked (n : Nat) (s : State) :
    runTurns [.timer, .tb] (s.ticked n) = .next (s.ticked (n + 1)) := by
  rw [runTurns_timer_tb]
  simp [State.ticked, BitVec.ofNat_add, BitVec.add_assoc]

theorem runTurns_ticks (n : Nat) (s : State) : runTurns (rounds n [.timer, .tb]) s = .next (s.ticked n) := by
  have h := runTurns_rounds (f := (s.ticked ·)) n fun j _ => runTurns_timer_tb_ticked j s
  rwa [ticked_zero] at h

/-! ### RD_TICK and WR_TICK -/

theorem exec_rdTick (s : State) : exec .rdTick s = .next (s.setRdata (s.tick.setWidth 32)) := rfl

theorem exec_wrTick_idle (w : Word) (hb : s.status.busy = false) :
    exec (.wrTick w) s = .next (s.setTick (w.extractLsb' 0 16)) :=
  congrArg Host.Outcome.next (whileIdle_idle hb)

theorem exec_wrTick_busy (w : Word) (hb : s.status.busy = true) : exec (.wrTick w) s = .next s :=
  congrArg Host.Outcome.next (whileIdle_busy hb)

theorem runTurn_rdTick (s : State) : runTurn (lineTurn (.rd .tick)) s = exec .rdTick s := rfl

theorem runTurn_wrTick (w : Word) (s : State) : runTurn (lineTurn (.wr .tick w)) s = exec (.wrTick w) s := rfl

/-- The example of 40_timebase.md R104: a write of 0, three ticks, a read of 3. -/
theorem runTurns_wrTick_threeTicks_rdTick (hb : s.status.busy = false) :
    runTurns (lineTurn (.wr .tick 0) :: (rounds 3 [.timer, .tb] ++ [lineTurn (.rd .tick)])) s =
      .next { s with tick := 3, tickPend := false, hRdata := 3 } := by
  have hwrite : runTurn (lineTurn (.wr .tick 0)) s = .next (s.setTick 0) := exec_wrTick_idle 0 hb
  have hticked : (s.setTick 0).ticked 3 = { s with tick := 3, tickPend := false } := by
    simp [State.ticked, State.setTick]
  rw [runTurns_cons hwrite, runTurns_append (runTurns_ticks 3 _), hticked]
  rfl

end Sys2Proof.Machine

namespace Sys2Proof.Proofs

open Sys2Proof.Machine

/-- Settles O35, by induction on the rounds: each counts one tick and clears the request it raised. -/
theorem ticksAreCounted : Obligations.TicksAreCounted := by
  intro n s hp
  have hticked : s.ticked n = { s with tick := s.tick + BitVec.ofNat 16 n } := by simp [State.ticked, hp]
  exact hticked ▸ runTurns_ticks n s

/-- Settles O18: the HOPs decode to the two rows, and a write lands only while no command runs. -/
theorem tickAccess : Obligations.TickAccess := by
  refine ⟨fun w => ⟨?_, ?_⟩, fun s w => ⟨exec_rdTick s, exec_wrTick_idle w, exec_wrTick_busy w,
    runTurns_wrTick_threeTicks_rdTick⟩⟩
  · exact (decode_hop_read 0x14#8 w).trans (decode_encode (i := .rdTick) rfl)
  · exact decode_encode (i := .wrTick w) rfl

/-- Settles O34: a second request sets what is set, and the counter is 16 bits wide. -/
theorem timerAndTbSteps : Obligations.TimerAndTbSteps := by
  intro s
  refine ⟨rfl, fun hp => congrArg Host.Outcome.next (timerStep_pending hp), fun hp => ⟨hp, _, rfl, ?_, ?_⟩⟩
  · rw [tbStep_pending hp]
    rfl
  · rw [tbStep_pending hp]
    exact BitVec.toNat_add s.tick 1

/-- Settles O36: each completes, and none writes STATUS. -/
theorem timeBaseNeverFails : Obligations.TimeBaseNeverFails := by
  intro s w
  refine ⟨⟨_, rfl, rfl⟩, ⟨_, rfl, tbStep_status s⟩, ⟨_, exec_rdTick s, rfl⟩, ?_⟩
  cases hb : s.status.busy with
  | false => exact ⟨_, exec_wrTick_idle w hb, rfl⟩
  | true => exact ⟨_, exec_wrTick_busy w hb, rfl⟩

end Sys2Proof.Proofs
end

section
/-! SUPPORT. The waits of SEQ over the table of wait sites (40_timebase.md R106, R107, R109; 60_exceptions.md R231): what one step of
a wait does, its predicate false or true, and how a wait that is polled once before each tick comes to its budget. -/

namespace Sys2Proof.Machine

variable {s t : State} {p : BusPins} {r : SiteRow} {k : Nat}

/-! ### One step of a wait -/

/-- What a wait does when its predicate is false at or after its budget: sites 1 to 3 fail an attempt, the others the command
(42_transaction_retry.md R170). -/
def SiteRow.fails (r : SiteRow) (s : State) : State :=
  if r.site ≤ 3 then attemptFail r.kind r.site s else finishFail r.kind r.site s

/-- The state with the sample of a wait recorded. -/
def State.sampled (r : SiteRow) (p : BusPins) (s : State) : State :=
  { s with hist := s.hist ++ [.sample r.flag (pinOf p r.flag)] }

/-- The moves of a wait: a spin, a failure at the budget, or the success move of its phase, which records the sample first and
leaves STATUS or ends the command with success. -/
theorem SeqMove.wait_cases (m : SeqMove p s t) (hr : siteRow s.phase = some r) :
    (pinOf p r.flag ≠ r.value ∧ s.tick.toNat < r.budget ∧ t = s.sampled r p) ∨
    (pinOf p r.flag ≠ r.value ∧ r.budget ≤ s.tick.toNat ∧ t = r.fails (s.sampled r p)) ∨
    (pinOf p r.flag = r.value ∧ waitSuccess p s = some t ∧
      (t.status = s.status ∨ (t.status.done = true ∧ t.status.ok = true)) ∧
      ∃ more, t.hist = s.hist ++ .sample r.flag r.value :: more) := by
  cases m with
  | spins r' hr' hp ht => cases hr.symm.trans hr'; exact .inl ⟨hp, ht, rfl⟩
  | attemptFails r' hr' hp ht hs => cases hr.symm.trans hr'; exact .inr (.inl ⟨hp, ht, (if_pos hs).symm⟩)
  | commandFails r' hr' hp ht hs => cases hr.symm.trans hr'; exact .inr (.inl ⟨hp, ht, (if_neg hs).symm⟩)
  | busFree h hp | started h hp | writeSettled h hp | burstSettled h hp | byteSettled h hp | repeatedStartCleared h hp =>
    rw [h] at hr; cases hr
    exact .inr (.inr ⟨hp, by simp only [waitSuccess, h], .inl rfl, _, rfl⟩)
  | startDoneWrite h hp ho | startDoneBurst h hp ho | startDoneByte h hp ho =>
    rw [h] at hr; cases hr
    exact .inr (.inr ⟨hp, by simp only [waitSuccess, h, ho]; rfl, .inl rfl, _, rfl⟩)
  | byteSent b h hp hb =>
    rw [h] at hr; cases hr
    exact .inr (.inr ⟨hp, by simp only [waitSuccess, h, hb]; rfl, .inl rfl, _, rfl⟩)
  | startDoneStart h hp ho =>
    rw [h] at hr; cases hr
    exact .inr (.inr ⟨hp, by simp only [waitSuccess, h, ho]; rfl, .inr ⟨rfl, rfl⟩, _, rfl⟩)
  | drained h hp =>
    rw [h] at hr; cases hr
    exact .inr (.inr ⟨hp, by simp only [waitSuccess, h]; rfl, .inr ⟨rfl, rfl⟩, _, rfl⟩)
  | received h hp =>
    rcases h with h | h <;> rw [h] at hr <;> cases hr <;>
      exact .inr (.inr ⟨hp, by simp only [waitSuccess, h]; rfl, .inr ⟨rfl, rfl⟩, _, rfl⟩)
  | idle h | aInit h | aBegin h | aStart h | aRegaddr h | aDelayCounts h | aDelayEnds h | aWscl h | aWdata h | aRscl h
  | aRrs h | aBscl h | aBrs h => rw [h] at hr; cases hr

/-! ### A step completes -/

theorem waitOn_completes {f : Flag} {v : Bool} {b : Nat} {ok timeout : State → Result}
    (hok : pinOf p f = v → ∃ t, ok (s.record (.sample f v)) = .next t) (htimeout : ∀ u, ∃ t, timeout u = .next t) :
    ∃ t, waitOn f v b p ok timeout s = .next t := by
  rcases waitOn_cases f v b p ok timeout s with ⟨hp, e⟩ | ⟨-, -, e⟩ | ⟨-, -, e⟩ <;> rw [e]
  · exact hok hp
  · exact htimeout _
  · exact ⟨_, rfl⟩

/-- The opcodes of the commands that make start attempts (41_bus_controller.md R122). -/
def makesAttempts (opc : BitVec 4) : Prop :=
  opc = opcStart ∨ opc = opcWrite ∨ opc = opcReadBurst ∨ opc = opcReadByte

theorem makesAttempts_of_phaseOfCommand {opc : BitVec 4} (h : phaseOfCommand opc .wRa = true) : makesAttempts opc := by
  revert opc
  unfold makesAttempts
  decide

theorem makesAttempts_of_waitSuccess (hph : s.phase = .wRa) (h : waitSuccess p s = some t) : makesAttempts s.opc := by
  simp only [waitSuccess, hph] at h
  split at h
  next ho => exact .inl ho
  split at h
  next ho => exact .inr (.inl ho)
  split at h
  next ho => exact .inr (.inr (.inl ho))
  split at h
  next ho => exact .inr (.inr (.inr ho))
  cases h

theorem startDone_completes (h : makesAttempts s.opc) : ∃ t, startDone s = .next t := by
  rw [startDone]
  rcases h with ho | ho | ho | ho <;> rw [ho] <;> exact ⟨_, rfl⟩

/-- A data byte is sent where the spec gives W_WTX a success move (41_bus_controller.md R135). -/
theorem sendDataByte_completes {e : BusEvent} (hph : s.phase = .wWtx) (h : waitSuccess p s = some t) :
    ∃ u, sendDataByte (s.record e) = .next u := by
  simp only [waitSuccess, hph] at h
  obtain ⟨b, hb, -⟩ := Option.map_eq_some_iff.1 h
  exact ⟨_, sendDataByte_some (s := s.record e) hb⟩

/-- A SEQ step completes unless it is a wait that succeeds and has no success move. -/
theorem seqStep_completes
    (h : ∀ r, siteRow s.phase = some r → pinOf p r.flag = r.value → ∃ t, waitSuccess p s = some t) :
    ∃ t, seqStep p s = .next t := by
  rw [seqStep]
  cases hph : s.phase with
  | idle | aInit | aBegin | aStart | aRegaddr | aWscl | aWdata | aRscl | aRrs | aBscl | aBrs => exact ⟨_, rfl⟩
  | aDelay =>
    change ∃ t, phaseADelay s = .next t
    rw [phaseADelay]
    split <;> exact ⟨_, rfl⟩
  | wBusy | wSb | wWscl | wWdrain | wRscl | wRrx | wBscl | wBrs | wBrx =>
    exact waitOn_completes (fun _ => ⟨_, rfl⟩) fun _ => ⟨_, rfl⟩
  | wRa =>
    refine waitOn_completes (fun hp => ?_) fun _ => ⟨_, rfl⟩
    obtain ⟨t, ht⟩ := h ⟨3, .txrdy, true, 50, .addressAck⟩ (by rw [hph]; rfl) hp
    have ho := makesAttempts_of_waitSuccess hph ht
    exact startDone_completes ho
  | wWtx =>
    refine waitOn_completes (fun hp => ?_) fun _ => ⟨_, rfl⟩
    obtain ⟨t, ht⟩ := h ⟨5, .txrdy, true, 100, .data⟩ (by rw [hph]; rfl) hp
    exact sendDataByte_completes hph ht

theorem seqStep_completes_of_predicate_false (hr : siteRow s.phase = some r) (hp : pinOf p r.flag ≠ r.value) :
    ∃ t, seqStep p s = .next t :=
  seqStep_completes fun _ hr' hp' => absurd hp' (Option.some.inj (hr.symm.trans hr') ▸ hp)

/-- Below its budget a wait whose predicate is false spins. -/
theorem seqStep_spins (hr : siteRow s.phase = some r) (hp : pinOf p r.flag ≠ r.value) (ht : s.tick.toNat < r.budget) :
    seqStep p s = .next (s.sampled r p) := by
  obtain ⟨t, h⟩ := seqStep_completes_of_predicate_false hr hp
  rcases (seqStep_move h).wait_cases hr with ⟨-, -, rfl⟩ | ⟨-, hge, -⟩ | ⟨hp', -⟩
  · exact h
  · omega
  · exact absurd hp' hp

/-- At or after its budget a wait whose predicate is false fails. -/
theorem seqStep_fails (hr : siteRow s.phase = some r) (hp : pinOf p r.flag ≠ r.value) (ht : r.budget ≤ s.tick.toNat) :
    seqStep p s = .next (r.fails (s.sampled r p)) := by
  obtain ⟨t, h⟩ := seqStep_completes_of_predicate_false hr hp
  rcases (seqStep_move h).wait_cases hr with ⟨-, hlt, -⟩ | ⟨-, -, rfl⟩ | ⟨hp', -⟩
  · omega
  · exact h
  · exact absurd hp' hp

/-- A wait whose predicate is true takes the success move of its phase, where there is one. -/
theorem seqStep_succeeds (hr : siteRow s.phase = some r) (hp : pinOf p r.flag = r.value) (ht : waitSuccess p s = some t) :
    seqStep p s = .next t ∧ (t.status = s.status ∨ (t.status.done = true ∧ t.status.ok = true)) ∧
      ∃ more, t.hist = s.hist ++ .sample r.flag r.value :: more := by
  obtain ⟨u, h⟩ := seqStep_completes (p := p) (s := s) fun _ _ _ => ⟨t, ht⟩
  rcases (seqStep_move h).wait_cases hr with ⟨hp', -⟩ | ⟨hp', -⟩ | ⟨-, hu, hstatus, hhist⟩
  · exact absurd hp hp'
  · exact absurd hp hp'
  · cases hu.symm.trans ht
    exact ⟨h, hstatus, hhist⟩

/-- No step of a wait changes TICK (40_timebase.md R105). -/
theorem seqStep_tick (hr : siteRow s.phase = some r) (h : seqStep p s = .next t) : t.tick = s.tick := by
  rw [(seqStep_move h).tick_eq, beginsWindow_of_siteRow hr]
  rfl

/-- In a state that meets the invariant every wait has a success move. -/
theorem Inv.waitSuccess_exists (g : Inv s) (hr : siteRow s.phase = some r) (p : BusPins) :
    ∃ t, waitSuccess p s = some t := by
  cases hph : s.phase with
  | wRa =>
    simp only [waitSuccess, hph]
    rcases makesAttempts_of_phaseOfCommand (g.fits hph).1 with ho | ho | ho | ho <;> rw [ho] <;> exact ⟨_, rfl⟩
  | wWtx =>
    obtain ⟨-, hlen⟩ := g.lengthOfWrite hph
    have hb := dataByte_of_lt (s := s) (Nat.lt_of_lt_of_le (g.indexBelowLength hph) hlen)
    rw [dataByte] at hb
    simp only [waitSuccess, hph, hb]
    exact ⟨_, rfl⟩
  | wBusy | wSb | wWscl | wWdrain | wRscl | wRrx | wBscl | wBrs | wBrx =>
    simp only [waitSuccess, hph]
    exact ⟨_, rfl⟩
  | idle | aInit | aBegin | aStart | aRegaddr | aDelay | aWscl | aWdata | aRscl | aRrs | aBscl | aBrs =>
    rw [hph] at hr
    cases hr

/-! ### A wait polled once before each tick -/

/-- The state of a wait, entered at TICK = 0 with no request pending, after `k` polls and `k` ticks. -/
def State.polledFor (r : SiteRow) (p : BusPins) (k : Nat) (s : State) : State :=
  { s with tick := BitVec.ofNat 16 k, hist := s.hist ++ List.replicate k (.sample r.flag (pinOf p r.flag)) }

theorem polledFor_zero (h : s.tick = 0) : s.polledFor r p 0 = s := by
  have hzero : BitVec.ofNat 16 0 = s.tick := h.symm
  rw [State.polledFor, hzero, List.replicate_zero, List.append_nil]

theorem budget_le {ph : Phase} (hr : siteRow ph = some r) : r.budget ≤ 100 := by
  cases ph <;> cases hr <;> decide

/-- Up to the budget the counter has not wrapped. -/
theorem polledFor_tick (hr : siteRow s.phase = some r) (hk : k ≤ r.budget) : (s.polledFor r p k).tick.toNat = k := by
  have hb := budget_le hr
  exact (BitVec.toNat_ofNat k 16).trans (Nat.mod_eq_of_lt (by omega))

/-- One poll below the budget and one tick. -/
theorem runTurns_poll_tick (hr : siteRow s.phase = some r) (hp : pinOf p r.flag ≠ r.value) (hpend : s.tickPend = false)
    (hk : k < r.budget) :
    runTurns [.seq p, .timer, .tb] (s.polledFor r p k) = .next (s.polledFor r p (k + 1)) := by
  have htick : (s.polledFor r p k).tick.toNat < r.budget := by rwa [polledFor_tick hr (Nat.le_of_lt hk)]
  have hspin : runTurn (.seq p) (s.polledFor r p k) = .next ((s.polledFor r p k).sampled r p) := seqStep_spins hr hp htick
  rw [runTurns_cons hspin, runTurns_timer_tb]
  simp [State.polledFor, State.sampled, BitVec.ofNat_add, List.replicate_succ', hpend]

theorem runTurns_polls (hr : siteRow s.phase = some r) (hp : pinOf p r.flag ≠ r.value) (hpend : s.tickPend = false)
    (htick : s.tick = 0) (hk : k ≤ r.budget) :
    runTurns (rounds k [.seq p, .timer, .tb]) s = .next (s.polledFor r p k) := by
  have h := runTurns_rounds (f := (s.polledFor r p ·)) k fun j hj =>
    runTurns_poll_tick hr hp hpend (Nat.lt_of_lt_of_le hj hk)
  rwa [polledFor_zero htick] at h

end Sys2Proof.Machine

namespace Sys2Proof.Proofs

open Sys2Proof.Machine

/-- Settles O47: a step of a wait is a move of the transition table, and the predicate and the counter leave one of them. -/
theorem waitSitesFollowTheTable : Obligations.WaitSitesFollowTheTable := by
  intro s p r hr
  exact ⟨seqStep_spins hr, seqStep_fails hr,
    fun hp => ⟨fun _ ht => seqStep_succeeds hr hp ht, fun g => g.waitSuccess_exists hr p⟩⟩

/-- Settles O53: below the budget each round polls and counts one tick, by induction on the rounds; the poll at the budget fails
and leaves the wait. -/
theorem polledWaitEndsAtItsBudget : Obligations.PolledWaitEndsAtItsBudget := by
  intro s p r k hr htick hpend hp hk
  have hu : (s.polledFor r p k).tick.toNat = k := polledFor_tick hr hk
  refine ⟨s.polledFor r p k, runTurns_polls hr hp hpend htick hk, rfl, hu, rfl, fun hlt => ?_, fun heq => ?_⟩
  · exact ⟨_, seqStep_spins hr hp (hu.trans_lt hlt), rfl⟩
  · have h := seqStep_fails (s := s.polledFor r p k) hr hp (hu.trans heq).ge
    rcases seqStep_waiting (s := s.polledFor r p k) hr hp h with ⟨hlt, -⟩ | ⟨-, hleft⟩
    · omega
    · exact ⟨_, h, hleft, (congrArg BitVec.toNat (seqStep_tick (s := s.polledFor r p k) hr h)).trans (hu.trans heq)⟩

end Sys2Proof.Proofs
end

section
/-! SUPPORT. What a running command has put on the bus (41_bus_controller.md R138, R156): the actions by phase, kept along every turn
but reset, from the acceptance of the command to its success. -/

namespace Sys2Proof.Machine

variable {i : Instr} {s t u : State} {p : BusPins} {x : Turn} {ts : List Turn}

/-! ### The actions of a history -/

@[simp] theorem actionsOf_append (h k : List BusEvent) : actionsOf (h ++ k) = actionsOf h ++ actionsOf k :=
  List.filterMap_append

@[simp] theorem actionsOf_nil : actionsOf [] = [] := rfl

@[simp] theorem actionsOf_cons_act (a : BusAction) (h : List BusEvent) : actionsOf (.act a :: h) = a :: actionsOf h := rfl

@[simp] theorem actionsOf_cons_sample (f : Flag) (v : Bool) (h : List BusEvent) :
    actionsOf (.sample f v :: h) = actionsOf h := rfl

/-! ### The actions of a command, by phase -/

/-- The actions of the repeated start for reading (41_bus_controller.md R142, R152). -/
def repeatedStartActions : List BusAction := [.clrTxrdy, .setDir 1, .genStart]

/-- The first `n` data bytes of a WRITE, sent (41_bus_controller.md R135, R138). -/
def sentActions (n : Nat) (s : State) : List BusAction := (s.buf.toList.take n).map .writeDr

/-- The actions of a command that has succeeded, less those of failed start attempts (41_bus_controller.md R123, R124, R131,
R139, R149); the byte a read received stands in BUF[0]. -/
def successActions (s : State) : List BusAction :=
  if s.opc = opcInit then [.cfgBus]
  else if s.opc = opcStart then startActions s.sla s.rega
  else if s.opc = opcWrite then startActions s.sla s.rega ++ sentActions (lengthOf s) s ++ [.genStop]
  else if s.opc = opcReadBurst then startActions s.sla s.rega ++ repeatedStartActions ++ [.readDr s.buf[0]]
  else startActions s.sla s.rega ++ repeatedStartActions ++ [.genNackStop, .readDr s.buf[0]]

/-- The actions a command has emitted since its present attempt began, by the phase it is in; in IDLE, those of its success. -/
def commandActions (s : State) : List BusAction :=
  match s.phase with
  | .idle => successActions s
  | .aInit | .aBegin | .wBusy | .aStart | .aDelay => []
  | .wSb | .aRegaddr => [.clrTxrdy, .setSla s.sla, .setDir 0, .genStart]
  | .wRa | .aWscl | .wWscl | .aWdata | .aRscl | .wRscl | .aRrs | .aBscl | .wBscl | .aBrs => startActions s.sla s.rega
  | .wWtx | .wWdrain => startActions s.sla s.rega ++ sentActions s.idx s
  | .wRrx | .wBrs => startActions s.sla s.rega ++ repeatedStartActions
  | .wBrx => startActions s.sla s.rega ++ repeatedStartActions ++ [.genNackStop]

theorem commandActions_idle (h : s.phase = .idle) : commandActions s = successActions s := by
  simp only [commandActions, h]

theorem commandActions_finishOk (s : State) : commandActions (finishOk s) = successActions s := rfl

/-- In a wait of a start attempt nothing but actions of a start has been emitted. -/
theorem commandActions_startWait (h : s.phase = .wBusy ∨ s.phase = .wSb ∨ s.phase = .wRa) :
    ∀ a ∈ commandActions s, a ∈ startActions s.sla s.rega := by
  rcases h with h | h | h <;> simp [commandActions, startActions, h]

/-- One more byte sent is one more action. -/
theorem sentActions_succ {n : Nat} {b : Byte} (hb : s.buf[n]? = some b) :
    sentActions (n + 1) s = sentActions n s ++ [.writeDr b] := by
  rw [sentActions, List.take_add_one, Vector.getElem?_toList, hb, List.map_append]
  rfl

theorem successActions_write (ho : s.opc = opcWrite) :
    successActions s = startActions s.sla s.rega ++ sentActions (lengthOf s) s ++ [.genStop] := by
  rw [successActions, ho]
  rfl

theorem successActions_readByte (ho : s.opc = opcReadByte) :
    successActions s = startActions s.sla s.rega ++ repeatedStartActions ++ [.genNackStop, .readDr s.buf[0]] := by
  rw [successActions, ho]
  rfl

/-! ### A SEQ step -/

/-- Only the two reads wait for a received byte. -/
theorem Inv.reads (g : Inv s) (h : s.phase = .wRrx ∨ s.phase = .wBrx) : s.opc = opcReadBurst ∨ s.opc = opcReadByte := by
  rcases h with h | h <;> obtain ⟨hfit, -⟩ := g.fits h
  · exact .inl (eq_of_beq hfit)
  · exact .inr (eq_of_beq hfit)

/-- A SEQ step of a command that goes on or succeeds extends its actions by what it emits, or leaves a failed start attempt behind
and emits nothing. -/
theorem SeqMove.commandActions_cases (m : SeqMove p s t) (g : Inv s) (hs : s.phase ≠ .idle)
    (ht : t.phase ≠ .idle ∨ t.status.ok = true) :
    (∃ new, actionsOf t.hist = actionsOf s.hist ++ new ∧ commandActions t = commandActions s ++ new) ∨
    ((∀ a ∈ commandActions s, a ∈ startActions s.sla s.rega) ∧ actionsOf t.hist = actionsOf s.hist ∧
      commandActions t = []) := by
  cases m with
  | idle h => exact absurd h hs
  | aInit h =>
    have ho : s.opc = opcInit := eq_of_beq (g.fits h).1
    exact .inl ⟨[.cfgBus], by simp, by simp [commandActions, successActions, h, ho]⟩
  | aStart h =>
    exact .inl ⟨[.clrTxrdy, .setSla s.sla, .setDir 0, .genStart], by simp, by simp [commandActions, h]⟩
  | aRegaddr h => exact .inl ⟨[.writeDr s.rega], by simp, by simp [commandActions, startActions, h]⟩
  | aRrs h | aBrs h =>
    exact .inl ⟨repeatedStartActions, by simp [repeatedStartActions], by simp [commandActions, h]⟩
  | repeatedStartCleared h => exact .inl ⟨[.genNackStop], by simp, by simp [commandActions, h]⟩
  | aBegin h | aDelayCounts h | aDelayEnds h | aWscl h | aWdata h | aRscl h | aBscl h | busFree h | started h
  | startDoneWrite h | startDoneBurst h | startDoneByte h | writeSettled h | burstSettled h | byteSettled h =>
    exact .inl ⟨[], by simp, by simp [commandActions, sentActions, h]⟩
  | spins => exact .inl ⟨[], by simp, (List.append_nil _).symm⟩
  | commandFails r => exact absurd ht (by simp [finishFail])
  | attemptFails r hr hp hbudget hsite =>
    refine .inr ⟨commandActions_startWait (startWait_of_site_le hr hsite), ?_, ?_⟩
    · simp [(attemptFail_keeps ..).hist]
    · rcases attemptFail_cases r.kind r.site { s with hist := s.hist ++ [.sample r.flag (pinOf p r.flag)] } with
        ⟨-, e⟩ | ⟨-, -, e⟩ | ⟨-, -, -, e⟩ <;> rw [e] at ht ⊢
      · exact absurd ht (by simp [finishFail])
      · rfl
      · rfl
  | startDoneStart h hp ho =>
    refine .inl ⟨[], by simp [finishOk], (commandActions_finishOk _).trans ?_⟩
    simp [successActions, commandActions, h, ho, opcInit, opcStart]
  | byteSent b h hp hb =>
    refine .inl ⟨[.writeDr b], by simp, ?_⟩
    have hgoal : startActions s.sla s.rega ++ sentActions (s.idx + 1) s = commandActions s ++ [.writeDr b] := by
      simp [commandActions, sentActions_succ hb, h]
    split <;> exact hgoal
  | drained h =>
    have ho : s.opc = opcWrite := eq_of_beq (g.fits h).1
    have hidx : s.idx = lengthOf s := g.indexAtLength h
    refine .inl ⟨[.genStop], by simp [finishOk], ?_⟩
    simp only [commandActions, h, hidx]
    exact successActions_write ho
  | received h =>
    refine .inl ⟨[.readDr p.rxdata], by simp [finishOk], (commandActions_finishOk _).trans ?_⟩
    rcases h with h | h
    · have ho : s.opc = opcReadBurst := eq_of_beq (g.fits h).1
      simp [successActions, commandActions, h, ho, opcInit, opcStart, opcWrite, opcReadBurst]
    · have ho : s.opc = opcReadByte := eq_of_beq (g.fits h).1
      simp [successActions, commandActions, h, ho, opcInit, opcStart, opcWrite, opcReadBurst,
        opcReadByte]

/-! ### A turn of any other agent -/

/-- What a turn of another agent leaves to a running command: everything but TICK, the tick request, the rejection fields of
STATUS and the word the host read. -/
structure LeavesCommand (s t : State) : Prop where
  opc : t.opc = s.opc
  sla : t.sla = s.sla
  rega : t.rega = s.rega
  len : t.len = s.len
  buf : t.buf = s.buf
  phase : t.phase = s.phase
  idx : t.idx = s.idx
  hist : t.hist = s.hist

/-- The busy-write rule (43_host_access.md R195), of the moves of the host. -/
theorem HostMove.leavesCommand (m : HostMove i s t) (hb : s.status.busy = true) : LeavesCommand s t := by
  cases m with
  | unchanged | reads | rejects => exact ⟨rfl, rfl, rfl, rfl, rfl, rfl, rfl, rfl⟩
  | accepts _ _ _ h | setsSla _ _ h | setsRega _ _ h | setsLen _ _ h | setsTick _ _ h | setsBuf _ _ _ h =>
    rw [hb] at h
    cases h

theorem tbStep_leavesCommand (s : State) : LeavesCommand s (tbStep s) := by
  cases h : s.tickPend with
  | true => rw [tbStep_pending h]; exact ⟨rfl, rfl, rfl, rfl, rfl, rfl, rfl, rfl⟩
  | false => rw [tbStep_not_pending h]; exact ⟨rfl, rfl, rfl, rfl, rfl, rfl, rfl, rfl⟩

theorem LeavesCommand.commandActions_eq (k : LeavesCommand s t) : commandActions t = commandActions s := by
  obtain ⟨hopc, hsla, hrega, hlen, hbuf, hphase, hidx, -⟩ := k
  simp only [commandActions, successActions, sentActions, lengthOf, hopc, hsla, hrega, hlen, hbuf, hphase, hidx]

/-! ### A run -/

/-- What holds of every state of a run of a command that began in `u`: the descriptor is `u`'s, BUF is `u`'s but for a byte received
into BUF[0] (by a read alone), and the actions since `u` are those of failed start attempts and then those of the phase. -/
structure CommandRun (u s : State) : Prop where
  inv : Inv s
  opc : s.opc = u.opc
  sla : s.sla = u.sla
  rega : s.rega = u.rega
  len : s.len = u.len
  buf : s.buf = u.buf.set 0 s.buf[0]
  bufOfWrite : s.opc = opcWrite → s.buf = u.buf
  emitted : s.phase ≠ .idle ∨ s.status.ok = true → ∃ failed, (∀ a ∈ failed, a ∈ startActions u.sla u.rega) ∧
    actionsOf s.hist = actionsOf u.hist ++ failed ++ commandActions s

/-- A command just accepted has emitted nothing. -/
theorem CommandRun.accepted {opc : BitVec 4} (hlo : opcInit ≤ opc) (hhi : opc ≤ opcReadByte)
    (hl : opc = opcWrite → lengthAllowed s = true) : CommandRun (accept opc s) (accept opc s) := by
  refine ⟨accept_inv hlo hhi hl, rfl, rfl, rfl, rfl, by simp, fun _ => rfl, fun _ => ⟨[], nofun, ?_⟩⟩
  have hnone : commandActions (accept opc s) = [] := by
    have hphase := accept_phase opc s
    split at hphase <;> simp only [commandActions, hphase]
  rw [hnone, List.append_nil, List.append_nil]

theorem CommandRun.seqMove (r : CommandRun u s) (m : SeqMove p s t) (hs : s.phase ≠ .idle) : CommandRun u t := by
  have k := m.keeps
  obtain ⟨failed, hfailed, hacts⟩ := r.emitted (.inl hs)
  refine ⟨m.inv r.inv, k.opc.trans r.opc, k.sla.trans r.sla, k.rega.trans r.rega, k.len.trans r.len, ?_, fun ho => ?_,
    fun ht => ?_⟩
  · rcases m.buf_cases with e | ⟨-, -, e⟩ <;> rw [e]
    · exact r.buf
    · rw [r.buf]
      simp
  · rcases m.buf_cases with e | ⟨h, -⟩
    · exact e.trans (r.bufOfWrite (k.opc ▸ ho))
    · have hread := r.inv.reads h
      rw [← k.opc, ho] at hread
      exact absurd hread (by decide)
  · rcases m.commandActions_cases r.inv hs ht with ⟨new, hnew, e⟩ | ⟨hstart, hnew, e⟩
    · exact ⟨failed, hfailed, by rw [hnew, hacts, e, List.append_assoc _ _ new]⟩
    · rw [r.sla, r.rega] at hstart
      refine ⟨failed ++ commandActions s, fun a ha => ?_, by rw [hnew, hacts, e]; simp⟩
      exact (List.mem_append.1 ha).elim (hfailed a) (hstart a)

theorem CommandRun.otherTurn (r : CommandRun u s) (k : LeavesCommand s t) (hs : s.phase ≠ .idle) (g : Inv t) :
    CommandRun u t := by
  have hacts := r.emitted (.inl hs)
  refine ⟨g, k.opc.trans r.opc, k.sla.trans r.sla, k.rega.trans r.rega, k.len.trans r.len, ?_, ?_, fun _ => ?_⟩
  · rw [k.buf]; exact r.buf
  · rw [k.opc, k.buf]; exact r.bufOfWrite
  · rw [k.hist, k.commandActions_eq]; exact hacts

/-- Every turn but reset keeps what holds along a run. -/
theorem CommandRun.turn (r : CommandRun u s) (hb : s.status.busy = true) (hr : x ≠ .reset) (h : runTurn x s = .next t) :
    CommandRun u t := by
  have hs : s.phase ≠ .idle := r.inv.busyNamesPhase.1 hb
  have g : Inv t := runTurn_inv r.inv h
  cases x with
  | seq p => exact r.seqMove (seqStep_move h) hs
  | host a => exact r.otherTurn ((exec_move (hostStep_next h)).leavesCommand hb) hs g
  | timer => exact r.otherTurn (Host.Outcome.next.inj h ▸ ⟨rfl, rfl, rfl, rfl, rfl, rfl, rfl, rfl⟩) hs g
  | tb => exact r.otherTurn (Host.Outcome.next.inj h ▸ tbStep_leavesCommand s) hs g
  | reset => exact absurd rfl hr

/-- What each of the turns keeps while a command runs holds where the run ends. -/
theorem runWhileBusy_induction {P : State → Prop}
    (hturn : ∀ x ∈ ts, ∀ s t, s.status.busy = true → P s → runTurn x s = .next t → P t) (hs : P s)
    (h : runWhileBusy ts s = .next t) : P t := by
  induction ts generalizing s with
  | nil => exact Host.Outcome.next.inj h ▸ hs
  | cons x xs ih =>
    rw [runWhileBusy] at h
    split at h
    next hb =>
      cases hx : runTurn x s with
      | next v =>
        rw [hx] at h
        exact ih (fun y hy => hturn y (List.mem_cons_of_mem _ hy)) (hturn x (List.mem_cons_self ..) s v hb hs hx) h
      | fault e | refused e =>
        rw [hx] at h
        cases h
    next => exact Host.Outcome.next.inj h ▸ hs

theorem CommandRun.run (r : CommandRun u s) (hr : ∀ x ∈ ts, x ≠ .reset) (h : runWhileBusy ts s = .next t) :
    CommandRun u t :=
  runWhileBusy_induction (fun x hx _ _ hb r' => r'.turn hb (hr x hx)) r h

/-- What a command that has succeeded has emitted. -/
theorem CommandRun.succeeded (r : CommandRun u t) (hb : t.status.busy = false) (hok : t.status.ok = true) :
    ∃ failed, (∀ a ∈ failed, a ∈ startActions u.sla u.rega) ∧
      actionsOf t.hist = actionsOf u.hist ++ failed ++ successActions t := by
  have hidle : t.phase = .idle := r.inv.phase_eq_idle_iff.2 hb
  rw [← commandActions_idle hidle]
  exact r.emitted (.inr hok)

/-! ### Acceptance -/

theorem requestUnlessBusy_idle (opc : BitVec 4) (hb : s.status.busy = false) : requestUnlessBusy opc s = accept opc s := by
  rw [requestUnlessBusy, hb]
  rfl

/-- From idle a WRITE of a legal length is accepted (43_host_access.md R196, R197). -/
theorem exec_write_idle (ign : BitVec 28) (hb : s.status.busy = false) (hl : lengthAllowed s = true) :
    exec (.write ign) s = .next (accept opcWrite s) := by
  change execWrite ign s = _
  rw [execWrite, hb, hl]
  rfl

theorem exec_readByte_idle (ign : BitVec 28) (hb : s.status.busy = false) :
    exec (.readByte ign) s = .next (accept opcReadByte s) :=
  congrArg Host.Outcome.next (requestUnlessBusy_idle opcReadByte hb)

end Sys2Proof.Machine

namespace Sys2Proof.Proofs

open Sys2Proof.Machine

/-- Settles O32: what holds along the run gives the actions of its success, and a WRITE that drains has sent LEN bytes. -/
theorem successfulWriteSendsExactlyItsBytes : Obligations.SuccessfulWriteSendsExactlyItsBytes := by
  intro ts s t ign hb hlo hhi hr
  have hl : lengthAllowed s = true := (lengthAllowed_iff s).2 ⟨hlo, hhi⟩
  refine ⟨accept opcWrite s, exec_write_idle ign hb hl, fun hrun hend hok => ?_⟩
  have r := (CommandRun.accepted (by decide) (by decide) fun _ => hl).run hr hrun
  obtain ⟨failed, hfailed, hacts⟩ := r.succeeded hend hok
  refine ⟨failed, hfailed, ?_⟩
  rw [hacts, successActions_write r.opc, sentActions, r.bufOfWrite r.opc, r.sla, r.rega, lengthOf, r.len]
  simp [accept]

/-- Settles O33: what holds along the run gives the actions of its success, and the byte received is the one in BUF[0]. -/
theorem successfulReadByteReadsExactlyOneByte : Obligations.SuccessfulReadByteReadsExactlyOneByte := by
  intro ts s t ign hb hr
  refine ⟨accept opcReadByte s, exec_readByte_idle ign hb, fun hrun hend hok => ?_⟩
  have r := (CommandRun.accepted (opc := opcReadByte) (by decide) (by decide) nofun).run hr hrun
  obtain ⟨failed, hfailed, hacts⟩ := r.succeeded hend hok
  refine ⟨⟨failed, t.buf[0], hfailed, ?_, r.buf⟩, r.sla, r.rega, r.len, r.opc⟩
  rw [hacts, successActions_readByte r.opc, r.sla, r.rega]
  simp [repeatedStartActions, accept]

end Sys2Proof.Proofs
end

section
/-! SUPPORT. The phases of SEQ one by one (41_bus_controller.md R121 to R154): the step of every action phase, and the steps of a wait
with the values of its row written out. -/

namespace Sys2Proof.Machine

variable {s t : State} {p : BusPins}

/-! ### Action phases -/

theorem runTurn_aBegin (h : s.phase = .aBegin) : runTurn (.seq p) s =
    .next { s with status := { s.status with attempts := s.status.attempts + 1 }, tick := 0, phase := .wBusy } :=
  seqStep_aBegin h

theorem runTurn_aStart (h : s.phase = .aStart) : runTurn (.seq p) s = .next { s with
    tick := 0, phase := .wSb
    hist := s.hist ++ [.act .clrTxrdy, .act (.setSla s.sla), .act (.setDir 0), .act .genStart] } := by
  have hstep : runTurn (.seq p) s = phaseAStart s := seqStep_aStart h
  rw [hstep]
  simp [phaseAStart, State.emit, State.record, State.setPhase, State.resetWindow, State.setTick, slaveAddress]

theorem runTurn_aRegaddr (h : s.phase = .aRegaddr) : runTurn (.seq p) s =
    .next { s with tick := 0, phase := .wRa, hist := s.hist ++ [.act (.writeDr s.rega)] } :=
  seqStep_aRegaddr h

theorem runTurn_aWscl (h : s.phase = .aWscl) : runTurn (.seq p) s = .next { s with tick := 0, phase := .wWscl } :=
  seqStep_aWscl h

theorem runTurn_aWdata (h : s.phase = .aWdata) :
    runTurn (.seq p) s = .next { s with tick := 0, idx := 0, phase := .wWtx } :=
  seqStep_aWdata h

theorem runTurn_aRscl (h : s.phase = .aRscl) : runTurn (.seq p) s = .next { s with tick := 0, phase := .wRscl } :=
  seqStep_aRscl h

theorem runTurn_aBscl (h : s.phase = .aBscl) : runTurn (.seq p) s = .next { s with tick := 0, phase := .wBscl } :=
  seqStep_aBscl h

/-- The repeated start emits its three actions and resets no window (41_bus_controller.md R142, R152). -/
theorem emitRepeatedStart_setPhase (ph : Phase) (s : State) : (emitRepeatedStart s).setPhase ph =
    { s with phase := ph, hist := s.hist ++ [.act .clrTxrdy, .act (.setDir 1), .act .genStart] } := by
  simp [emitRepeatedStart, State.emit, State.record, State.setPhase]

theorem runTurn_aRrs (h : s.phase = .aRrs) : runTurn (.seq p) s = .next { s with
    phase := .wRrx, hist := s.hist ++ [.act .clrTxrdy, .act (.setDir 1), .act .genStart] } :=
  (seqStep_aRrs h).trans (congrArg Host.Outcome.next (emitRepeatedStart_setPhase .wRrx s))

theorem runTurn_aBrs (h : s.phase = .aBrs) : runTurn (.seq p) s = .next { s with
    phase := .wBrs, hist := s.hist ++ [.act .clrTxrdy, .act (.setDir 1), .act .genStart] } :=
  (seqStep_aBrs h).trans (congrArg Host.Outcome.next (emitRepeatedStart_setPhase .wBrs s))

/-! ### Waits -/

variable {site : BitVec 4} {f : Flag} {v : Bool} {b : Nat} {k : FailKind}

/-- A wait whose predicate is true. -/
theorem runTurn_wait_true (hr : siteRow s.phase = some ⟨site, f, v, b, k⟩) (ht : waitSuccess p s = some t)
    (hp : pinOf p f = v) : runTurn (.seq p) s = .next t :=
  (seqStep_succeeds hr hp ht).1

/-- A wait whose predicate is false: it spins below the budget, and fails at it. -/
theorem runTurn_wait_false (hr : siteRow s.phase = some ⟨site, f, v, b, k⟩) :
    (pinOf p f = !v → s.tick.toNat < b →
      runTurn (.seq p) s = .next { s with hist := s.hist ++ [.sample f (!v)] }) ∧
    (pinOf p f = !v → b ≤ s.tick.toNat →
      runTurn (.seq p) s = .next (SiteRow.fails ⟨site, f, v, b, k⟩ { s with hist := s.hist ++ [.sample f (!v)] })) := by
  have hsampled (hp : pinOf p f = !v) :
      s.sampled ⟨site, f, v, b, k⟩ p = { s with hist := s.hist ++ [.sample f (!v)] } := by rw [State.sampled, hp]
  have hfalse (hp : pinOf p f = !v) : pinOf p f ≠ v := by simp [hp]
  exact ⟨fun hp ht => hsampled hp ▸ seqStep_spins hr (hfalse hp) ht,
    fun hp ht => hsampled hp ▸ seqStep_fails hr (hfalse hp) ht⟩

end Sys2Proof.Machine

namespace Sys2Proof.Proofs

open Sys2Proof.Machine

/-- Settles O37: the two forms of `Finish` write the result fields and the phase. -/
theorem finishWritesTheResult : Obligations.FinishWritesTheResult := by
  intro s k site
  exact ⟨rfl, rfl⟩

/-- Settles O38: one lemma per action phase. -/
theorem actionPhases : Obligations.ActionPhases := by
  intro s p
  exact ⟨runTurn_aBegin, runTurn_aStart, runTurn_aRegaddr, runTurn_aWscl, runTurn_aWdata, runTurn_aRscl, runTurn_aRrs,
    runTurn_aBscl, runTurn_aBrs⟩

/-- Settles O39: the rows of W_BUSY and W_SB. -/
theorem busBusyAndStartWaits : Obligations.BusBusyAndStartWaits := by
  intro s p
  refine ⟨fun h => ?_, fun h => ?_⟩ <;> have hr := congrArg siteRow h
  · exact ⟨runTurn_wait_true hr (by simp only [waitSuccess, h]), runTurn_wait_false hr⟩
  · exact ⟨runTurn_wait_true hr (by simp only [waitSuccess, h]), runTurn_wait_false hr⟩

/-- Settles O40: the row of W_RA, with the success move of each command. -/
theorem registerAddressWait : Obligations.RegisterAddressWait := by
  intro s p h
  have hr := congrArg siteRow h
  exact ⟨fun hp ho => runTurn_wait_true hr (by simp only [waitSuccess, h, ho]; rfl) hp,
    fun hp ho => runTurn_wait_true hr (by simp only [waitSuccess, h, ho]; rfl) hp,
    fun hp ho => runTurn_wait_true hr (by simp only [waitSuccess, h, ho]; rfl) hp,
    fun hp ho => runTurn_wait_true hr (by simp only [waitSuccess, h, ho]; rfl) hp,
    runTurn_wait_false hr⟩

/-- Settles O41: the rows of W_WSCL, W_WTX and W_WDRAIN. -/
theorem writeWaits : Obligations.WriteWaits := by
  intro s p
  refine ⟨fun h => ?_, fun h => ?_, fun h => ?_⟩ <;> have hr := congrArg siteRow h
  · exact ⟨runTurn_wait_true hr (by simp only [waitSuccess, h]), runTurn_wait_false hr⟩
  · exact ⟨fun hp b hb => runTurn_wait_true hr (by simp only [waitSuccess, h, hb]; rfl) hp, runTurn_wait_false hr⟩
  · exact ⟨runTurn_wait_true hr (by simp only [waitSuccess, h]; rfl), runTurn_wait_false hr⟩

/-- Settles O42: the rows of W_RSCL and W_RRX. -/
theorem readBurstWaits : Obligations.ReadBurstWaits := by
  intro s p
  refine ⟨fun h => ?_, fun h => ?_⟩ <;> have hr := congrArg siteRow h
  · exact ⟨runTurn_wait_true hr (by simp only [waitSuccess, h]), runTurn_wait_false hr⟩
  · exact ⟨runTurn_wait_true hr (by simp only [waitSuccess, h]; rfl), runTurn_wait_false hr⟩

/-- Settles O43: the rows of W_BSCL, W_BRS and W_BRX. -/
theorem readByteWaits : Obligations.ReadByteWaits := by
  intro s p
  refine ⟨fun h => ?_, fun h => ?_, fun h => ?_⟩ <;> have hr := congrArg siteRow h
  · exact ⟨runTurn_wait_true hr (by simp only [waitSuccess, h]), runTurn_wait_false hr⟩
  · exact ⟨runTurn_wait_true hr (by simp only [waitSuccess, h]), runTurn_wait_false hr⟩
  · exact ⟨runTurn_wait_true hr (by simp only [waitSuccess, h]; rfl), runTurn_wait_false hr⟩

end Sys2Proof.Proofs
end

section
/-! SUPPORT. Commands on the ready bus (95_test_vectors.md V-S1, V-WR1, V-WR2, V-RB1, V-RY1): every wait passes at its first step, so a
command runs through its phases with no spin. -/

namespace Sys2Proof.Machine

variable {s t : State} {p : BusPins} {rx : Byte} {opc : BitVec 4} {n : Nat}

/-! ### SEQ steps, one after another -/

theorem runTurns_seqTurns_succ (h : runTurn (.seq p) s = .next t) :
    runTurns (seqTurns (n + 1) p) s = runTurns (seqTurns n p) t :=
  runTurns_cons h

theorem runTurns_seqTurns_add {m : Nat} (h : runTurns (seqTurns m p) s = .next t) :
    runTurns (seqTurns (m + n) p) s = runTurns (seqTurns n p) t := by
  rw [seqTurns, List.replicate_add]
  exact runTurns_append h

/-- The ready bus lets every wait pass. -/
theorem pinOf_readyBus {ph : Phase} {r : SiteRow} (hr : siteRow ph = some r) (rx : Byte) :
    pinOf (readyBus rx) r.flag = r.value := by
  cases ph <;> cases hr <;> rfl

theorem runTurn_readyBus {r : SiteRow} (hr : siteRow s.phase = some r) (ht : waitSuccess (readyBus rx) s = some t) :
    runTurn (.seq (readyBus rx)) s = .next t :=
  runTurn_wait_true hr ht (pinOf_readyBus hr rx)

theorem runTurns_readyBus_succ {r : SiteRow} (hr : siteRow s.phase = some r)
    (ht : waitSuccess (readyBus rx) s = some t) :
    runTurns (seqTurns (n + 1) (readyBus rx)) s = runTurns (seqTurns n (readyBus rx)) t :=
  runTurns_seqTurns_succ (runTurn_readyBus hr ht)

/-! ### The start attempt -/

/-- The state in W_RA, after a start attempt on the ready bus has come that far (41_bus_controller.md R125 to R129). -/
def State.addressed (s : State) : State :=
  { s with
    status := s.status.attempted, tick := 0, phase := .wRa
    hist := s.hist ++ [.sample .bbusy false, .act .clrTxrdy, .act (.setSla s.sla), .act (.setDir 0), .act .genStart,
      .sample .txrdy true, .act (.writeDr s.rega)] }

theorem runTurns_startAttempt (h : s.phase = .aBegin) : runTurns (seqTurns 5 (readyBus rx)) s = .next s.addressed := by
  refine (runTurns_seqTurns_succ (runTurn_aBegin h)).trans ?_
  refine (runTurns_readyBus_succ rfl rfl).trans ?_
  refine (runTurns_seqTurns_succ (runTurn_aStart rfl)).trans ?_
  refine (runTurns_readyBus_succ rfl rfl).trans ?_
  refine (runTurns_seqTurns_succ (runTurn_aRegaddr rfl)).trans ?_
  simp [State.addressed, Status.attempted, seqTurns, runTurns]

/-- From the acceptance of a command that has start attempts, the first five steps are one. -/
theorem runTurns_accepted (ho : opc ≠ opcInit) :
    runTurns (seqTurns (5 + n) (readyBus rx)) (accept opc s) =
      runTurns (seqTurns n (readyBus rx)) (accept opc s).addressed :=
  runTurns_seqTurns_add (runTurns_startAttempt ((accept_phase opc s).trans (if_neg ho)))

/-! ### The data phase of WRITE -/

/-- The state of a WRITE that has sent its first `j` bytes on the ready bus (41_bus_controller.md R134, R135). -/
def State.sending (j : Nat) (s : State) : State :=
  { s with
    idx := j, hist := s.hist ++ dataHistory (s.buf.toList.take j)
    phase := if j < s.len.toNat then .wWtx else .wWdrain }

theorem dataHistory_take_succ {bytes : List Byte} {j : Nat} {b : Byte} (hb : bytes[j]? = some b) :
    dataHistory (bytes.take (j + 1)) = dataHistory (bytes.take j) ++ [.sample .txrdy true, .act (.writeDr b)] := by
  simp [dataHistory, List.take_add_one, hb]

theorem runTurn_sending {j : Nat} (hj : j < s.len.toNat) (hlen : s.len.toNat ≤ 32) :
    runTurn (.seq (readyBus rx)) (s.sending j) = .next (s.sending (j + 1)) := by
  have hphase : (s.sending j).phase = .wWtx := if_pos hj
  have hbyte : s.buf[j]? = some s.buf[j] := dataByte_of_lt (Nat.lt_of_lt_of_le hj hlen)
  refine runTurn_readyBus (congrArg siteRow hphase) ?_
  simp only [waitSuccess, hphase]
  simp [State.sending, hbyte, dataHistory_take_succ, hj]

theorem runTurns_sending (hlen : s.len.toNat ≤ 32) :
    runTurns (seqTurns s.len.toNat (readyBus rx)) (s.sending 0) = .next (s.sending s.len.toNat) := by
  have h := runTurns_rounds (f := (s.sending ·)) s.len.toNat fun j hj =>
    (runTurns_cons (ts := []) (runTurn_sending (rx := rx) hj hlen)).trans rfl
  rwa [rounds, List.flatten_replicate_singleton] at h

theorem sending_zero (hphase : s.phase = .wWtx) (hidx : s.idx = 0) (hlen : 1 ≤ s.len.toNat) : s.sending 0 = s := by
  have hnone : dataHistory [] = [] := rfl
  rw [State.sending, if_pos (Nat.lt_of_succ_le hlen), List.take_zero, hnone, List.append_nil, ← hphase, ← hidx]

/-- The data phase of WRITE on the ready bus: the bytes in order, and then the drain with its stop (41_bus_controller.md R138). -/
theorem runTurns_dataPhase (hphase : s.phase = .wWtx) (hidx : s.idx = 0) (hn : s.len.toNat = n) (hlo : 1 ≤ n)
    (hhi : n ≤ 32) : runTurns (seqTurns (n + 1) (readyBus rx)) s = .next (finishOk { s with
      idx := n, hist := s.hist ++ dataHistory (s.buf.toList.take n) ++ [.sample .txrdy true, .act .genStop] }) := by
  subst hn
  have hsent := runTurns_sending (rx := rx) hhi
  rw [sending_zero hphase hidx hlo] at hsent
  have hdrain : (s.sending s.len.toNat).phase = .wWdrain := if_neg (Nat.lt_irrefl _)
  refine (runTurns_seqTurns_add hsent).trans (runTurns_readyBus_succ (n := 0) (congrArg siteRow hdrain) ?_)
  simp only [waitSuccess, hdrain]
  rfl

/-! ### Acceptance -/

theorem exec_readBurst_idle (ign : BitVec 28) (hb : s.status.busy = false) :
    exec (.readBurst ign) s = .next (accept opcReadBurst s) :=
  congrArg Host.Outcome.next (requestUnlessBusy_idle opcReadBurst hb)

theorem exec_start_idle (ign : BitVec 28) (hb : s.status.busy = false) :
    exec (.start ign) s = .next (accept opcStart s) :=
  congrArg Host.Outcome.next (requestUnlessBusy_idle opcStart hb)

theorem exec_init_idle (ign : BitVec 28) (hb : s.status.busy = false) : exec (.init ign) s = .next (accept opcInit s) :=
  congrArg Host.Outcome.next (requestUnlessBusy_idle opcInit hb)

end Sys2Proof.Machine

namespace Sys2Proof.Proofs

open Sys2Proof.Machine

/-- Settles O27: INIT has one phase, which no pin touches. -/
theorem initRuns : Obligations.InitRuns := by
  refine ⟨fun ign => decode_cmdWord 0x1#4 ign, fun s ign p hb => ?_⟩
  exact ⟨accept opcInit s, exec_init_idle ign hb, rfl, rfl, rfl, rfl⟩

/-- Settles O28: the start attempt, and W_RA ends START. -/
theorem startRunsOnReadyBus : Obligations.StartRunsOnReadyBus := by
  intro s ign rx hb
  refine ⟨accept opcStart s, exec_start_idle ign hb, rfl, ?_⟩
  refine (runTurns_accepted (n := 1) (by decide)).trans ?_
  refine (runTurns_readyBus_succ rfl rfl).trans ?_
  simp [runTurns, seqTurns, State.addressed, accept, startHistory, Status.succeededOnFirstAttempt, opcStart]

/-- Settles O29: the start attempt, the clock settled, the repeated start, and one byte received. -/
theorem readBurstRunsOnReadyBus : Obligations.ReadBurstRunsOnReadyBus := by
  intro s ign rx hb
  refine ⟨accept opcReadBurst s, exec_readBurst_idle ign hb, rfl, ?_⟩
  refine (runTurns_accepted (n := 5) (by decide)).trans ?_
  refine (runTurns_readyBus_succ rfl rfl).trans ?_
  refine (runTurns_seqTurns_succ (runTurn_aRscl rfl)).trans ?_
  refine (runTurns_readyBus_succ rfl rfl).trans ?_
  refine (runTurns_seqTurns_succ (runTurn_aRrs rfl)).trans ?_
  refine (runTurns_readyBus_succ rfl rfl).trans ?_
  simp [runTurns, seqTurns, State.addressed, accept, startHistory, repeatedStartHistory, Status.succeededOnFirstAttempt,
    readyBus, opcReadBurst]

/-- Settles O30: as READ_BURST, and NACK with stop once the repeated start is cleared. -/
theorem readByteRunsOnReadyBus : Obligations.ReadByteRunsOnReadyBus := by
  intro s ign rx hb
  refine ⟨accept opcReadByte s, exec_readByte_idle ign hb, rfl, ?_⟩
  refine (runTurns_accepted (n := 6) (by decide)).trans ?_
  refine (runTurns_readyBus_succ rfl rfl).trans ?_
  refine (runTurns_seqTurns_succ (runTurn_aBscl rfl)).trans ?_
  refine (runTurns_readyBus_succ rfl rfl).trans ?_
  refine (runTurns_seqTurns_succ (runTurn_aBrs rfl)).trans ?_
  refine (runTurns_readyBus_succ rfl rfl).trans ?_
  refine (runTurns_readyBus_succ rfl rfl).trans ?_
  simp [runTurns, seqTurns, State.addressed, accept, startHistory, repeatedStartHistory, Status.succeededOnFirstAttempt,
    readyBus, opcReadByte]

/-- Settles O31: the start attempt, the clock settled, and the data phase, by induction on the bytes. -/
theorem writeSendsBufferInOrderThenStops : Obligations.WriteSendsBufferInOrderThenStops := by
  intro s ign rx hb hlo hhi
  refine ⟨accept opcWrite s, exec_write_idle ign hb ((lengthAllowed_iff s).2 ⟨hlo, hhi⟩), rfl, ?_⟩
  have hsteps : 10 + s.len.toNat = 5 + (s.len.toNat + 1 + 4) := by omega
  rw [hsteps]
  refine (runTurns_accepted (by decide)).trans ?_
  refine (runTurns_readyBus_succ rfl rfl).trans ?_
  refine (runTurns_seqTurns_succ (runTurn_aWscl rfl)).trans ?_
  refine (runTurns_readyBus_succ rfl rfl).trans ?_
  refine (runTurns_seqTurns_succ (runTurn_aWdata rfl)).trans ?_
  refine (runTurns_dataPhase rfl rfl (by rfl) hlo hhi).trans ?_
  simp [finishOk, State.setStatus, State.setPhase, State.addressed, accept, startHistory, Status.finishedOk,
    Status.succeededOnFirstAttempt, opcWrite]

end Sys2Proof.Proofs
end

section
/-! SUPPORT. SEQ and TB as wholes: what is enabled changes the state (41_bus_controller.md R120, 40_timebase.md R102), and the two
steps that ask for a stop (41_bus_controller.md R136, R153). -/

namespace Sys2Proof.Machine

variable {s t : State} {p : BusPins} {new : List BusEvent}

/-! ### An enabled agent changes the state -/

theorem ne_of_phase {a : Phase} (h : s.phase = a) (ht : t.phase ≠ a) : t ≠ s :=
  fun e => ht (e ▸ h)

theorem ne_of_hist (h : t.hist ≠ s.hist) : t ≠ s :=
  fun e => h (e ▸ rfl)

/-- Every move outside IDLE changes the phase, the history or the count of the delay. -/
theorem SeqMove.ne (m : SeqMove p s t) (hs : s.phase ≠ .idle) : t ≠ s := by
  cases m with
  | idle h => exact absurd h hs
  | aInit h | aBegin h | aStart h | aRegaddr h | aDelayEnds h | aWscl h | aWdata h | aRscl h | aRrs h | aBscl h | aBrs h
  | busFree h | started h | startDoneStart h | startDoneWrite h | startDoneBurst h | startDoneByte h | writeSettled h
  | drained h | burstSettled h | byteSettled h | repeatedStartCleared h => exact ne_of_phase h nofun
  | received h => exact h.elim (ne_of_phase · nofun) (ne_of_phase · nofun)
  | aDelayCounts h hd => exact fun e => absurd (congrArg State.dly e) (by dsimp only; omega)
  | attemptFails r hr => exact ne_of_phase rfl (attemptFail_leaves hr _ _ _)
  | commandFails r hr => exact fun e => ne_idle_of_siteRow hr (congrArg State.phase e).symm
  | spins | byteSent => exact ne_of_hist (by simp)

theorem tbStep_ne (h : s.tickPend = true) : tbStep s ≠ s := by
  intro e
  rw [tbStep_pending h] at e
  have hpend : false = s.tickPend := congrArg State.tickPend e
  rw [h] at hpend
  cases hpend

/-! ### Stops -/

theorem eq_of_hist {old : List BusEvent} (hold : t.hist = s.hist ++ old) (h : t.hist = s.hist ++ new) : new = old :=
  List.append_cancel_left (h.symm.trans hold)

/-- A wait whose predicate is false is not the drain with TXRDY = 1. -/
theorem not_drained_of_predicate_false {r : SiteRow} (hr : siteRow s.phase = some r) (hp : pinOf p r.flag ≠ r.value) :
    ¬(s.phase = .wWdrain ∧ p.txrdy = true) := by
  rintro ⟨h, htx⟩
  rw [h] at hr
  cases hr
  exact hp htx

/-- A wait whose predicate is false is not the cleared repeated start. -/
theorem not_cleared_of_predicate_false {r : SiteRow} (hr : siteRow s.phase = some r) (hp : pinOf p r.flag ≠ r.value) :
    ¬(s.phase = .wBrs ∧ p.startPend = false) := by
  rintro ⟨h, hpend⟩
  rw [h] at hr
  cases hr
  exact hp hpend

/-- A SEQ step asks for a stop in the drain of WRITE, and for NACK with stop in the repeated start of READ_BYTE, and nowhere else. -/
theorem SeqMove.stop_iff (m : SeqMove p s t) (h : t.hist = s.hist ++ new) :
    (.act .genStop ∈ new ↔ s.phase = .wWdrain ∧ p.txrdy = true) ∧
    (.act .genNackStop ∈ new ↔ s.phase = .wBrs ∧ p.startPend = false) := by
  cases m with
  | idle hph | aBegin hph | aDelayCounts hph | aDelayEnds hph | aWscl hph | aWdata hph | aRscl hph | aBscl hph =>
    obtain rfl : new = [] := eq_of_hist (List.append_nil _).symm h
    simp [hph]
  | spins r hr hp | commandFails r hr hp =>
    obtain rfl : new = [.sample r.flag (pinOf p r.flag)] := eq_of_hist rfl h
    simp [not_drained_of_predicate_false hr hp, not_cleared_of_predicate_false hr hp]
  | attemptFails r hr hp =>
    obtain rfl : new = [.sample r.flag (pinOf p r.flag)] := eq_of_hist (attemptFail_keeps ..).hist h
    simp [not_drained_of_predicate_false hr hp, not_cleared_of_predicate_false hr hp]
  | received hph =>
    obtain rfl := eq_of_hist rfl h
    rcases hph with hph | hph <;> simp [hph]
  | aInit hph | aStart hph | aRegaddr hph | aRrs hph | aBrs hph | busFree hph | started hph | startDoneStart hph
  | startDoneWrite hph | startDoneBurst hph | startDoneByte hph | writeSettled hph | byteSent _ hph | burstSettled hph
  | byteSettled hph =>
    obtain rfl := eq_of_hist rfl h
    simp [hph]
  | drained hph hp | repeatedStartCleared hph hp =>
    obtain rfl := eq_of_hist rfl h
    simp [hph, hp]

end Sys2Proof.Machine

namespace Sys2Proof.Proofs

open Sys2Proof.Machine

/-- Settles O46: each move of the transition table but the one of IDLE leaves another state, and a counted tick clears its
request. -/
theorem agentsStepExactlyWhenEnabled : Obligations.AgentsStepExactlyWhenEnabled :=
  ⟨fun _ _ h => seqStep_idle h, fun _ _ _ h hs => (seqStep_move h).ne hs,
    fun _ h => congrArg Host.Outcome.next (tbStep_not_pending h), fun s h => ⟨tbStep s, rfl, tbStep_ne h⟩⟩

/-- Settles O50: the moves that ask for a stop are one each, and their phases belong to one command each. -/
theorem stopsOnlyWhereTheSpecPutsThem : Obligations.StopsOnlyWhereTheSpecPutsThem := by
  intro s t p new g h hnew
  obtain ⟨hstop, hnack⟩ := (seqStep_move h).stop_iff hnew
  refine ⟨hstop, hnack, fun hmem => ?_, fun hmem => ?_⟩
  · obtain ⟨hph, -⟩ := hstop.1 hmem
    exact eq_of_beq (g.fits hph).1
  · obtain ⟨hph, -⟩ := hnack.1 hmem
    exact eq_of_beq (g.fits hph).1

end Sys2Proof.Proofs
end

section
/-! SUPPORT. Start attempts that fail (42_transaction_retry.md R170 to R174): where a failed attempt leads, and the delay between two
attempts of READ_BYTE. -/

namespace Sys2Proof.Machine

variable {s t : State} {p : BusPins} {n : Nat}

/-! ### A failed attempt -/

/-- A bare START makes one attempt, and the other commands make no sixth. -/
theorem attemptFail_finishes (k : FailKind) (site : BitVec 4) (h : s.opc = opcStart ∨ 5 ≤ s.status.attempts.toNat) :
    attemptFail k site s = finishFail k site s := by
  rcases attemptFail_cases k site s with ⟨-, e⟩ | ⟨hlt, ho, -⟩ | ⟨hlt, hstart, -⟩
  · exact e
  · rw [ho] at h
    exact absurd (h.resolve_left (by decide)) (Nat.not_le_of_lt hlt)
  · exact absurd (h.resolve_left hstart) (Nat.not_le_of_lt hlt)

theorem attemptFail_delays (k : FailKind) (site : BitVec 4) (hlt : s.status.attempts.toNat < 5) (ho : s.opc = opcReadByte) :
    attemptFail k site s = { s with dly := Config.retryDelay, phase := .aDelay } := by
  rcases attemptFail_cases k site s with ⟨h, -⟩ | ⟨-, -, e⟩ | ⟨-, -, hne, -⟩
  · rw [ho] at h
    exact absurd (h.resolve_left (by decide)) (Nat.not_le_of_lt hlt)
  · exact e
  · exact absurd ho hne

theorem attemptFail_begins (k : FailKind) (site : BitVec 4) (hlt : s.status.attempts.toNat < 5) (hstart : s.opc ≠ opcStart)
    (hbyte : s.opc ≠ opcReadByte) : attemptFail k site s = { s with phase := .aBegin } := by
  rcases attemptFail_cases k site s with ⟨h, -⟩ | ⟨-, ho, -⟩ | ⟨-, -, -, e⟩
  · exact absurd (h.resolve_left hstart) (Nat.not_le_of_lt hlt)
  · exact absurd ho hbyte
  · exact e

/-- A command other than START that a failed attempt ends has made five attempts (42_transaction_retry.md R171). -/
theorem attempts_of_attemptFail_idle {k : FailKind} {site : BitVec 4} (hle : s.status.attempts.toNat ≤ 5)
    (hstart : s.opc ≠ opcStart) (hidle : (attemptFail k site s).phase = .idle) : s.status.attempts = 5 := by
  rcases attemptFail_cases k site s with ⟨h, -⟩ | ⟨-, -, e⟩ | ⟨-, -, -, e⟩
  · exact BitVec.eq_of_toNat_eq (Nat.le_antisymm hle (h.resolve_left hstart))
  · rw [e] at hidle
    cases hidle
  · rw [e] at hidle
    cases hidle

/-- Of the moves that end a command with a failure, the ones at the sites of a start attempt are failed attempts. -/
theorem SeqMove.attempts_of_startFailure (m : SeqMove p s t) (g : Inv s) (hs : s.phase ≠ .idle) (hidle : t.phase = .idle)
    (hok : t.status.ok = false) (hstart : s.opc ≠ opcStart) (hsite : t.status.failsite ≤ 3) : t.status.attempts = 5 := by
  cases m with
  | attemptFails r =>
    rw [(attemptFail_keeps ..).attempts]
    exact attempts_of_attemptFail_idle (attempts_le_of_attemptsOfPhase g.attemptsFit) hstart hidle
  | commandFails r _ _ _ hlate => exact absurd hsite hlate
  | aInit | startDoneStart | drained | received => cases hok
  | idle | spins | aDelayCounts => exact absurd hidle hs
  | byteSent =>
    dsimp only at hidle
    split at hidle <;> cases hidle
  | aBegin | aStart | aRegaddr | aDelayEnds | aWscl | aWdata | aRscl | aRrs | aBscl | aBrs | busFree | started
  | startDoneWrite | startDoneBurst | startDoneByte | writeSettled | burstSettled | byteSettled | repeatedStartCleared =>
    cases hidle

/-! ### The delay -/

theorem runTurn_aDelay_counts (h : s.phase = .aDelay) (hd : 1 < s.dly) :
    runTurn (.seq p) s = .next { s with dly := s.dly - 1 } :=
  (seqStep_aDelay h).trans (if_pos hd)

theorem runTurn_aDelay_ends (h : s.phase = .aDelay) (hd : s.dly ≤ 1) :
    runTurn (.seq p) s = .next { s with dly := 0, phase := .aBegin } :=
  (seqStep_aDelay h).trans (if_neg (Nat.not_lt_of_le hd))

theorem runTurns_delay_counts (h : s.phase = .aDelay) (hn : n < s.dly) :
    runTurns (seqTurns n p) s = .next { s with dly := s.dly - n } := by
  induction n generalizing s with
  | zero => rfl
  | succ n ih =>
    have hrest : n < s.dly - 1 := by omega
    rw [runTurns_seqTurns_succ (runTurn_aDelay_counts h (by omega)), ih (s := { s with dly := s.dly - 1 }) h hrest]
    simp only [Nat.sub_sub, Nat.add_comm]

theorem runTurns_delay_ends (h : s.phase = .aDelay) (hd : 1 ≤ s.dly) :
    runTurns (seqTurns s.dly p) s = .next { s with dly := 0, phase := .aBegin } := by
  have hcounts : runTurns (seqTurns (s.dly - 1) p) s = .next { s with dly := s.dly - (s.dly - 1) } :=
    runTurns_delay_counts h (by omega)
  have hlast := runTurn_aDelay_ends (p := p) (s := { s with dly := s.dly - (s.dly - 1) }) h (by dsimp only; omega)
  rw [show seqTurns s.dly p = seqTurns (s.dly - 1 + 1) p by rw [Nat.sub_add_cancel hd], runTurns_seqTurns_add hcounts]
  exact runTurns_cons hlast

end Sys2Proof.Machine

namespace Sys2Proof.Proofs

open Sys2Proof.Machine

/-- Settles O44: one lemma for each way a failed attempt can lead. -/
theorem attemptFailRetriesOrFinishes : Obligations.AttemptFailRetriesOrFinishes := by
  intro s k site
  exact ⟨fun ho => attemptFail_finishes k site (.inl ho), fun _ hlt ho => attemptFail_delays k site hlt ho,
    fun hstart hlt hbyte => attemptFail_begins k site hlt hstart hbyte, fun _ h => attemptFail_finishes k site (.inr h)⟩

/-- Settles O45, by induction on the steps: each but the last takes one from the count. -/
theorem delayTakesItsSteps : Obligations.DelayTakesItsSteps := by
  refine ⟨Nat.le_add_left .., fun s p h => ?_⟩
  exact ⟨fun n hn => runTurns_delay_counts h hn, runTurns_delay_ends h, runTurn_aDelay_ends h⟩

/-- Settles O52: the move is a failed attempt, and one that ends the command is the fifth. -/
theorem retriedCommandFailsAfterFiveAttempts : Obligations.RetriedCommandFailsAfterFiveAttempts := by
  intro s t p g h hs hidle hok hstart hsite
  have hle : t.status.failsite ≤ 3 := by
    simp only [List.mem_cons, List.not_mem_nil, or_false] at hsite
    rcases hsite with e | e | e <;> rw [e] <;> decide
  exact (seqStep_move h).attempts_of_startFailure g hs hidle hok hstart hle

end Sys2Proof.Proofs
end

section
/-! SUPPORT. The measure of a running command (42_transaction_retry.md R175, R176): every SEQ step that is not a spin lowers it, and
under the regular schedule a wait takes at most 101 rounds: 100 to its budget, and one more where the first tick wraps TICK. -/

namespace Sys2Proof.Machine

variable {s t : State} {p : BusPins}

/-! ### The measure, by phase -/

/-- The measure in A_BEGIN, `n` attempts made. -/
def attemptRank (n : Nat) : Nat := 38 + (5 - n) * (Config.retryDelay + 6)

theorem attemptRank_succ {n : Nat} (h : n < 5) : attemptRank n = attemptRank (n + 1) + (Config.retryDelay + 6) := by
  have hleft : 5 - n = 5 - (n + 1) + 1 := by omega
  rw [attemptRank, attemptRank, hleft, Nat.succ_mul, Nat.add_assoc]

theorem rank_aBegin (h : s.phase = .aBegin) : rank s = attemptRank s.status.attempts.toNat := by
  rw [rank, h]
  rfl

theorem rank_aDelay (h : s.phase = .aDelay) : rank s = attemptRank s.status.attempts.toNat + s.dly := by
  rw [rank, h]
  rfl

/-- In a wait of a start attempt a whole delay is still counted, and the next attempt with it. -/
theorem attemptRank_lt_rank (h : s.phase = .wBusy ∨ s.phase = .wSb ∨ s.phase = .wRa) :
    attemptRank s.status.attempts.toNat + Config.retryDelay < rank s := by
  rcases h with h | h | h <;> simp only [rank, h, attemptRank] <;> omega

/-- The measure of a running command is not 0. -/
theorem rank_pos (hs : s.phase ≠ .idle) : 0 < rank s := by
  cases h : s.phase with
  | idle => exact absurd h hs
  | _ => simp only [rank, h]; omega

/-! ### A SEQ step -/

/-- Where an attempt begins, one is left. -/
theorem Inv.attemptLeft (g : Inv s) (h : s.phase = .aBegin) : s.status.attempts.toNat < 5 := by
  obtain ⟨-, hatt⟩ := g.fits h
  by_cases ho : s.opc = opcStart
  · rw [attemptsOfPhase, if_pos ho, beq_iff_eq] at hatt
    omega
  · exact (attemptsOfPhase_aBegin ho).1 hatt

/-- A failed attempt ends the command, or leads to less than its waits count. -/
theorem attemptFail_rank_lt {k : FailKind} {site : BitVec 4} (h : s.phase = .wBusy ∨ s.phase = .wSb ∨ s.phase = .wRa) :
    rank (attemptFail k site s) < rank s := by
  have hwait := attemptRank_lt_rank h
  rcases attemptFail_cases k site s with ⟨-, e⟩ | ⟨-, -, e⟩ | ⟨-, -, -, e⟩ <;> rw [e]
  · exact Nat.zero_lt_of_lt hwait
  · rw [rank_aDelay rfl]
    exact hwait
  · rw [rank_aBegin rfl]
    exact Nat.lt_of_le_of_lt (Nat.le_add_right ..) hwait

/-- A wait at which the predicate is false below the budget (40_timebase.md R107): its SEQ step is a spin. -/
def Spins (p : BusPins) (s : State) (r : SiteRow) : Prop :=
  siteRow s.phase = some r ∧ pinOf p r.flag ≠ r.value ∧ s.tick.toNat < r.budget

/-- Every move outside IDLE is a spin or lowers the measure. -/
theorem SeqMove.spins_or_rank_lt (m : SeqMove p s t) (g : Inv s) (hs : s.phase ≠ .idle) :
    (∃ r, Spins p s r ∧ t = s.sampled r p) ∨ rank t < rank s := by
  cases m with
  | idle h => exact absurd h hs
  | spins r hr hp ht => exact .inl ⟨r, ⟨hr, hp, ht⟩, rfl⟩
  | aInit | commandFails | startDoneStart | drained | received => exact .inr (rank_pos hs)
  | attemptFails r hr hp ht hsite => exact .inr (attemptFail_rank_lt (s := s.sampled r p) (startWait_of_site_le hr hsite))
  | aBegin h =>
    have hlt := g.attemptLeft h
    have hone : (s.status.attempts + 1).toNat = s.status.attempts.toNat + 1 :=
      BitVec.toNat_add_of_lt (show s.status.attempts.toNat + 1 < 8 by omega)
    refine .inr ?_
    rw [rank_aBegin h, attemptRank_succ hlt, ← hone]
    exact Nat.lt_succ_self _
  | aDelayCounts h hd =>
    refine .inr ?_
    rw [rank_aDelay h, rank_aDelay (by exact h)]
    dsimp only
    omega
  | aDelayEnds h =>
    obtain ⟨hpos, -⟩ := g.delayRuns h
    refine .inr ?_
    rw [rank_aDelay h, rank_aBegin rfl]
    dsimp only
    omega
  | byteSent b h =>
    obtain ⟨-, hlen⟩ := g.lengthOfWrite h
    have hi : s.idx < lengthOf s := g.indexBelowLength h
    refine .inr ?_
    split <;> simp only [rank, h] <;> omega
  | startDoneWrite h | startDoneBurst h | startDoneByte h =>
    have hwait := attemptRank_lt_rank (.inr (.inr h))
    refine .inr (Nat.lt_of_le_of_lt ?_ hwait)
    simp only [rank, attemptRank]
    omega
  | aStart h | aRegaddr h | aWscl h | aWdata h | aRscl h | aRrs h | aBscl h | aBrs h | busFree h | started h
  | writeSettled h | burstSettled h | byteSettled h | repeatedStartCleared h =>
    refine .inr ?_
    simp only [rank, h]
    omega

/-- In a state that meets the invariant SEQ completes its step. -/
theorem Inv.seqStep_next (g : Inv s) (p : BusPins) : ∃ t, seqStep p s = .next t :=
  seqStep_completes fun _ hr _ => g.waitSuccess_exists hr p

/-! ### The regular schedule -/

/-- How many rounds of the regular schedule a command can still take: 101 for each unit of the measure, less the ticks that the
wait will have counted at its next poll. -/
def roundsLeft (s : State) : Nat := 101 * rank s - min 100 (s.tick + 1).toNat

/-- A round of the regular schedule is a SEQ step after one tick. -/
theorem runTurns_pollRound (h : runTurn (.seq p) (s.ticked 1) = .next t) : runTurns (pollRound p) s = .next t := by
  have htick : runTurns [.timer, .tb] s = .next (s.ticked 1) := runTurns_ticks 1 s
  have hpoll : runTurns [.seq p] (s.ticked 1) = .next t := runTurns_cons h
  exact (runTurns_append htick).trans hpoll

/-- A round in which SEQ spins counts one tick, below the budget and so without a wrap at the next. -/
theorem roundsLeft_sampled_lt {r : SiteRow} (hs : s.phase ≠ .idle) (hspin : Spins p (s.ticked 1) r) :
    roundsLeft ((s.ticked 1).sampled r p) < roundsLeft s := by
  obtain ⟨hr, -, htick⟩ := hspin
  have hbudget := budget_le hr
  have hpos := rank_pos hs
  have hlt : (s.tick + 1).toNat < r.budget := htick
  have hnext : (s.tick + 1 + 1).toNat = (s.tick + 1).toNat + 1 :=
    BitVec.toNat_add_of_lt (show (s.tick + 1).toNat + 1 < 65536 by omega)
  change 101 * rank s - min 100 (s.tick + 1 + 1).toNat < 101 * rank s - min 100 (s.tick + 1).toNat
  omega

theorem roundsLeft_lt_of_rank_lt (h : rank t < rank s) : roundsLeft t < roundsLeft s := by
  rw [roundsLeft, roundsLeft]
  omega

/-- A round of a running command completes, keeps the invariant and leaves fewer rounds. -/
theorem Inv.pollRound_lowers (g : Inv s) (hs : s.phase ≠ .idle) (p : BusPins) :
    ∃ t, runTurns (pollRound p) s = .next t ∧ Inv t ∧ roundsLeft t < roundsLeft s := by
  have hticked : Inv (s.ticked 1) := g.congr
  obtain ⟨t, h⟩ := hticked.seqStep_next p
  have m := seqStep_move h
  refine ⟨t, runTurns_pollRound h, m.inv hticked, ?_⟩
  rcases m.spins_or_rank_lt hticked hs with ⟨r, hspin, rfl⟩ | hlt
  · exact roundsLeft_sampled_lt hs hspin
  · exact roundsLeft_lt_of_rank_lt hlt

/-- A command ends within the rounds that are left. -/
theorem Inv.pollRounds_end (ps : List BusPins) (g : Inv s) (hn : roundsLeft s ≤ ps.length) :
    ∃ k t, k ≤ ps.length ∧ runTurns (pollRounds (ps.take k)) s = .next t ∧ t.phase = .idle ∧ Inv t := by
  induction ps generalizing s with
  | nil =>
    by_cases hs : s.phase = .idle
    · exact ⟨0, s, Nat.le_refl _, rfl, hs, g⟩
    · have hpos := rank_pos hs
      rw [roundsLeft, List.length_nil] at hn
      omega
  | cons p ps ih =>
    by_cases hs : s.phase = .idle
    · exact ⟨0, s, Nat.zero_le _, rfl, hs, g⟩
    · obtain ⟨u, hu, gu, hlt⟩ := g.pollRound_lowers hs p
      obtain ⟨k, t, hk, ht, hidle, gt⟩ := ih gu (Nat.le_of_lt_succ (Nat.lt_of_lt_of_le hlt hn))
      exact ⟨k + 1, t, Nat.succ_le_succ hk, (runTurns_append hu).trans ht, hidle, gt⟩

end Sys2Proof.Machine

namespace Sys2Proof.Proofs

open Sys2Proof.Machine

/-- Settles O57: a SEQ step is a move of the transition table, and each move outside IDLE spins or lowers the measure. -/
theorem seqStepSpinsOrLowersMeasure : Obligations.SeqStepSpinsOrLowersMeasure := by
  intro s t p g hs h
  rcases (seqStep_move h).spins_or_rank_lt g hs with ⟨r, ⟨hr, hp, ht⟩, e⟩ | hlt
  · exact .inl ⟨r, hr, hp, ht, e⟩
  · exact .inr hlt

/-- Settles O58, by induction on the rounds: each leaves fewer, by a lower measure or by a tick counted below the budget. -/
theorem commandEndsWithinItsBound : Obligations.CommandEndsWithinItsBound := by
  intro s ps g hlen
  have hleft : roundsLeft s ≤ ps.length := by
    rw [hlen, roundsLeft]
    exact Nat.sub_le ..
  obtain ⟨k, t, hk, ht, hidle, gt⟩ := g.pollRounds_end ps hleft
  exact ⟨k, t, hk, ht, hidle, gt.phase_eq_idle_iff.1 hidle⟩

end Sys2Proof.Proofs
end

section
/-! SUPPORT. Fair executions (40_timebase.md R108 to R110, 42_transaction_retry.md R176). The measure cannot fall for ever, so a command
ends or stays in one wait; there every value of the counter comes by again and again, the last one included, and R108
and R109 both exclude that (log 8). -/

namespace Sys2Proof.Machine

variable {s t : State} {x : Turn} {σ : Nat → State} {τ : Nat → Turn} {n m : Nat} {r : SiteRow}

/-! ### A turn of a running command -/

theorem exists_of_isSeq (h : isSeq x = true) : ∃ p, x = .seq p := by
  cases x with
  | seq p => exact ⟨p, rfl⟩
  | host | timer | tb | reset => cases h

/-- A turn of another agent leaves the count of the delay. -/
theorem otherTurn_dly (hb : s.status.busy = true) (hr : x ≠ .reset) (hq : isSeq x = false) (h : runTurn x s = .next t) :
    t.dly = s.dly := by
  cases x with
  | seq => cases hq
  | reset => exact absurd rfl hr
  | timer => exact Host.Outcome.next.inj h ▸ rfl
  | tb =>
    obtain rfl : tbStep s = t := Host.Outcome.next.inj h
    cases hp : s.tickPend with
    | true => rw [tbStep_pending hp]; rfl
    | false => rw [tbStep_not_pending hp]
  | host a =>
    cases exec_move (hostStep_next h) with
    | accepts _ _ _ hidle => rw [hb] at hidle; cases hidle
    | _ => rfl

theorem KeepsCommand.rank_eq (k : KeepsCommand s t) (hd : t.dly = s.dly) : rank t = rank s := by
  obtain ⟨-, hphase, -, hattempts, -, hidx, -⟩ := k
  rw [rank, rank, hphase, hattempts, hidx, hd]

theorem otherTurn_rank_eq (hb : s.status.busy = true) (hr : x ≠ .reset) (hq : isSeq x = false)
    (h : runTurn x s = .next t) : rank t = rank s ∧ t.phase = s.phase := by
  have hd := otherTurn_dly hb hr hq h
  rcases otherTurn_cases hb hr hq h with ⟨-, k⟩ | ⟨-, k⟩
  · exact ⟨k.rank_eq hd, k.phase⟩
  · exact ⟨k.rank_eq hd, k.phase⟩

/-- A turn of a running command lowers the measure, or leaves it and the phase; a SEQ step is then a spin. -/
theorem turn_rank_cases (g : Inv s) (hs : s.phase ≠ .idle) (hr : x ≠ .reset) (h : runTurn x s = .next t) :
    rank t < rank s ∨ (rank t = rank s ∧ t.phase = s.phase ∧ ∀ p, x = .seq p → ∃ r, Spins p s r) := by
  cases hq : isSeq x with
  | true =>
    obtain ⟨p, rfl⟩ := exists_of_isSeq hq
    rcases (seqStep_move h).spins_or_rank_lt g hs with ⟨r, hspin, rfl⟩ | hlt
    · exact .inr ⟨rfl, rfl, fun p' e => ⟨r, Turn.seq.inj e ▸ hspin⟩⟩
    · exact .inl hlt
  | false =>
    obtain ⟨hrank, hphase⟩ := otherTurn_rank_eq (g.busyNamesPhase.2 hs) hr hq h
    exact .inr ⟨hrank, hphase, fun p e => by rw [e] at hq; cases hq⟩

/-- A pending tick request stays until TB counts it, or reset. -/
theorem tickPend_of_not_tb (hp : s.tickPend = true) (hr : x ≠ .reset) (htb : x ≠ .tb) (h : runTurn x s = .next t) :
    t.tickPend = true := by
  cases x with
  | host a => rw [(exec_move (hostStep_next h)).tickPend_eq, hp]
  | seq p => rw [(seqStep_move h).keeps.tickPend, hp]
  | timer => exact Host.Outcome.next.inj h ▸ rfl
  | tb => exact absurd rfl htb
  | reset => exact absurd rfl hr

/-! ### Executions -/

/-- An execution from a state that meets the invariant, fair as R110 says. -/
structure FairRun (σ : Nat → State) (τ : Nat → Turn) : Prop where
  run : IsRun σ τ
  inv : ∀ n, Inv (σ n)
  timer : TimerKeepsFiring τ
  tb : TbFair σ τ
  seq : SeqFair σ τ

theorem IsRun.inv (h : IsRun σ τ) (g : Inv (σ 0)) (n : Nat) : Inv (σ n) := by
  induction n with
  | zero => exact g
  | succ n ih => exact runTurn_inv ih (h n)

/-- A reset leads to IDLE. -/
theorem IsRun.ne_reset (h : IsRun σ τ) (hrun : (σ (m + 1)).phase ≠ .idle) : τ m ≠ .reset := by
  intro e
  have hm := h m
  rw [e] at hm
  exact hrun (Host.Outcome.next.inj hm ▸ rfl)

/-- From `n` on the execution stands in the wait of row `r`, and every poll finds the predicate false below the budget. -/
structure StaysWaiting (σ : Nat → State) (τ : Nat → Turn) (n : Nat) (r : SiteRow) : Prop where
  row : siteRow (σ n).phase = some r
  phase : ∀ m, n ≤ m → (σ m).phase = (σ n).phase
  polls : ∀ m, n ≤ m → ∀ p, τ m = .seq p → pinOf p r.flag ≠ r.value ∧ (σ m).tick.toNat < r.budget

/-- After every point a sequence of numbers takes a least value. -/
theorem exists_least_after (f : Nat → Nat) (n : Nat) : ∃ k, n ≤ k ∧ ∀ m, n ≤ m → f k ≤ f m := by
  have hne : (Set.Ici n).Nonempty := ⟨n, Nat.le_refl n⟩
  exact ⟨Function.argminOn f (Set.Ici n) hne, Function.argminOn_mem f (Set.Ici n) hne,
    fun m hm => Function.argminOn_le f (Set.Ici n) hm⟩

/-- Where the measure has come to its least value, it and the phase stay. -/
theorem FairRun.rank_stays (f : FairRun σ τ) (hrun : ∀ m, n ≤ m → (σ m).phase ≠ .idle)
    (hleast : ∀ m, n ≤ m → rank (σ n) ≤ rank (σ m)) (m : Nat) (hm : n ≤ m) :
    rank (σ m) = rank (σ n) ∧ (σ m).phase = (σ n).phase := by
  induction m, hm using Nat.le_induction with
  | base => exact ⟨rfl, rfl⟩
  | succ m hm ih =>
    obtain ⟨hrank, hphase⟩ := ih
    have hr := f.run.ne_reset (hrun (m + 1) (Nat.le_succ_of_le hm))
    rcases turn_rank_cases (f.inv m) (hrun m hm) hr (f.run m) with hlt | ⟨hrank', hphase', -⟩
    · exact absurd (hleast (m + 1) (Nat.le_succ_of_le hm)) (Nat.not_le_of_lt (hrank ▸ hlt))
    · exact ⟨hrank'.trans hrank, hphase'.trans hphase⟩

/-- There every SEQ step is a spin, so the command stays in a wait. -/
theorem FairRun.staysWaiting_of_least (f : FairRun σ τ) (hrun : ∀ m, n ≤ m → (σ m).phase ≠ .idle)
    (hleast : ∀ m, n ≤ m → rank (σ n) ≤ rank (σ m)) : ∃ r, StaysWaiting σ τ n r := by
  have hstays := f.rank_stays hrun hleast
  have hspins (m : Nat) (hm : n ≤ m) (p : BusPins) (hp : τ m = .seq p) : ∃ r, Spins p (σ m) r := by
    have hr := f.run.ne_reset (hrun (m + 1) (Nat.le_succ_of_le hm))
    rcases turn_rank_cases (f.inv m) (hrun m hm) hr (f.run m) with hlt | ⟨-, -, hspin⟩
    · rw [(hstays m hm).1, (hstays (m + 1) (Nat.le_succ_of_le hm)).1] at hlt
      exact absurd hlt (Nat.lt_irrefl _)
    · exact hspin p hp
  obtain ⟨k, hk, p, hp⟩ := f.seq n (hrun n (Nat.le_refl n))
  obtain ⟨r, hr, -⟩ := hspins k hk p hp
  have hrow : siteRow (σ n).phase = some r := (hstays k hk).2 ▸ hr
  refine ⟨r, hrow, fun m hm => (hstays m hm).2, fun m hm q hq => ?_⟩
  obtain ⟨r', hr', hpin, htick⟩ := hspins m hm q hq
  rw [(hstays m hm).2, hrow] at hr'
  cases hr'
  exact ⟨hpin, htick⟩

/-- A command ends, or stays in one wait. -/
theorem FairRun.ends_or_staysWaiting (f : FairRun σ τ) :
    (∀ n, ∃ m, n ≤ m ∧ (σ m).phase = .idle) ∨ ∃ n r, StaysWaiting σ τ n r := by
  refine or_iff_not_imp_left.2 fun h => ?_
  push Not at h
  obtain ⟨n, hrun⟩ := h
  obtain ⟨k, hk, hleast⟩ := exists_least_after (fun m => rank (σ m)) n
  exact ⟨k, f.staysWaiting_of_least (fun m hm => hrun m (Nat.le_trans hk hm)) fun m hm => hleast m (Nat.le_trans hk hm)⟩

/-! ### The counter in a wait that does not end -/

theorem StaysWaiting.running (w : StaysWaiting σ τ n r) (hm : n ≤ m) : (σ m).phase ≠ .idle := by
  rw [w.phase m hm]
  exact ne_idle_of_siteRow w.row

theorem StaysWaiting.waits (w : StaysWaiting σ τ n r) (hm : n ≤ m) : waits (σ m).phase = true := by
  rw [Machine.waits, w.phase m hm, w.row]
  rfl

theorem StaysWaiting.ne_reset (w : StaysWaiting σ τ n r) (f : FairRun σ τ) (hm : n ≤ m) : τ m ≠ .reset :=
  f.run.ne_reset (w.running (Nat.le_succ_of_le hm))

/-- In a wait only a counted tick changes TICK, by one. -/
theorem StaysWaiting.tick_succ (w : StaysWaiting σ τ n r) (f : FairRun σ τ) (hm : n ≤ m) :
    (σ (m + 1)).tick = if tickAck (τ m) (σ m) then (σ m).tick + 1 else (σ m).tick := by
  cases hq : isSeq (τ m) with
  | true =>
    obtain ⟨p, hp⟩ := exists_of_isSeq hq
    have hstep := f.run m
    rw [hp] at hstep ⊢
    exact seqStep_tick (by rw [w.phase m hm, w.row]) hstep
  | false =>
    have hb := (f.inv m).busyNamesPhase.2 (w.running hm)
    rcases otherTurn_cases hb (w.ne_reset f hm) hq (f.run m) with ⟨ha, k⟩ | ⟨ha, k⟩ <;> rw [ha]
    · exact k.tick
    · exact k.tick

/-- While no tick is counted a pending request stays. -/
theorem StaysWaiting.tickPend_stays (w : StaysWaiting σ τ n r) (f : FairRun σ τ) (hm : n ≤ m)
    (hnone : ∀ k, m ≤ k → tickAck (τ k) (σ k) ≠ true) (hp : (σ m).tickPend = true) (k : Nat) (hk : m ≤ k) :
    (σ k).tickPend = true := by
  induction k, hk using Nat.le_induction with
  | base => exact hp
  | succ k hk ih =>
    have htb : τ k ≠ .tb := fun e => hnone k hk (by rw [tickAck, e, ih]; rfl)
    exact tickPend_of_not_tb ih (w.ne_reset f (Nat.le_trans hm hk)) htb (f.run k)

/-- Ticks are counted again and again: TIMER raises a request, and TB comes to it. -/
theorem StaysWaiting.exists_tickAck (w : StaysWaiting σ τ n r) (f : FairRun σ τ) (hm : n ≤ m) :
    ∃ k, m ≤ k ∧ tickAck (τ k) (σ k) = true := by
  by_contra hnone
  push Not at hnone
  obtain ⟨a, ha, htimer⟩ := f.timer m
  have hraised : (σ (a + 1)).tickPend = true := by
    have hstep := f.run a
    rw [htimer] at hstep
    exact Host.Outcome.next.inj hstep ▸ rfl
  obtain ⟨b, hb, htb⟩ := f.tb (a + 1) hraised
  have hpending : (σ b).tickPend = true :=
    w.tickPend_stays f (Nat.le_trans hm (Nat.le_succ_of_le ha)) (fun k hk => hnone k (by omega)) hraised b hb
  exact hnone b (by omega) (by rw [tickAck, htb, hpending]; rfl)

/-- Up to the next counted tick TICK stays. -/
theorem StaysWaiting.next_tickAck (w : StaysWaiting σ τ n r) (f : FairRun σ τ) (hm : n ≤ m) :
    ∃ k, m ≤ k ∧ tickAck (τ k) (σ k) = true ∧ ∀ i, m ≤ i → i ≤ k → (σ i).tick = (σ m).tick := by
  obtain ⟨k, hk, ha⟩ := w.exists_tickAck f hm
  obtain ⟨d, rfl⟩ := Nat.exists_eq_add_of_le hk
  clear hk
  induction d generalizing m with
  | zero => exact ⟨m, Nat.le_refl m, ha, fun i hlo hhi => by rw [Nat.le_antisymm hhi hlo]⟩
  | succ d ih =>
    cases hnow : tickAck (τ m) (σ m) with
    | true => exact ⟨m, Nat.le_refl m, hnow, fun i hlo hhi => by rw [Nat.le_antisymm hhi hlo]⟩
    | false =>
      have htick : (σ (m + 1)).tick = (σ m).tick := by rw [w.tick_succ f hm, hnow]; rfl
      obtain ⟨k, hk, hack, hsame⟩ := ih (Nat.le_succ_of_le hm) (by rwa [Nat.succ_add_eq_add_succ])
      refine ⟨k, Nat.le_of_succ_le hk, hack, fun i hlo hhi => ?_⟩
      rcases Nat.eq_or_lt_of_le hlo with rfl | hlt
      · rfl
      · exact (hsame i hlt hhi).trans htick

/-- The counter goes on from each tick to the next. -/
theorem StaysWaiting.counts (w : StaysWaiting σ τ n r) (f : FairRun σ τ) (hm : n ≤ m) (d : Nat) :
    ∃ k, m ≤ k ∧ tickAck (τ k) (σ k) = true ∧ (σ k).tick = (σ m).tick + BitVec.ofNat 16 d := by
  induction d with
  | zero =>
    obtain ⟨k, hk, ha, hsame⟩ := w.next_tickAck f hm
    exact ⟨k, hk, ha, (hsame k hk (Nat.le_refl k)).trans (BitVec.add_zero _).symm⟩
  | succ d ih =>
    obtain ⟨k, hk, ha, htick⟩ := ih
    obtain ⟨k', hk', ha', hsame⟩ := w.next_tickAck f (Nat.le_succ_of_le (Nat.le_trans hm hk))
    refine ⟨k', by omega, ha', ?_⟩
    rw [hsame k' hk' (Nat.le_refl k'), w.tick_succ f (Nat.le_trans hm hk), ha, if_pos rfl, htick, BitVec.ofNat_add,
      BitVec.add_assoc]
    rfl

/-- Every value of the counter comes by again and again. -/
theorem StaysWaiting.counts_from (w : StaysWaiting σ τ n r) (f : FairRun σ τ) (hm : n ≤ m) (v : BitVec 16) :
    ∃ k, m ≤ k ∧ tickAck (τ k) (σ k) = true ∧ (σ k).tick = v := by
  obtain ⟨k, hk, ha, htick⟩ := w.counts f hm (v - (σ m).tick).toNat
  refine ⟨k, hk, ha, htick.trans ?_⟩
  rw [BitVec.ofNat_toNat, BitVec.setWidth_eq, BitVec.add_comm, BitVec.sub_add_cancel]

/-! ### The wrap -/

theorem StaysWaiting.wrapsForEver (w : StaysWaiting σ τ n r) (f : FairRun σ τ) : WrapsForEver σ τ := by
  refine ⟨n, r, w.row, fun m hm => ⟨w.phase m hm, w.polls m hm, ?_⟩⟩
  obtain ⟨k, hk, ha, htick⟩ := w.counts_from f hm 65535
  exact ⟨k, hk, ha, by rw [htick]; rfl⟩

/-- R108 excludes such a wait: it sees the wrap. -/
theorem StaysWaiting.not_noWaitSeesAWrap (w : StaysWaiting σ τ n r) (f : FairRun σ τ) : ¬ NoWaitSeesAWrap σ τ := by
  intro h
  obtain ⟨k, hk, ha, htick⟩ := w.counts_from f (Nat.le_refl n) 65535
  exact h k ha (w.waits hk) (by rw [htick]; rfl)

/-- R109 excludes it: between the tick that takes the counter to its last value and the next there is a poll, and it is at or
after every budget. -/
theorem StaysWaiting.not_pollFasterThanTick (w : StaysWaiting σ τ n r) (f : FairRun σ τ) : ¬ PollFasterThanTick σ τ := by
  intro h
  obtain ⟨a, ha, hack, htick⟩ := w.counts_from f (Nat.le_refl n) 65534
  have hlast : (σ (a + 1)).tick = 65535 := by rw [w.tick_succ f ha, hack, htick]; rfl
  obtain ⟨b, hb, hack', hsame⟩ := w.next_tickAck f (Nat.le_succ_of_le ha)
  obtain ⟨k, hak, hkb, p, hp⟩ := h a b hb hack hack' fun k hk _ => w.waits (Nat.le_trans ha (Nat.le_of_lt hk))
  obtain ⟨-, hlt⟩ := w.polls k (Nat.le_trans ha (Nat.le_of_lt hak)) p hp
  rw [hsame k hak (Nat.le_of_lt hkb), hlast] at hlt
  exact absurd (Nat.lt_of_lt_of_le hlt (budget_le w.row)) (by decide)

end Sys2Proof.Machine

namespace Sys2Proof.Proofs

open Sys2Proof.Machine

/-- Settles O59: a fair execution ends its commands or stays in one wait, and there the counter wraps again and again, which R108
and R109 exclude. -/
theorem everyRunningCommandEnds : Obligations.EveryRunningCommandEnds := by
  intro σ τ hrun g htimer htb hseq
  have f : FairRun σ τ := ⟨hrun, hrun.inv g, htimer, htb, hseq⟩
  rcases f.ends_or_staysWaiting with hends | ⟨n, r, w⟩
  · exact ⟨fun _ => hends, .inl hends⟩
  · refine ⟨fun h => ?_, .inr (w.wrapsForEver f)⟩
    exact absurd h (not_or.2 ⟨w.not_pollFasterThanTick f, w.not_noWaitSeesAWrap f⟩)

end Sys2Proof.Proofs
end

section
/-! SUPPORT. The host accesses that complete (43_host_access.md R192, R193): an encoded form decodes to a refused row exactly at an
offset that is not word aligned, and every other row completes. -/

namespace Sys2Proof

variable {off : Byte}

/-! ### Decoding to a refused row -/

/-- An offset is word aligned unless one of the two refused rows matches it (30_encoding.md R72). -/
theorem offset_aligned_iff : off.extractLsb' 0 2 = 0#2 ↔ off.extractLsb' 0 1 ≠ 1#1 ∧ off.extractLsb' 0 2 ≠ 2#2 := by
  revert off
  decide

/-- The offset of a refused row; the other rows have none. -/
def refusedOffset : Instr → Option Byte
  | .hostfaultOffOdd _ off | .hostfaultOff2 _ off => some off
  | _ => none

theorem refusedOffset_decodeCmd (w : Word) : refusedOffset (decodeCmd w) = none := by
  unfold decodeCmd
  dsimp only
  split_ifs <;> rfl

theorem refusedOffset_decodeLowRead (off : Byte) : refusedOffset (decodeLowRead off) = none := by
  unfold decodeLowRead
  split_ifs <;> rfl

theorem refusedOffset_decodeLowWrite (off : Byte) (w : Word) : refusedOffset (decodeLowWrite off w) = none := by
  unfold decodeLowWrite
  split_ifs <;> rfl

/-- A HOP, a write where it has a data word and else a read, decodes to a refused row exactly at an unaligned offset. -/
theorem refusedOffset_decode_hop (data : Option Word) (off : Byte) :
    refusedOffset (decode (hopRefused data off)) = if off.extractLsb' 0 2 = 0#2 then none else some off := by
  by_cases halign : off.extractLsb' 0 2 = 0#2
  · obtain ⟨hodd, htwo⟩ := offset_aligned_iff.1 halign
    rw [if_pos halign]
    cases data with
    | none =>
      rw [hopRefused, hopRead, decode_read, if_neg hodd, if_neg htwo]
      split
      · rfl
      · exact refusedOffset_decodeLowRead off
    | some w =>
      rw [hopRefused, hopWrite, decode_write, if_neg hodd, if_neg htwo]
      split
      · rfl
      · exact refusedOffset_decodeLowWrite off w
  · rw [if_neg halign]
    by_cases hodd : off.extractLsb' 0 1 = 1#1
    · rw [decode_hopRefused_odd data hodd]
      rfl
    · have htwo : off.extractLsb' 0 2 = 2#2 := by_contra fun h => halign (offset_aligned_iff.2 ⟨hodd, h⟩)
      rw [decode_hopRefused_two data htwo]
      rfl

/-- The refused accesses are those at an offset that is not word aligned (43_host_access.md R192). -/
theorem refusedOffset_decode (h : HostWord) :
    refusedOffset (decode h) =
      if (Machine.hostOff h).extractLsb' 0 2 = 0#2 then none else some (Machine.hostOff h) := by
  cases h with
  | cmd w => exact refusedOffset_decodeCmd w
  | hop h w =>
    obtain ⟨off, rfl | rfl⟩ := hop_cases h <;> rw [Machine.hostOff, extract_hop_off]
    · rw [decode_hop_read]
      exact refusedOffset_decode_hop none off
    · exact refusedOffset_decode_hop (some w) off

end Sys2Proof

namespace Sys2Proof.Machine

variable {i : Instr} {a : HostAccess} {s : State} {off : Byte}

/-! ### Executing it -/

theorem exec_of_refusedOffset (h : refusedOffset i = some off) : exec i s = .fault (.hostFault off 4) := by
  cases i with
  | hostfaultOffOdd | hostfaultOff2 => exact Option.some.inj h ▸ rfl
  | _ => cases h

/-- Every row that is not refused completes in every state (43_host_access.md R193). -/
theorem exec_completes (h : refusedOffset i = none) (s : State) : ∃ t, exec i s = .next t := by
  cases i with
  | hostfaultOffOdd | hostfaultOff2 => cases h
  | _ => exact ⟨_, rfl⟩

/-- An access of another width is refused before it is decoded (43_host_access.md R192). -/
theorem runTurn_host_of_width_ne (h : a.width ≠ 4) : runTurn (.host a) s = .fault (.hostFault (hostOff a.word) a.width) :=
  if_neg h

theorem runTurn_host_of_width (h : a.width = 4) : runTurn (.host a) s = exec (decode a.word) s :=
  if_pos h

end Sys2Proof.Machine

namespace Sys2Proof.Proofs

open Sys2Proof.Machine

/-- Settles O11: the width is tested first, and a 4-byte access decodes to a refused row exactly at an unaligned offset. -/
theorem hostStepFaultsExactlyWhenUndefined : Obligations.HostStepFaultsExactlyWhenUndefined := by
  intro a s
  have hrefused := refusedOffset_decode a.word
  refine ⟨fun h => ?_, fun hw halign => ?_⟩
  · by_cases hw : a.width = 4
    · rw [if_neg (h.resolve_left (not_not_intro hw))] at hrefused
      rw [runTurn_host_of_width hw, exec_of_refusedOffset hrefused, hw]
    · exact runTurn_host_of_width_ne hw
  · rw [if_pos halign] at hrefused
    rw [runTurn_host_of_width hw]
    exact exec_completes hrefused s

/-- Settles O12: both rows are refused at their own offset. -/
theorem refusedRowsFault : Obligations.RefusedRowsFault := by
  intro s data off
  exact ⟨exec_of_refusedOffset rfl, exec_of_refusedOffset rfl⟩

end Sys2Proof.Proofs
end

section
/-! SUPPORT. Reads of the register window (43_host_access.md R190, 20_memory.md R51, R52): a word-aligned read decodes to the row
of its offset, and that row answers the word of the window there. -/

namespace Sys2Proof

variable {i : Instr} {off : Byte}

theorem decode_wellFormed (h : HostWord) : WellFormed (decode h) = true := by
  obtain ⟨i, hwf, hdecode, -⟩ := exists_encode h
  rw [hdecode, decode_encode hwf]
  exact hwf

/-- A read decodes to the row that the read of its offset encodes, whatever its data word. -/
theorem decode_read_of_encode (hwf : WellFormed i = true) (he : encode i = hopRead off) (w : Word) :
    decode (.hop (0#1 ++ off) w) = i := by
  rw [decode_hop_read, ← he, decode_encode hwf]

/-- A word-aligned read decodes to the row that reads its offset (30_encoding.md R72). -/
theorem readOffset_decode_read (halign : off.extractLsb' 0 2 = 0#2) (w : Word) :
    Machine.readOffset (decode (.hop (0#1 ++ off) w)) = some off := by
  obtain ⟨hodd, htwo⟩ := offset_aligned_iff.1 halign
  rw [decode_hop_read]
  rcases offset_cases off with rfl | rfl | rfl | rfl | rfl | rfl | h | h | h | h | h | h
  · rfl
  · rfl
  · rfl
  · rfl
  · rfl
  · rfl
  · rw [h, (decode_buf _ 0).1]
    rfl
  · rw [(decode_rsvd18 h 0).1]
    rfl
  · rw [(decode_rsvd20 h 0).1]
    rfl
  · rw [(decode_rsvd40 h 0).1]
    rfl
  · exact absurd h hodd
  · exact absurd h htwo

end Sys2Proof

namespace Sys2Proof.Machine

variable {i : Instr} {s : State} {off : Byte}

/-- Between the registers and BUF the word number is none of a register's (20_memory.md R51, R52). -/
theorem wordNumber_of_reserved (hlo : 0x18#8 ≤ off) (hhi : off ≤ 0x7C#8) :
    off.extractLsb' 7 1 ≠ 1#1 ∧ off.extractLsb' 2 5 ≠ 0 ∧ off.extractLsb' 2 5 ≠ 1 ∧ off.extractLsb' 2 5 ≠ 2 ∧
    off.extractLsb' 2 5 ≠ 3 ∧ off.extractLsb' 2 5 ≠ 4 ∧ off.extractLsb' 2 5 ≠ 5 := by
  revert off
  decide

theorem windowWord_reserved (hlo : 0x18#8 ≤ off) (hhi : off ≤ 0x7C#8) : windowWord s off = 0 := by
  obtain ⟨hbuf, hcmd, hstatus, hsla, hrega, hlen, htick⟩ := wordNumber_of_reserved hlo hhi
  rw [windowWord, if_neg hbuf]
  dsimp only
  rw [if_neg hcmd, if_neg hstatus, if_neg hsla, if_neg hrega, if_neg hlen, if_neg htick]

theorem windowWord_buf (k : BitVec 5) : windowWord s (1#1 ++ k ++ 0#2) = bufWord s k := by
  obtain ⟨-, -, hbuf, hk⟩ := bufOffset_fields k
  rw [windowWord, if_pos hbuf, hk]

/-- A read row answers the word of the window at its offset and changes nothing else (43_host_access.md R190). -/
theorem exec_read (hwf : WellFormed i = true) (h : readOffset i = some off) :
    exec i s = .next (s.setRdata (windowWord s off)) := by
  have hreserved (hlo : 0x18#8 ≤ off) (hhi : off ≤ 0x7C#8) :
      Host.Outcome.next (s.setRdata 0) = (.next (s.setRdata (windowWord s off)) : Result) := by
    rw [windowWord_reserved hlo hhi]
  cases i with
  | rdCmd | rdStatus | rdSla | rdRega | rdLen | rdTick => exact Option.some.inj h ▸ rfl
  | rdBuf k =>
    rw [← Option.some.inj h, windowWord_buf]
    rfl
  | rdRsvd18 o =>
    cases h
    obtain ⟨hlo, hhi, -⟩ := (offsetIn_iff _ _ _).1 hwf
    exact hreserved hlo (BitVec.le_trans hhi (by decide))
  | rdRsvd20 o =>
    cases h
    obtain ⟨hlo, hhi, -⟩ := (offsetIn_iff _ _ _).1 hwf
    exact hreserved (BitVec.le_trans (by decide) hlo) (BitVec.le_trans hhi (by decide))
  | rdRsvd40 o =>
    cases h
    obtain ⟨hlo, hhi, -⟩ := (offsetIn_iff _ _ _).1 hwf
    exact hreserved (BitVec.le_trans (by decide) hlo) hhi
  | _ => cases h

/-! ### The STATUS word -/

/-- The fields of STATUS stand in their places, with zeros between (10_state.md R23): what stands above a field is dropped, and
what stands below it is shifted out. -/
theorem Status.word_fields (st : Status) :
    st.word.extractLsb' 0 1 = BitVec.ofBool st.busy ∧ st.word.extractLsb' 1 1 = BitVec.ofBool st.done ∧
    st.word.extractLsb' 2 1 = BitVec.ofBool st.ok ∧ st.word.extractLsb' 3 1 = BitVec.ofBool st.cmderr ∧
    st.word.extractLsb' 4 1 = BitVec.ofBool st.init ∧ st.word.extractLsb' 5 3 = 0 ∧
    st.word.extractLsb' 8 3 = st.failkind ∧ st.word.extractLsb' 11 1 = 0 ∧
    st.word.extractLsb' 12 4 = st.failsite ∧ st.word.extractLsb' 16 3 = st.attempts ∧ st.word.extractLsb' 19 1 = 0 ∧
    st.word.extractLsb' 20 2 = st.cerr ∧ st.word.extractLsb' 22 10 = 0 := by
  unfold Status.word
  refine ⟨?_, ?_, ?_, ?_, ?_, ?_, ?_, ?_, ?_, ?_, ?_, ?_, ?top⟩
  case top =>
    repeat rw [BitVec.extractLsb'_append_eq_of_le (by decide)]
    exact BitVec.extractLsb'_eq_self
  all_goals
    repeat rw [BitVec.extractLsb'_append_eq_of_le (by decide)]
    rw [BitVec.extractLsb'_append_eq_of_add_le (by decide)]
    exact BitVec.extractLsb'_eq_self

end Sys2Proof.Machine

namespace Sys2Proof.Proofs

open Sys2Proof.Machine

/-- Settles O21: the access decodes to the row that reads its offset. -/
theorem readsReturnTheWindow : Obligations.ReadsReturnTheWindow := by
  intro s off w halign
  exact exec_read (decode_wellFormed _) (readOffset_decode_read halign w)

/-- Settles O14: the word read is the STATUS word, field by field. -/
theorem statusReadsItsFields : Obligations.StatusReadsItsFields := by
  refine ⟨fun w => ⟨?_, ?_⟩, fun s w => ⟨rfl, s.status.word, rfl, s.status.word_fields⟩⟩
  · exact decode_read_of_encode (i := .rdStatus) (off := 0x04) rfl rfl w
  · exact decode_encode (i := .wrStatus w) rfl

end Sys2Proof.Proofs
end

section
/-! SUPPORT. A write to CMD (43_host_access.md R196 to R198): it is rejected with its cause or accepted, it alone sets CMD.OPC, and
while a command runs it is all that a host operation can do to STATUS. -/

namespace Sys2Proof.Machine

variable {i : Instr} {s t : State} {x : Turn} {opc : BitVec 4}

/-! ### Rejection and acceptance -/

/-- The opcodes of the commands are those between INIT and READ_BYTE (30_encoding.md R71). -/
theorem mem_commandOpcodes_iff (opc : BitVec 4) :
    opc ∈ [0x1#4, 0x2#4, 0x3#4, 0x4#4, 0x5#4] ↔ ¬(opc < opcInit ∨ opcReadByte < opc) := by
  revert opc
  decide

theorem requestCommand_busy (hb : s.status.busy = true) : requestCommand opc s = reject .busy s :=
  if_pos hb

theorem requestCommand_lengthOutOfRange (hb : s.status.busy = false) (hw : opc = opcWrite) (hl : lengthAllowed s = false) :
    requestCommand opc s = reject .lengthOutOfRange s := by
  rw [requestCommand, hb, hw, hl]
  rfl

theorem requestCommand_accepted (hb : s.status.busy = false) (hr : ¬(opc < opcInit ∨ opcReadByte < opc))
    (hl : opc = opcWrite → lengthAllowed s = true) : requestCommand opc s = accept opc s := by
  rcases requestCommand_cases opc s with ⟨hbusy, -⟩ | ⟨-, hr', -⟩ | ⟨-, hw, hl', -⟩ | ⟨-, -, -, e⟩
  · cases hb.symm.trans hbusy
  · exact absurd hr' hr
  · cases (hl hw).symm.trans hl'
  · exact e

/-- CMDERR tells whether a write to CMD was rejected, and so whether it set CMD.OPC (43_host_access.md R197, R198). -/
theorem requestCommand_opc (opc : BitVec 4) (s : State) :
    ((requestCommand opc s).status.cmderr = false → (requestCommand opc s).opc = opc) ∧
    ((requestCommand opc s).status.cmderr = true → (requestCommand opc s).opc = s.opc) := by
  rcases requestCommand_cases opc s with ⟨-, e⟩ | ⟨-, -, e⟩ | ⟨-, -, -, e⟩ | ⟨-, -, -, e⟩ <;> rw [e]
  · exact ⟨nofun, fun _ => rfl⟩
  · exact ⟨nofun, fun _ => rfl⟩
  · exact ⟨nofun, fun _ => rfl⟩
  · exact ⟨fun _ => rfl, nofun⟩

/-! ### No other turn changes CMD.OPC -/

theorem HostMove.opc_eq (m : HostMove i s t) (h : 0x00#8 ∉ mayWrite i) : t.opc = s.opc := by
  cases m with
  | accepts opc hcmd => exact absurd hcmd h
  | _ => rfl

theorem tbStep_opc (s : State) : (tbStep s).opc = s.opc := by
  cases h : s.tickPend with
  | true => rw [tbStep_pending h]; rfl
  | false => rw [tbStep_not_pending h]

theorem runTurn_opc_eq (h : runTurn x s = .next t) (hr : x ≠ .reset)
    (hhost : ∀ a, x = .host a → 0x00 ∉ mayWrite (decode a.word)) : t.opc = s.opc := by
  cases x with
  | host a => exact (exec_move (hostStep_next h)).opc_eq (hhost a rfl)
  | seq p => exact (seqStep_move h).keeps.opc
  | timer => exact Host.Outcome.next.inj h ▸ rfl
  | tb => exact Host.Outcome.next.inj h ▸ tbStep_opc s
  | reset => exact absurd rfl hr

/-! ### While a command runs -/

/-- Every row that may write STATUS is a write to CMD, and the busy cause is tested first (43_host_access.md R197). -/
theorem exec_writesStatus_busy (hw : 0x04#8 ∈ mayWrite i) (hb : s.status.busy = true) :
    exec i s = .next (reject .busy s) := by
  cases i with
  | init | start | write | readBurst | readByte | cmdRsvd0 | cmdRsvd67 | cmdRsvd8F | wrCmd =>
    exact congrArg Host.Outcome.next (if_pos hb)
  | wrBuf k w =>
    have hne : ∀ j : BitVec 5, 0x04#8 ∉ [(1#1 ++ j ++ 0#2 : Byte)] := by decide
    exact absurd hw (hne k)
  | _ => simp [mayWrite] at hw

/-- While a command runs a host operation can do no more than answer a read or reject a write to CMD. -/
theorem HostMove.busy_cases (m : HostMove i s t) (hb : s.status.busy = true) :
    t = s ∨ (∃ w, t = s.setRdata w) ∨ (0x04#8 ∈ mayWrite i ∧ ∃ c, t = reject c s) := by
  cases m with
  | unchanged => exact .inl rfl
  | reads off w => exact .inr (.inl ⟨w, rfl⟩)
  | rejects c hw => exact .inr (.inr ⟨hw, c, rfl⟩)
  | accepts _ _ _ hidle | setsSla _ _ hidle | setsRega _ _ hidle | setsLen _ _ hidle | setsTick _ _ hidle
  | setsBuf _ _ _ hidle => cases hidle.symm.trans hb

end Sys2Proof.Machine

namespace Sys2Proof.Proofs

open Sys2Proof.Machine

/-- Settles O24: the tests of a write to CMD in their order. -/
theorem wrCmdRejectsOrAccepts : Obligations.WrCmdRejectsOrAccepts := by
  intro s w
  obtain ⟨opc, ign, rfl⟩ := exists_eq_cmdWord w
  rw [extract_cmd_opc, exec_wrCmd_cmdWord, mem_commandOpcodes_iff, not_not]
  refine ⟨fun hb => ?_, fun hb hr => ?_, fun hb hw hl => ?_, fun hb hr hl => ?_⟩
  · rw [requestCommand_busy hb]
    rfl
  · rw [requestCommand_reserved hr, requestReserved_idle hb]
  · rw [← lengthAllowed_iff, Bool.not_eq_true] at hl
    rw [requestCommand_lengthOutOfRange hb hw hl]
    rfl
  · rw [requestCommand_accepted hb hr fun hw => (lengthAllowed_iff s).2 (hl hw)]
    rfl

/-- Settles O13: a write to CMD sets the opcode it accepts, and no other move of an agent writes it. -/
theorem cmdReadsBackOpcode : Obligations.CmdReadsBackOpcode := by
  refine ⟨decode_read_of_encode (i := .rdCmd) (off := 0x00) rfl rfl, fun _ => rfl, fun s t w h => ?_,
    fun _ _ _ => runTurn_opc_eq, rfl⟩
  obtain ⟨opc, ign, rfl⟩ := exists_eq_cmdWord w
  rw [exec_wrCmd_cmdWord] at h
  rw [extract_cmd_opc, ← Host.Outcome.next.inj h]
  exact requestCommand_opc opc s

/-- Settles O23: a write to CMD is rejected with cause 1, a read answers its word, and nothing else happens. -/
theorem hostLeavesRunningCommandAlone : Obligations.HostLeavesRunningCommandAlone := by
  refine ⟨fun i s t hb h => ?_, fun s off w => ⟨rfl, exec_wrRsvd off w s⟩⟩
  have m := exec_move h
  refine ⟨?_, fun hw => ?_, fun hw => ?_, m.hRdata_eq, fun hwf off hread => ?_⟩
  · rcases m.busy_cases hb with rfl | ⟨w, rfl⟩ | ⟨-, c, rfl⟩
    · rfl
    · rfl
    · rfl
  · cases (exec_writesStatus_busy hw hb).symm.trans h
    exact ⟨rfl, rfl⟩
  · rcases m.busy_cases hb with rfl | ⟨w, rfl⟩ | ⟨hw', -⟩
    · rfl
    · rfl
    · exact absurd hw' hw
  · cases (exec_read hwf hread).symm.trans h
    rfl

end Sys2Proof.Proofs
end

section
/-! SUPPORT. The descriptor registers and the buffer (43_host_access.md R195, R202 to R205): what a write stores, and when. -/

namespace Sys2Proof

/-- The offset of BUF[i] as a number, read and written (20_memory.md R51). -/
theorem bufHop_eq_append (k : BitVec 5) :
    0x080#9 + 4#9 * k.setWidth 9 = (0#1 ++ (1#1 ++ k ++ 0#2 : Byte) : BitVec 9) ∧
    0x180#9 + 4#9 * k.setWidth 9 = (1#1 ++ (1#1 ++ k ++ 0#2 : Byte) : BitVec 9) := by
  revert k
  decide

end Sys2Proof

namespace Sys2Proof.Machine

variable {s : State} {p : BusPins}

/-- The busy-write rule as the answer of a host step (43_host_access.md R195). -/
theorem next_whileIdle (s : State) (f : State → State) :
    (s.status.busy = false → (.next (whileIdle s f) : Result) = .next (f s)) ∧
    (s.status.busy = true → (.next (whileIdle s f) : Result) = .next s) :=
  ⟨fun hb => congrArg Host.Outcome.next (whileIdle_idle hb), fun hb => congrArg Host.Outcome.next (whileIdle_busy hb)⟩

theorem exec_wrLen (w : Word) (s : State) :
    (s.status.busy = false → exec (.wrLen w) s = .next (s.setLen (w.extractLsb' 0 8))) ∧
    (s.status.busy = true → exec (.wrLen w) s = .next s) :=
  next_whileIdle s _

theorem runTurn_wrLen (w : Word) (s : State) : runTurn (lineTurn (.wr .len w)) s = exec (.wrLen w) s := rfl

theorem runTurn_cmd_write (s : State) : runTurn (lineTurn (.cmd .write)) s = exec (.wrCmd (cmdWord opcWrite 0)) s := rfl

/-- The example of 43_host_access.md R204: with the length 64 a WRITE is rejected. -/
theorem runTurns_wrLen_write (hb : s.status.busy = false) :
    runTurns [lineTurn (.wr .len 0x40), lineTurn (.cmd .write)] s =
      .next (reject .lengthOutOfRange (s.setLen 0x40)) := by
  have hlen : runTurn (lineTurn (.wr .len 0x40)) s = .next (s.setLen 0x40) := (exec_wrLen 0x40 s).1 hb
  have hwrite : runTurn (lineTurn (.cmd .write)) (s.setLen 0x40) = .next (reject .lengthOutOfRange (s.setLen 0x40)) := by
    rw [runTurn_cmd_write, exec_wrCmd_cmdWord, requestCommand_lengthOutOfRange (s := s.setLen 0x40) hb rfl rfl]
  rw [runTurns_cons hlen, runTurns_cons hwrite]
  rfl

/-- The receive waits with a byte ready (41_bus_controller.md R143, R154): it goes to BUF[0], and no other byte changes. -/
theorem runTurn_received (h : s.phase = .wRrx ∨ s.phase = .wBrx) (hp : p.rxrdy = true) :
    ∃ t, runTurn (.seq p) s = .next t ∧ t.buf = s.buf.set 0 p.rxdata := by
  rcases h with h | h <;>
    exact ⟨_, runTurn_wait_true (congrArg siteRow h) (by simp only [waitSuccess, h]; rfl) hp, rfl⟩

end Sys2Proof.Machine

namespace Sys2Proof.Proofs

open Sys2Proof.Machine

/-- Settles O15: the read answers the register, and the write is under the busy-write rule. -/
theorem slaAccess : Obligations.SlaAccess := by
  refine ⟨fun w => ⟨?_, ?_⟩, fun s w => ⟨rfl, next_whileIdle s _⟩⟩
  · exact decode_read_of_encode (i := .rdSla) (off := 0x08) rfl rfl w
  · exact decode_encode (i := .wrSla w) rfl

/-- Settles O16: the read answers the register, and the write is under the busy-write rule. -/
theorem regaAccess : Obligations.RegaAccess := by
  refine ⟨fun w => ⟨?_, ?_⟩, fun s w => ⟨rfl, next_whileIdle s _⟩⟩
  · exact decode_read_of_encode (i := .rdRega) (off := 0x0C) rfl rfl w
  · exact decode_encode (i := .wrRega w) rfl

/-- Settles O17: the write stores any length, and only the WRITE after it tests it. -/
theorem lenAccess : Obligations.LenAccess := by
  refine ⟨fun w => ⟨?_, ?_⟩, fun s w => ?_⟩
  · exact decode_read_of_encode (i := .rdLen) (off := 0x10) rfl rfl w
  · exact decode_encode (i := .wrLen w) rfl
  · obtain ⟨hidle, hbusy⟩ := exec_wrLen w s
    exact ⟨rfl, hidle, hbusy, runTurns_wrLen_write⟩

/-- Settles O19: the HOP of each index decodes to its row, the write is under the busy-write rule, and SEQ stores what it
receives in BUF[0]. -/
theorem bufAccess : Obligations.BufAccess := by
  refine ⟨fun i w => ?_, fun s i w => ⟨rfl, next_whileIdle s _⟩, fun s p => runTurn_received⟩
  obtain ⟨hread, hwrite⟩ := bufHop_eq_append i
  rw [hread, hwrite, decode_hop_read]
  exact decode_buf i w

end Sys2Proof.Proofs
end

section
/-! SUPPORT. How a step can stop or end a command without success (60_exceptions.md R233, R234, R237): the move that records a
failure, and the two answers that are not a next state. -/

namespace Sys2Proof.Machine

variable {s t : State} {p : BusPins} {e : Refusal}

/-! ### The move that fails a command -/

/-- A failed attempt that makes no other attempt ends the command (42_transaction_retry.md R170). -/
theorem attemptFail_of_idle {k : FailKind} {site : BitVec 4} (hidle : (attemptFail k site s).phase = .idle) :
    attemptFail k site s = finishFail k site s := by
  rcases attemptFail_cases k site s with ⟨-, h⟩ | ⟨-, -, h⟩ | ⟨-, -, -, h⟩
  · exact h
  · rw [h] at hidle
    cases hidle
  · rw [h] at hidle
    cases hidle

/-- The one move that ends a command with OK = 0: a wait at or after its budget with its predicate false adds its sample and
finishes with its own kind and site (41_bus_controller.md R137, 60_exceptions.md R237). -/
theorem SeqMove.finishFail_of_idle (m : SeqMove p s t) (hs : s.phase ≠ .idle) (hidle : t.phase = .idle)
    (hok : t.status.ok = false) :
    ∃ r : SiteRow, siteRow s.phase = some r ∧ pinOf p r.flag ≠ r.value ∧ r.budget ≤ s.tick.toNat ∧
      t = finishFail r.kind r.site (s.sampled r p) := by
  cases m with
  | attemptFails r hr hp ht => exact ⟨r, hr, hp, ht, attemptFail_of_idle hidle⟩
  | commandFails r hr hp ht => exact ⟨r, hr, hp, ht, rfl⟩
  | aInit | startDoneStart | drained | received => cases hok
  | idle | spins | aDelayCounts => exact absurd hidle hs
  | byteSent =>
    dsimp only at hidle
    split at hidle <;> cases hidle
  | aBegin | aStart | aRegaddr | aDelayEnds | aWscl | aWdata | aRscl | aRrs | aBscl | aBrs | busFree | started
  | startDoneWrite | startDoneBurst | startDoneByte | writeSettled | burstSettled | byteSettled | repeatedStartCleared =>
    cases hidle

/-! ### No turn is refused -/

theorem startDone_ne_refused (s : State) : startDone s ≠ .refused e := by
  rw [startDone]
  repeat' split
  all_goals nofun

theorem sendDataByte_ne_refused (s : State) : sendDataByte s ≠ .refused e := by
  rw [sendDataByte]
  split <;> nofun

theorem waitOn_ne_refused {f : Flag} {v : Bool} {b : Nat} {ok timeout : State → Result}
    (hok : ∀ u, ok u ≠ .refused e) (htimeout : ∀ u, timeout u ≠ .refused e) :
    waitOn f v b p ok timeout s ≠ .refused e := by
  rcases waitOn_cases f v b p ok timeout s with ⟨-, h⟩ | ⟨-, -, h⟩ | ⟨-, -, h⟩ <;> rw [h]
  · exact hok _
  · exact htimeout _
  · nofun

theorem seqStep_ne_refused (p : BusPins) (s : State) : seqStep p s ≠ .refused e := by
  rw [seqStep]
  cases s.phase with
  | idle | aInit | aBegin | aStart | aRegaddr | aWscl | aWdata | aRscl | aRrs | aBscl | aBrs => nofun
  | aDelay =>
    change phaseADelay s ≠ .refused e
    rw [phaseADelay]
    split <;> nofun
  | wBusy | wSb | wWscl | wWdrain | wRscl | wRrx | wBscl | wBrs | wBrx =>
    exact waitOn_ne_refused (fun _ => nofun) fun _ => nofun
  | wRa => exact waitOn_ne_refused startDone_ne_refused fun _ => nofun
  | wWtx => exact waitOn_ne_refused sendDataByte_ne_refused fun _ => nofun

/-- Every row of the table has a meaning: it completes, or it is one of the two that raise HostFault (43_host_access.md R192). -/
theorem exec_ne_refused (i : Instr) (s : State) : exec i s ≠ .refused e := by
  cases h : refusedOffset i with
  | none =>
    obtain ⟨t, ht⟩ := exec_completes h s
    rw [ht]
    nofun
  | some off =>
    rw [exec_of_refusedOffset h]
    nofun

theorem runTurn_ne_refused (x : Turn) (s : State) : runTurn x s ≠ .refused e := by
  cases x with
  | host a =>
    by_cases hw : a.width = 4
    · rw [runTurn_host_of_width hw]
      exact exec_ne_refused _ _
    · rw [runTurn_host_of_width_ne hw]
      nofun
  | seq p => exact seqStep_ne_refused p s
  | timer | tb | reset => nofun

/-! ### A turn that faults -/

/-- From a state that meets the invariant only a host access faults: SEQ completes its step, and the other agents never stop. -/
theorem Inv.host_of_runTurn_fault {x : Turn} {r : Fault} (g : Inv s) (h : runTurn x s = .fault r) :
    ∃ a : HostAccess, x = .host a := by
  cases x with
  | host a => exact ⟨a, rfl⟩
  | seq p =>
    obtain ⟨t, ht⟩ := g.seqStep_next p
    cases ht.symm.trans h
  | timer | tb | reset => cases h

end Sys2Proof.Machine

namespace Sys2Proof.Proofs

open Sys2Proof.Machine

/-- Settles O48: of the moves of the transition table, only the failing ones end a command with OK = 0. -/
theorem failuresArePrecise : Obligations.FailuresArePrecise := by
  intro s t p h hs hidle hok
  exact (seqStep_move h).finishFail_of_idle hs hidle hok

/-- Settles O56: a turn that faults is a host access, and one that is word aligned and of 4 bytes completes (O11). -/
theorem stepsStopOnlyForUndefinedAccess : Obligations.StepsStopOnlyForUndefinedAccess := by
  refine ⟨fun s p g => g.seqStep_next p, fun s r g h => ?_, fun s r => runTurn_ne_refused _ _⟩
  have hturn : runTurn (takeTurn s).1 (takeTurn s).2 = .fault r := h
  obtain ⟨a, ha⟩ := (takeTurn_inv g).host_of_runTurn_fault hturn
  rw [ha] at hturn
  obtain ⟨hfault, hcompletes⟩ := hostStepFaultsExactlyWhenUndefined a (takeTurn s).2
  by_cases hundefined : a.width ≠ 4 ∨ (hostOff a.word).extractLsb' 0 2 ≠ 0#2
  · exact ⟨a, ha, Host.Outcome.fault.inj (hturn.symm.trans (hfault hundefined)), hundefined⟩
  · obtain ⟨hw, halign⟩ := not_or.1 hundefined
    obtain ⟨t, ht⟩ := hcompletes (not_not.1 hw) (not_not.1 halign)
    cases ht.symm.trans hturn

end Sys2Proof.Proofs
end

section
/-! SUPPORT. Reset and what follows it (70_reset_and_hazards.md R260, R261). -/

namespace Sys2Proof.Machine

/-- Reset keeps only the turns to come, which are the environment's (log 2, log 9). -/
theorem runTurn_reset (s : State) :
    runTurn .reset s = .next { State.reset with turns := s.turns, turnNo := s.turnNo } := rfl

/-- In IDLE SEQ has no step, and its turn changes nothing (41_bus_controller.md R120, log 3). -/
theorem runTurn_seq_of_idle {s : State} (p : BusPins) (h : s.phase = .idle) : runTurn (.seq p) s = .next s :=
  seqStep_idle h

end Sys2Proof.Machine

namespace Sys2Proof.Proofs

open Sys2Proof.Machine

/-- Settles O2: the turn leaves the registers, SEQ and the history of the reset state, whose values are O1's. -/
theorem resetTurnRestoresReset : Obligations.ResetTurnRestoresReset := by
  intro s
  obtain ⟨hopc, -, hregisters⟩ := resetLeavesStatedValues
  exact ⟨_, runTurn_reset s, hopc, hregisters⟩

/-- Settles O3: SEQ rests in IDLE, and the first tick is counted as every other (O35), from TICK = 0. -/
theorem afterResetNothingRunsAndTicksCount : Obligations.AfterResetNothingRunsAndTicksCount :=
  ⟨rfl, rfl, fun p => runTurn_seq_of_idle p rfl, ticksAreCounted 1 State.reset rfl⟩

end Sys2Proof.Proofs
end
